-- ==== Sys2Proof/Word.lean ====
section
/-!
DEFINITION. The words of HDC-CORE/D128: the widths of spec/00_scope.md rule R6.
-/

namespace Sys2Proof

/-- A byte: one cell of the hypervector store, an 8-bit immediate, `RES`, a cause code (R6, R26, R29). -/
abbrev Byte := BitVec 8

/-- A scalar register's pattern, `XS = 16` bits (R6, R24). -/
abbrev Scalar := BitVec 16

/-- A command word or a host-window register, `XC = 32` bits (R6, R60). -/
abbrev Word := BitVec 32

/-- A hypervector, `D = 128` bits; bit `i` is `v.getLsbD i` (R6, R7). -/
abbrev Hv := BitVec 128

end Sys2Proof
end

