-- ==== Sys2Proof/Config.lean ====
section
/-!
DEFINITION. What one build of the block fixes (spec/00_scope.md rule R6, spec/10_state.md rule R31) and the one parameter
the spec leaves open, `HOSTBASE` (spec/20_memory.md rule R47).
-/

namespace Sys2Proof

/-- `D`: bits in a hypervector (R6). -/
def Config.dim : Nat := 128

/-- `DB`: bytes in a hypervector, `D/8` (R6). -/
def Config.dimBytes : Nat := 16

/-- `NHV`: hypervector registers (R6). DESIGN CHOICE (log 16): this build's value, fixed. -/
def Config.numHv : Nat := 16

/-- `NS`: scalar registers (R6). DESIGN CHOICE (log 16): this build's value, fixed. -/
def Config.numScalar : Nat := 16

/-- The interface version in `CONFIG[31:24]` (R31). -/
def Config.version : Nat := 1

/-- The read-only `CONFIG` register: `D` in [7:0], `NHV` in [15:8], `NS` in [23:16], version in [31:24] (R31). -/
def Config.configWord : Word :=
  BitVec.ofNat 8 Config.version ++ BitVec.ofNat 8 Config.numScalar
    ++ BitVec.ofNat 8 Config.numHv ++ BitVec.ofNat 8 Config.dim

/-- Which 32-byte block of the platform's address space the host window fills. A FREE VALUE: R47 leaves
`HOSTBASE` open (U9), so nothing may know it (log 11). -/
opaque Config.hostBlock : Nat

/-- `HOSTBASE`, the byte address of window offset `0x00`, 32-byte aligned by construction (R47). -/
def Config.hostBase : Nat := 32 * Config.hostBlock

end Sys2Proof
end

