-- ==== Sys2Proof/Syntax.lean ====
section
/-!
DEFINITION. The commands of the block (one constructor per row of spec/opcode_table.json), the three pseudo-instructions
of spec/30_encoding.md rules R73 to R75, and the operands of an assembler line as they are written (rule R71).
-/

namespace Sys2Proof

/-- The number of a hypervector register `H[0..15]` (R21, R63). -/
abbrev HReg := Fin 16

/-- The number of a scalar register `S[0..15]` (R24, R63). -/
abbrev SReg := Fin 16

/-- A byte index `idx` into a hypervector, 0 to 15 (R64). -/
abbrev ByteIdx := Fin 16

/-- The 18 commands (R65), operands in the order of the table's fields. -/
inductive Instr where
  /-- `BIND hd, ha, hb`: `H[hd] <- H[ha] ^ H[hb]` (R110). -/
  | bind (hd ha hb : HReg)
  /-- `OR hd, ha, hb`: `H[hd] <- H[ha] | H[hb]` (R111). -/
  | or (hd ha hb : HReg)
  /-- `AND hd, ha, hb`: `H[hd] <- H[ha] & H[hb]` (R112). -/
  | and (hd ha hb : HReg)
  /-- `BUNDLE hd, ha`: `H[hd] <- H[hd] | H[ha]` (R113). -/
  | bundle (hd ha : HReg)
  /-- `POPC8 i8`: `RES <- popcount8(i8)` (R100). -/
  | popc8 (byte : Byte)
  /-- `POPC ha`: `RES <- popcount(H[ha])` (R101). -/
  | popc (ha : HReg)
  /-- `HAMM ha, hb`: `RES <- popcount(H[ha] ^ H[hb])` (R120). -/
  | hamm (ha hb : HReg)
  /-- `SIM ha, hb`: `RES <- 128 - popcount(H[ha] ^ H[hb])` (R121). -/
  | sim (ha hb : HReg)
  /-- `PERM hd, shift`: `H[hd] <- rotl128(H[hd], shift)` (R131). -/
  | perm (hd : HReg) (shift : BitVec 16)
  /-- `CLEAR hd`: `H[hd] <- 0` (R140). -/
  | clear (hd : HReg)
  /-- `FILL hd, value`: every byte of `H[hd]` becomes `value` (R141). -/
  | fill (hd : HReg) (value : Byte)
  /-- `COPY hd, ha`: `H[hd] <- H[ha]` (R142). -/
  | copy (hd ha : HReg)
  /-- `THERM hd, sv, sm`: `H[hd] <- therm(level(S[sv], S[sm]))` (R153). -/
  | therm (hd : HReg) (sv sm : SReg)
  /-- `THERMS hd, sv, smin, smax`: the signed-range encoder (R155). -/
  | therms (hd : HReg) (sv smin smax : SReg)
  /-- `ENCCH hd, sv, sm, hb`: encode one channel, bind it, bundle it (R160). -/
  | encch (hd : HReg) (sv sm : SReg) (hb : HReg)
  /-- `SETS sd, value`: `S[sd] <- value` (R170). -/
  | sets (sd : SReg) (value : Scalar)
  /-- `SETB hd, idx, byte`: `H[hd].byte[idx] <- byte` (R171). -/
  | setb (hd : HReg) (idx : ByteIdx) (byte : Byte)
  /-- `GETB ha, idx`: `RES <- H[ha].byte[idx]` (R172). -/
  | getb (ha : HReg) (idx : ByteIdx)
deriving DecidableEq, Repr

/-- One channel of `ENCODE_CHANNELS`: its reading, its bound, its basis vector (R73, R161). -/
structure Channel where
  sv : SReg
  sm : SReg
  hb : HReg
deriving DecidableEq, Repr

/-- The pseudo-instructions (R73, R74, R75). `encodeChannels` holds the general form, one bound per channel; the
form with one bound for all names the same `sm` in every channel. -/
inductive Pseudo where
  | encodeChannels (hd : HReg) (channels : List Channel)
  | ldhv (hd : HReg) (bytes : List Byte)
  | ones (hd : HReg)
deriving DecidableEq, Repr

/-- An operand as an assembler line writes it (R71): the numbers are not yet known to be in range. -/
inductive Arg where
  /-- `h<n>`, a hypervector register. -/
  | h (n : Nat)
  /-- `s<n>`, a scalar register. -/
  | s (n : Nat)
  /-- An immediate or an `idx`, decimal or hexadecimal, possibly negative. -/
  | num (n : Int)
  /-- `(s<sv>, h<hb>)`, a channel of `ENCODE_CHANNELS` under the common bound (R73). -/
  | pair (sv hb : Nat)
  /-- `(s<sv>, s<sm>, h<hb>)`, a channel with a bound of its own (R73). -/
  | triple (sv sm hb : Nat)
deriving DecidableEq, Repr

/-- The mnemonics of R65 and the pseudo-instructions of R73 to R75. -/
inductive Mnemonic where
  | bind | or | and | bundle | popc8 | popc | hamm | sim | perm | clear | fill | copy
  | therm | therms | encch | sets | setb | getb
  | encodeChannels | ldhv | ones
deriving DecidableEq, Repr

/-- One assembler line, comment removed: a mnemonic and its operands (R71). -/
structure SourceLine where
  op : Mnemonic
  args : List Arg
deriving DecidableEq, Repr

end Sys2Proof
end

