-- ==== Sys2Proof/WellFormed.lean ====
section
/-!
DEFINITION. When a term stands for a command. Every `Instr` does: its register numbers, byte index and immediates are
already of the fields' widths, so no operand of one can be out of range (spec/30_encoding.md rule R63, spec/60_exceptions.md
rule R215). What can be ill-formed is a pseudo-instruction (rules R73, R74) and an assembler line (rule R71).
-/

namespace Sys2Proof

/-- What one operand position of a command accepts (R65, R71). -/
inductive ArgKind where
  | hreg | sreg | idx | imm8 | shift16 | scalar16
deriving DecidableEq, Repr

/-- Whether an operand fits its position: `h0`..`h15`, `s0`..`s15`, `idx` 0 to 15, a byte 0 to 255, a shift 0 to 65535
(R64), and for `SETS` also a negative decimal down to -32768 (R71). -/
def ArgKind.accepts : ArgKind → Arg → Bool
  | .hreg, .h n => decide (n < 16)
  | .sreg, .s n => decide (n < 16)
  | .idx, .num n => decide (0 ≤ n) && decide (n < 16)
  | .imm8, .num n => decide (0 ≤ n) && decide (n < 256)
  | .shift16, .num n => decide (0 ≤ n) && decide (n < 65536)
  | .scalar16, .num n => decide (-32768 ≤ n) && decide (n < 65536)
  | _, _ => false

/-- Operands against positions: as many as there are positions, each fitting. -/
def argsFit : List ArgKind → List Arg → Bool
  | [], [] => true
  | k :: ks, a :: as => k.accepts a && argsFit ks as
  | _, _ => false

/-- The operand positions of each command, field `a` first (R65, R71); `none` for the pseudo-instructions, whose
operand lists have no fixed length here. -/
def Mnemonic.positions : Mnemonic → Option (List ArgKind)
  | .bind | .or | .and => some [.hreg, .hreg, .hreg]
  | .bundle | .hamm | .sim | .copy => some [.hreg, .hreg]
  | .popc8 => some [.imm8]
  | .popc | .clear | .ones => some [.hreg]
  | .perm => some [.hreg, .shift16]
  | .fill => some [.hreg, .imm8]
  | .therm => some [.hreg, .sreg, .sreg]
  | .therms => some [.hreg, .sreg, .sreg, .sreg]
  | .encch => some [.hreg, .sreg, .sreg, .hreg]
  | .sets => some [.sreg, .scalar16]
  | .setb => some [.hreg, .idx, .imm8]
  | .getb => some [.hreg, .idx]
  | .ldhv => some (.hreg :: List.replicate 16 .imm8)
  | .encodeChannels => none

/-- A channel of `ENCODE_CHANNELS hd, sm, (sv, hb), ...`: registers in range, and the basis register is not `hd`,
whose `CLEAR` would destroy it: "the assembler rejects it" (R73). -/
def pairFits (hd : Nat) : Arg → Bool
  | .pair sv hb => decide (sv < 16) && decide (hb < 16) && decide (hb ≠ hd)
  | _ => false

/-- A channel of the form with one bound per channel, `ENCODE_CHANNELS hd, (sv, sm, hb), ...` (R73). -/
def tripleFits (hd : Nat) : Arg → Bool
  | .triple sv sm hb => decide (sv < 16) && decide (sm < 16) && decide (hb < 16) && decide (hb ≠ hd)
  | _ => false

/-- A well-formed assembler line (R71, R73, R74, R75). -/
def SourceLine.wf (l : SourceLine) : Bool :=
  match l.op.positions, l.args with
  | some ks, as => argsFit ks as
  | none, .h hd :: .s sm :: chans => decide (hd < 16) && decide (sm < 16) && chans.all (pairFits hd)
  | none, .h hd :: chans => decide (hd < 16) && chans.all (tripleFits hd)
  | none, _ => false

/-- A well-formed pseudo-instruction: no channel's basis register is the accumulator (R73), and `LDHV` has sixteen
bytes (R74). -/
def Pseudo.wf : Pseudo → Bool
  | .encodeChannels hd channels => channels.all fun c => decide (c.hb ≠ hd)
  | .ldhv _ bytes => decide (bytes.length = 16)
  | .ones _ => true

end Sys2Proof
end

