-- ==== Sys2Proof/Decode.lean ====
section
/-!
DEFINITION. From a command word to a command and back: spec/30_encoding.md rules R60 to R67. The decoder is total on
32-bit words and refuses the others by name. The encoder is written from the same table.
-/

namespace Sys2Proof

/-- The eight formats of R62. -/
inductive Format where
  | abc | ab | a | ai16 | ai8 | abi8 | i8 | abce
deriving DecidableEq, Repr

/-- The mask of a format: 1 at `op` and at every reserved bit (R62). -/
def Format.mask : Format → Word
  | .abc => 0xFF000FFF#32
  | .ab => 0xFF00FFFF#32
  | .a => 0xFF0FFFFF#32
  | .ai16 => 0xFF0F0000#32
  | .ai8 => 0xFF0FFF00#32
  | .abi8 => 0xFF00FF00#32
  | .i8 => 0xFFFFFF00#32
  | .abce => 0xFF0000FF#32

/-- Field `op`, bits [31:24] (R61). -/
def fieldOp (w : Word) : Byte := w.extractLsb' 24 8
/-- Field `a`, bits [23:20] (R61). -/
def fieldA (w : Word) : BitVec 4 := w.extractLsb' 20 4
/-- Field `b`, bits [19:16] (R61). -/
def fieldB (w : Word) : BitVec 4 := w.extractLsb' 16 4
/-- Field `c`, bits [15:12] (R61). -/
def fieldC (w : Word) : BitVec 4 := w.extractLsb' 12 4
/-- Field `e`, bits [11:8] (R61). -/
def fieldE (w : Word) : BitVec 4 := w.extractLsb' 8 4
/-- Field `i8`, bits [7:0] (R61). -/
def fieldI8 (w : Word) : Byte := w.extractLsb' 0 8
/-- Field `i16`, bits [15:0] (R61). -/
def fieldI16 (w : Word) : BitVec 16 := w.extractLsb' 0 16

/-- The register (or byte index) a 4-bit field names: `uint(f)`, always an existing one (R63, R64). -/
def regOf (f : BitVec 4) : Fin 16 := ⟨f.toNat, f.isLt⟩

/-- The 4-bit field that names a register. -/
def nibble (k : Fin 16) : BitVec 4 := BitVec.ofNat 4 k.val

/-- Why a word is illegal (R66): both raise `ILLEGAL_CMD` (R67). -/
inductive Illegal where
  /-- No row of R65 has the word's `op`. -/
  | unassignedOp
  /-- The row is there, and a reserved bit of its format is 1. -/
  | reservedBit
deriving DecidableEq, Repr

/-- What decoding answers: "one of the 18 commands with its field values" or "illegal" (R66). -/
inductive Decoded where
  | command (i : Instr)
  | illegal (why : Illegal)
deriving DecidableEq, Repr

/-- The row of R65 for an opcode: its format and the command its fields make. `none` where no row has the opcode. -/
def opcodeRow (w : Word) : Nat → Option (Format × Instr)
  | 0x10 => some (.abc, .bind (regOf (fieldA w)) (regOf (fieldB w)) (regOf (fieldC w)))
  | 0x11 => some (.abc, .or (regOf (fieldA w)) (regOf (fieldB w)) (regOf (fieldC w)))
  | 0x12 => some (.abc, .and (regOf (fieldA w)) (regOf (fieldB w)) (regOf (fieldC w)))
  | 0x13 => some (.ab, .bundle (regOf (fieldA w)) (regOf (fieldB w)))
  | 0x20 => some (.i8, .popc8 (fieldI8 w))
  | 0x21 => some (.a, .popc (regOf (fieldA w)))
  | 0x22 => some (.ab, .hamm (regOf (fieldA w)) (regOf (fieldB w)))
  | 0x23 => some (.ab, .sim (regOf (fieldA w)) (regOf (fieldB w)))
  | 0x30 => some (.ai16, .perm (regOf (fieldA w)) (fieldI16 w))
  | 0x31 => some (.a, .clear (regOf (fieldA w)))
  | 0x32 => some (.ai8, .fill (regOf (fieldA w)) (fieldI8 w))
  | 0x33 => some (.ab, .copy (regOf (fieldA w)) (regOf (fieldB w)))
  | 0x40 => some (.abc, .therm (regOf (fieldA w)) (regOf (fieldB w)) (regOf (fieldC w)))
  | 0x41 => some (.abce, .therms (regOf (fieldA w)) (regOf (fieldB w)) (regOf (fieldC w)) (regOf (fieldE w)))
  | 0x42 => some (.abce, .encch (regOf (fieldA w)) (regOf (fieldB w)) (regOf (fieldC w)) (regOf (fieldE w)))
  | 0x50 => some (.ai16, .sets (regOf (fieldA w)) (fieldI16 w))
  | 0x51 => some (.abi8, .setb (regOf (fieldA w)) (regOf (fieldB w)) (fieldI8 w))
  | 0x52 => some (.ab, .getb (regOf (fieldA w)) (regOf (fieldB w)))
  | _ => none

/-- `match` of a row: the word with `op` set and all other bits 0 (R65). -/
def matchOf (op : Byte) : Word := op ++ 0#24

/-- Decoding, a total function of the word (R66). -/
def decode (w : Word) : Decoded :=
  match opcodeRow w (fieldOp w).toNat with
  | none => .illegal .unassignedOp
  | some (f, i) => if w &&& f.mask = matchOf (fieldOp w) then .command i else .illegal .reservedBit

/-- The command of a decoding, where there is one. -/
def Decoded.instr? : Decoded → Option Instr
  | .command i => some i
  | .illegal _ => none

/-- A word laid out from `op`, the four register fields and `i8` (R61); a reserved field is given as 0 (R62). -/
def wordOf (op : Byte) (a b c e : BitVec 4) (i8 : Byte) : Word := op ++ a ++ b ++ c ++ e ++ i8

/-- A word laid out from `op`, `a` and `i16` (format `AI16`, R62). -/
def wordOf16 (op : Byte) (a : BitVec 4) (i16 : BitVec 16) : Word := op ++ a ++ 0#4 ++ i16

/-- The word of a command (R61, R62, R65). -/
def encode : Instr → Word
  | .bind hd ha hb => wordOf 0x10#8 (nibble hd) (nibble ha) (nibble hb) 0#4 0#8
  | .or hd ha hb => wordOf 0x11#8 (nibble hd) (nibble ha) (nibble hb) 0#4 0#8
  | .and hd ha hb => wordOf 0x12#8 (nibble hd) (nibble ha) (nibble hb) 0#4 0#8
  | .bundle hd ha => wordOf 0x13#8 (nibble hd) (nibble ha) 0#4 0#4 0#8
  | .popc8 byte => wordOf 0x20#8 0#4 0#4 0#4 0#4 byte
  | .popc ha => wordOf 0x21#8 (nibble ha) 0#4 0#4 0#4 0#8
  | .hamm ha hb => wordOf 0x22#8 (nibble ha) (nibble hb) 0#4 0#4 0#8
  | .sim ha hb => wordOf 0x23#8 (nibble ha) (nibble hb) 0#4 0#4 0#8
  | .perm hd shift => wordOf16 0x30#8 (nibble hd) shift
  | .clear hd => wordOf 0x31#8 (nibble hd) 0#4 0#4 0#4 0#8
  | .fill hd value => wordOf 0x32#8 (nibble hd) 0#4 0#4 0#4 value
  | .copy hd ha => wordOf 0x33#8 (nibble hd) (nibble ha) 0#4 0#4 0#8
  | .therm hd sv sm => wordOf 0x40#8 (nibble hd) (nibble sv) (nibble sm) 0#4 0#8
  | .therms hd sv smin smax => wordOf 0x41#8 (nibble hd) (nibble sv) (nibble smin) (nibble smax) 0#8
  | .encch hd sv sm hb => wordOf 0x42#8 (nibble hd) (nibble sv) (nibble sm) (nibble hb) 0#8
  | .sets sd value => wordOf16 0x50#8 (nibble sd) value
  | .setb hd idx byte => wordOf 0x51#8 (nibble hd) (nibble idx) 0#4 0#4 byte
  | .getb ha idx => wordOf 0x52#8 (nibble ha) (nibble idx) 0#4 0#4 0#8

/-- The word whose `nbits` low bits are `w` and whose other bits are 0. -/
def tableWord (nbits w : Nat) : Word := BitVec.ofNat 32 (w % 2 ^ nbits)

/-- The command the decoder reads from the word of an opcode-table row. A command word is delivered whole, so no
byte order enters (R42, R60). -/
def decodeTableWord (nbits w : Nat) : Option Instr := (decode (tableWord nbits w)).instr?

end Sys2Proof
end

