-- ==== Sys2Proof/Machine/State.lean ====
section
/-!
DEFINITION. The state of the block (spec/10_state.md rule R20: "Nothing else is state"), the moves of the host
(spec/70_reset_and_hazards.md rule R232), the reasons a step could stop, and the state after reset (rule R222).
-/

namespace Sys2Proof.Machine

/-- The eight 32-bit registers of the host window (R33). -/
inductive WinReg where
  | cmd | status | res | ecause | ecmd | config | ctrl | init
deriving DecidableEq, Repr

/-- Everything the host can do to the block (R232). There is no other move: no access that is not an aligned
32-bit access inside the window (R48, U8; log 12), no transaction while `rst_n` is asserted (log 14). -/
inductive HostMove where
  /-- `rst_n` asserted, then released (R220). -/
  | hardReset
  /-- A 32-bit write of a window register. -/
  | write (r : WinReg) (w : Word)
  /-- A 32-bit read of a window register. -/
  | read (r : WinReg)
deriving DecidableEq, Repr

/-- The hypervector store `HVMEM` (R40, R41): its bytes that differ from what an unlisted address reads as,
addresses strictly rising. The canonical form is `Memory.wf`. -/
abbrev Memory := List Host.Cell

/-- Why a step could stop in a stuck state: there is no reason. A violated contract is an entry into the faulted state,
which is a NEXT state (R206), and "the block has no hang and no stuck state: from any state, every host transaction
has exactly one successor state" (R230). Safe: nothing is shut out (log 10). -/
inductive Fault where
deriving DecidableEq, Repr

/-- Why an instruction could have no meaning. -/
inductive Refusal where
  /-- Raised by an arm of `exec` for an instruction not modelled yet. No arm does: all 18 commands are modelled.
  Safe: it would only stop a run. -/
  | notModelled (mnemonic : String)
deriving DecidableEq, Repr

/-- The state. The first eight fields are the architectural state of R20; the last two are the model's own and stand for
the host's side of a run (R27, R231). -/
structure State where
  /-- `HVMEM`, the storage of `H[0..15]` (R21, R41; log 7). -/
  hvmem : Memory
  /-- `HINIT[0..15]`: bit `k` says that `H[k]` has been written since reset (R23). -/
  hinit : BitVec 16
  /-- `S[0..15]` (R24). -/
  scalars : Vector Scalar 16
  /-- `SINIT[0..15]`: bit `k` says that `S[k]` has been written since reset (R25). -/
  sinit : BitVec 16
  /-- `RES`, the result of the last result-producing command (R26). -/
  res : Byte
  /-- `ERR`, the sticky fault flag (R28). -/
  err : Bool
  /-- `ECAUSE`, the cause code of the latched fault (R29). -/
  ecause : Byte
  /-- `ECMD`, the command word that raised the latched fault (R30). -/
  ecmd : Word
  /-- The MODEL's field: the host's pending moves, next first (R27, R37, R232; log 1). -/
  host : List HostMove
  /-- The MODEL's field: what the host's window reads have returned, oldest first (R231; log 3). -/
  seen : List Word
deriving DecidableEq, Repr

/-- The machine right after reset (R222): every flag, `RES` and the fault registers 0. DESIGN CHOICE (logs 4, 5): the
contents of `H` and `S`, which R222 leaves unspecified and no rule can read, are zero; no move is pending and none has
been made (logs 1, 3). -/
def State.reset : State where
  hvmem := []
  hinit := 0#16
  scalars := Vector.replicate 16 0#16
  sinit := 0#16
  res := 0#8
  err := false
  ecause := 0#8
  ecmd := 0#32
  host := []
  seen := []

end Sys2Proof.Machine
end

