-- ==== Sys2Proof/Machine/Flags.lean ====
section
/-!
DEFINITION. The only flags of the block: `HINIT`, `SINIT` and `ERR` (spec/10_state.md rules R23, R25, R28). There are no
condition codes, so there is no other flag computation (rule R28).
-/

namespace Sys2Proof.Machine

/-- `HINIT[k]` (R23). -/
def State.hvInit (s : State) (k : HReg) : Bool := s.hinit.getLsbD k.val

/-- `SINIT[k]` (R25). -/
def State.scalarInit (s : State) (k : SReg) : Bool := s.sinit.getLsbD k.val

/-- A flag word with flag `k` set to 1: a write of a register sets its flag (R8). -/
def setFlag (flags : BitVec 16) (k : Fin 16) : BitVec 16 := flags ||| BitVec.twoPow 16 k.val

/-- `INIT`: bit `k` is `HINIT[k]`, bit `16+k` is `SINIT[k]` (R32). -/
def State.initWord (s : State) : Word := s.sinit ++ s.hinit

/-- `STATUS`: bit 0 is `ERR`, bits [31:1] read 0 (R28, R33). -/
def State.statusWord (s : State) : Word := BitVec.ofNat 32 s.err.toNat

/-- The output `fault_o`, "a level equal to `ERR` at all times" (R209). -/
def State.faultO (s : State) : Bool := s.err

end Sys2Proof.Machine
end

