-- ==== Sys2Proof/Machine/Ops.lean ====
section
/-!
DEFINITION. The named operations over the hypervector store and the registers (spec/00_scope.md rule R8,
spec/20_memory.md rule R41), fault entry (spec/60_exceptions.md rule R206), and the way back from it, reset
(spec/70_reset_and_hazards.md rules R220 to R222): the block has no return from a fault but reset (rule R210).
-/

namespace Sys2Proof.Machine

/-! ### The cells of the store -/

/-- What a byte that no cell lists reads as. DESIGN CHOICE (log 4): R222 leaves the contents after reset
unspecified; no command can read such a byte before it is written. -/
def unlistedByte : Byte := 0#8

/-- The byte at an address. -/
def Memory.read (m : Memory) (a : Nat) : Byte :=
  match m with
  | [] => unlistedByte
  | (x, b) :: rest => if x = a then b else Memory.read rest a

/-- Puts a cell before the first cell with a greater address. -/
def Memory.insert (m : Memory) (a : Nat) (v : Byte) : Memory :=
  match m with
  | [] => [(a, v)]
  | (x, b) :: rest => if a < x then (a, v) :: (x, b) :: rest else (x, b) :: Memory.insert rest a v

/-- Removes the cells at an address. -/
def Memory.erase (m : Memory) (a : Nat) : Memory := m.filter fun c => decide (c.1 ≠ a)

/-- Writes one byte, keeping the canonical form: writing what an unlisted address reads as removes the entry. -/
def Memory.write (m : Memory) (a : Nat) (v : Byte) : Memory :=
  if v = unlistedByte then Memory.erase m a else Memory.insert (Memory.erase m a) a v

/-- Writes bytes `f 0`, …, `f (n-1)` at addresses `a`, …, `a+n-1`. -/
def Memory.store (m : Memory) (a : Nat) (f : Nat → Byte) : Nat → Memory
  | 0 => m
  | n + 1 => Memory.write (Memory.store m a f n) (a + n) (f n)

/-- The canonical form: addresses strictly rising, all inside `HVMEM`'s `0x00`-`0xFF` (R40), and no entry equal to what
an unlisted address reads as. -/
def Memory.wf : Memory → Bool
  | [] => true
  | [(a, v)] => decide (a < 256) && decide (v ≠ unlistedByte)
  | (a, v) :: (a', v') :: rest => decide (a < a') && decide (v ≠ unlistedByte) && Memory.wf ((a', v') :: rest)

/-! ### Bytes of a vector -/

/-- `v.byte[j] = (val(v) >> 8j) & 0xFF` (R7). -/
def hvByte (v : Hv) (j : Nat) : Byte := v.extractLsb' (8 * j) 8

/-- `Σ_{j<n} f(j) · 2^(8j)` (R41). -/
def bytesVal (f : Nat → Byte) : Nat → Nat
  | 0 => 0
  | n + 1 => bytesVal f n + (f n).toNat * 2 ^ (8 * n)

/-- The vector with given bytes, byte 0 least significant (R7, R41). -/
def hvOfBytes (f : Nat → Byte) : Hv := BitVec.ofNat 128 (bytesVal f 16)

/-! ### Memory and register accesses -/

/-- The address of byte 0 of `H[k]` in `HVMEM`: `16*k` (R41). -/
def hvAddr (k : HReg) : Nat := 16 * k.val

/-- `MemRead(addr, 1)` (R8, R41). -/
def State.memRead (s : State) (a : Nat) : Byte := Memory.read s.hvmem a

/-- `MemWrite(addr, 1, v)` (R8, R41): replaces one byte and nothing else. -/
def State.memWrite (s : State) (a : Nat) (v : Byte) : State := { s with hvmem := Memory.write s.hvmem a v }

/-- `H[k]` as a 128-bit value: `Σ_j MemRead(16*k + j, 1) · 2^(8j)` (R41). -/
def State.hv (s : State) (k : HReg) : Hv := hvOfBytes fun j => s.memRead (hvAddr k + j)

/-- `H[k] <- v`: writes all 128 bits and sets `HINIT[k]` (R8). -/
def State.writeHv (s : State) (k : HReg) (v : Hv) : State :=
  { s with hvmem := Memory.store s.hvmem (hvAddr k) (hvByte v) 16, hinit := setFlag s.hinit k }

/-- `S[k]` (R8). -/
def State.scalar (s : State) (k : SReg) : Scalar := s.scalars[k.val]

/-- `S[k] <- v`: writes the pattern and sets `SINIT[k]` (R8). -/
def State.writeScalar (s : State) (k : SReg) (v : Scalar) : State :=
  { s with scalars := s.scalars.set k.val v, sinit := setFlag s.sinit k }

/-- `RES <- v` (R8). -/
def State.writeRes (s : State) (v : Byte) : State := { s with res := v }

/-! ### Faults and reset -/

/-- The six causes (R200). -/
inductive Cause where
  | illegalCmd | uninitHv | uninitS | zeroMax | badRange | belowMin
deriving DecidableEq, Repr

/-- The code `ECAUSE` holds after a fault (R200). -/
def Cause.code : Cause → Byte
  | .illegalCmd => 1#8
  | .uninitHv => 2#8
  | .uninitS => 3#8
  | .zeroMax => 4#8
  | .badRange => 5#8
  | .belowMin => 6#8

/-- `raise Fault(c)` for the command word `w`: exactly `ERR`, `ECAUSE` and `ECMD` change (R206). -/
def State.takeFault (s : State) (c : Cause) (w : Word) : State :=
  { s with err := true, ecause := c.code, ecmd := w }

/-- Reset, hard or soft: the block is in the state of R222; what the host still means to do and what it has seen are the
host's and stay (R220, R221). DESIGN CHOICE (log 6): the contents, unspecified after a soft reset too, are
`State.reset`'s. -/
def State.blockReset (s : State) : State := { State.reset with host := s.host, seen := s.seen }

end Sys2Proof.Machine
end

