-- ==== Sys2Proof/Machine/Operands.lean ====
section
/-!
DEFINITION. The operand reads of a command and the order of its checks: spec/30_encoding.md rule R76 steps 3 to 5,
spec/60_exceptions.md rule R208, spec/00_scope.md rule R9.
-/

namespace Sys2Proof.Machine

/-- A register a command reads, by class (R65, R76 step 3). -/
inductive RegRead where
  | hv (k : HReg)
  | scalar (k : SReg)
deriving DecidableEq, Repr

/-- Whether the register has been written since reset (R23, R25). -/
def RegRead.ready (s : State) : RegRead → Bool
  | .hv k => s.hvInit k
  | .scalar k => s.scalarInit k

/-- The fault of reading a register that is not ready, by the register's class (R202, R203). -/
def RegRead.cause : RegRead → Cause
  | .hv _ => .uninitHv
  | .scalar _ => .uninitS

/-- The initialisation checks in order, stopping at the first that fails (R76 step 3). -/
def firstUninit (s : State) : List RegRead → Option Cause
  | [] => none
  | r :: rest => if r.ready s then firstUninit s rest else some r.cause

/-- One decoded command (R76 steps 3 to 5): the initialisation checks of the registers it reads, in field order; its
value check; then its result `done`, computed from the state before the command. The first check that fails raises its
fault with the command's whole word (R206, R208). The word is the encoding of the command: a command has one word
only (log 8). -/
def command (i : Instr) (reads : List RegRead) (valueCheck : Option Cause) (s done : State) :
    Host.Outcome State Fault Refusal :=
  match firstUninit s reads with
  | some c => .next (s.takeFault c (encode i))
  | none =>
    match valueCheck with
    | some c => .next (s.takeFault c (encode i))
    | none => .next done

end Sys2Proof.Machine
end

