-- ==== Sys2Proof/Machine/Bitwise.lean ====
section
/-!
DEFINITION. The bitwise commands: spec/41_bitwise.md rules R110 to R113.
-/

namespace Sys2Proof.Machine

/-- A command that combines two vectors bit by bit into a third register (R110 to R112): reads `ha`, then `hb`. -/
def bitwise (i : Instr) (f : Hv → Hv → Hv) (hd ha hb : HReg) (s : State) : Host.Outcome State Fault Refusal :=
  command i [.hv ha, .hv hb] none s (s.writeHv hd (f (s.hv ha) (s.hv hb)))

/-- `BIND`: `H[hd] <- H[ha] ^ H[hb]` (R110). -/
def execBind (hd ha hb : HReg) (s : State) : Host.Outcome State Fault Refusal :=
  bitwise (.bind hd ha hb) (fun x y => x ^^^ y) hd ha hb s

/-- `OR`: `H[hd] <- H[ha] | H[hb]` (R111). -/
def execOr (hd ha hb : HReg) (s : State) : Host.Outcome State Fault Refusal :=
  bitwise (.or hd ha hb) (fun x y => x ||| y) hd ha hb s

/-- `AND`: `H[hd] <- H[ha] & H[hb]` (R112). -/
def execAnd (hd ha hb : HReg) (s : State) : Host.Outcome State Fault Refusal :=
  bitwise (.and hd ha hb) (fun x y => x &&& y) hd ha hb s

/-- `BUNDLE`: `H[hd] <- H[hd] | H[ha]`; the accumulator is read first (R113). -/
def execBundle (hd ha : HReg) (s : State) : Host.Outcome State Fault Refusal :=
  bitwise (.bundle hd ha) (fun x y => x ||| y) hd hd ha s

end Sys2Proof.Machine
end

