-- ==== Sys2Proof/Machine/Count.lean ====
section
/-!
DEFINITION. Population count, distance and similarity: spec/40_popcount.md rules R100, R101 and spec/42_distance.md
rules R120, R121.
-/

namespace Sys2Proof.Machine

/-- `Σ_{t<n} ((b >> t) & 1)`. -/
def bitSum (b : Byte) : Nat → Nat
  | 0 => 0
  | t + 1 => bitSum b t + (b.getLsbD t).toNat

/-- `popcount8(b) = Σ_{t=0..7} ((b >> t) & 1)` (R100). -/
def popcount8 (b : Byte) : Nat := bitSum b 8

/-- `Σ_{j<n} popcount8(v.byte[j])`. -/
def byteCountSum (v : Hv) : Nat → Nat
  | 0 => 0
  | j + 1 => byteCountSum v j + popcount8 (hvByte v j)

/-- `popcount(v) = Σ_{j=0..15} popcount8(v.byte[j])` (R101). -/
def popcount (v : Hv) : Nat := byteCountSum v 16

/-- `hamming(a, b) = popcount(a ^ b)` (R120). -/
def hamming (a b : Hv) : Nat := popcount (a ^^^ b)

/-- A command that only produces a count in `RES` (R26): `zext_8(n)`. -/
def countInto (i : Instr) (reads : List RegRead) (n : Nat) (s : State) : Host.Outcome State Fault Refusal :=
  command i reads none s (s.writeRes (BitVec.ofNat 8 n))

/-- `POPC8`: `RES <- popcount8(i8)`; reads no register (R100). -/
def execPopc8 (byte : Byte) (s : State) : Host.Outcome State Fault Refusal :=
  countInto (.popc8 byte) [] (popcount8 byte) s

/-- `POPC`: `RES <- popcount(H[ha])` (R101). -/
def execPopc (ha : HReg) (s : State) : Host.Outcome State Fault Refusal :=
  countInto (.popc ha) [.hv ha] (popcount (s.hv ha)) s

/-- `HAMM`: `RES <- popcount(H[ha] ^ H[hb])` (R120). -/
def execHamm (ha hb : HReg) (s : State) : Host.Outcome State Fault Refusal :=
  countInto (.hamm ha hb) [.hv ha, .hv hb] (hamming (s.hv ha) (s.hv hb)) s

/-- `SIM`: `RES <- 128 - popcount(H[ha] ^ H[hb])` (R121). -/
def execSim (ha hb : HReg) (s : State) : Host.Outcome State Fault Refusal :=
  countInto (.sim ha hb) [.hv ha, .hv hb] (128 - hamming (s.hv ha) (s.hv hb)) s

end Sys2Proof.Machine
end

