-- ==== Sys2Proof/Machine/Encoder.lean ====
section
/-!
DEFINITION. The thermometer encoder and one channel of the multi-channel encoder: spec/45_thermometer.md rules R150 to
R156 and spec/46_channels.md rule R160.
-/

namespace Sys2Proof.Machine

/-- `level(x, m)`: 128 if `x ≥ m`, else `(x * 128) div m`, truncated (R150, R156). No command evaluates it at `m = 0`. -/
def level (x m : Nat) : Nat := if m ≤ x then 128 else x * 128 / m

/-- `therm(L)`: bits `0 .. L-1` are 1; `val(therm(L)) = 2^L - 1` (R151). -/
def therm (l : Nat) : Hv := BitVec.ofNat 128 (2 ^ l - 1)

/-- The encoded reading: `therm(level(x, m))`, a temporary of one command (R36, R153). -/
def encodeReading (x m : Nat) : Hv := therm (level x m)

/-- `sint_16(x)`: `uint(x)` if bit 15 is 0, else `uint(x) - 65536` (R8). PRESUMED (log 17): the spec takes the
representation from general knowledge (G1). -/
def sint16 (x : Scalar) : Int := if x.getLsbD 15 then (x.toNat : Int) - 65536 else (x.toNat : Int)

/-- The bound check of `THERM` and `ENCCH` (R204): a zero bound raises `ZERO_MAX`. -/
def boundCheck (m : Nat) : Option Cause := if m = 0 then some .zeroMax else none

/-- The checks of `THERMS`, `BAD_RANGE` before `BELOW_MIN` (R155, R205, R214). -/
def rangeCheck (v lo hi : Int) : Option Cause :=
  if hi - lo ≤ 0 then some .badRange else if v < lo then some .belowMin else none

/-- `THERM`: `H[hd] <- therm(level(uint(S[sv]), uint(S[sm])))` (R153). -/
def execTherm (hd : HReg) (sv sm : SReg) (s : State) : Host.Outcome State Fault Refusal :=
  command (.therm hd sv sm) [.scalar sv, .scalar sm] (boundCheck (s.scalar sm).toNat) s
    (s.writeHv hd (encodeReading (s.scalar sv).toNat (s.scalar sm).toNat))

/-- `THERMS`: the reading shifted into `[0, max-min]`, then as `THERM` (R155). -/
def execTherms (hd : HReg) (sv smin smax : SReg) (s : State) : Host.Outcome State Fault Refusal :=
  command (.therms hd sv smin smax) [.scalar sv, .scalar smin, .scalar smax]
    (rangeCheck (sint16 (s.scalar sv)) (sint16 (s.scalar smin)) (sint16 (s.scalar smax))) s
    (s.writeHv hd (encodeReading (sint16 (s.scalar sv) - sint16 (s.scalar smin)).toNat
      (sint16 (s.scalar smax) - sint16 (s.scalar smin)).toNat))

/-- `ENCCH`: encode one channel, bind it to its basis vector, bundle it into the accumulator (R160). -/
def execEncch (hd : HReg) (sv sm : SReg) (hb : HReg) (s : State) : Host.Outcome State Fault Refusal :=
  command (.encch hd sv sm hb) [.hv hd, .scalar sv, .scalar sm, .hv hb] (boundCheck (s.scalar sm).toNat) s
    (s.writeHv hd (s.hv hd ||| (encodeReading (s.scalar sv).toNat (s.scalar sm).toNat ^^^ s.hv hb)))

end Sys2Proof.Machine
end

