-- ==== Sys2Proof/Machine/HostAccess.lean ====
section
/-!
DEFINITION. The host access commands: spec/47_host_access.md rules R170 to R172.
-/

namespace Sys2Proof.Machine

/-- The address of a byte access: `16*h + idx` (R171, R172). -/
def byteAddr (k : HReg) (idx : ByteIdx) : Nat := hvAddr k + idx.val

/-- `SETS`: `S[sd] <- i16`, `SINIT[sd] <- 1` (R170). -/
def execSets (sd : SReg) (value : Scalar) (s : State) : Host.Outcome State Fault Refusal :=
  command (.sets sd value) [] none s (s.writeScalar sd value)

/-- `SETB`: `MemWrite(16*hd + idx, 1, i8)`; the register must be initialised and stays so (R171). -/
def execSetb (hd : HReg) (idx : ByteIdx) (byte : Byte) (s : State) : Host.Outcome State Fault Refusal :=
  command (.setb hd idx byte) [.hv hd] none s (s.memWrite (byteAddr hd idx) byte)

/-- `GETB`: `RES <- MemRead(16*ha + idx, 1)` (R172). -/
def execGetb (ha : HReg) (idx : ByteIdx) (s : State) : Host.Outcome State Fault Refusal :=
  command (.getb ha idx) [.hv ha] none s (s.writeRes (s.memRead (byteAddr ha idx)))

end Sys2Proof.Machine
end

