-- ==== Sys2Proof/Machine/Move.lean ====
section
/-!
DEFINITION. Whole-vector moves: spec/44_move.md rules R140 to R142.
-/

namespace Sys2Proof.Machine

/-- The vector whose 16 bytes are all `b` (R141). -/
def fillHv (b : Byte) : Hv := hvOfBytes fun _ => b

/-- `CLEAR`: `H[hd] <- 0`; reads no register (R140). -/
def execClear (hd : HReg) (s : State) : Host.Outcome State Fault Refusal :=
  command (.clear hd) [] none s (s.writeHv hd 0#128)

/-- `FILL`: every byte of `H[hd]` becomes `value`; reads no register (R141). -/
def execFill (hd : HReg) (value : Byte) (s : State) : Host.Outcome State Fault Refusal :=
  command (.fill hd value) [] none s (s.writeHv hd (fillHv value))

/-- `COPY`: `H[hd] <- H[ha]` (R142). -/
def execCopy (hd ha : HReg) (s : State) : Host.Outcome State Fault Refusal :=
  command (.copy hd ha) [.hv ha] none s (s.writeHv hd (s.hv ha))

end Sys2Proof.Machine
end

