-- ==== Sys2Proof/Machine/Permute.lean ====
section
/-!
DEFINITION. Circular permutation: spec/43_permute.md rules R130, R131.
-/

namespace Sys2Proof.Machine

/-- `rotl128(v, s)` in the number form of R130, with `n = s mod 128`: bit `i` moves to `(i + n) mod 128`. -/
def rotl128 (v : Hv) (s : Nat) : Hv :=
  if s % 128 = 0 then v else (v <<< (s % 128)) ||| (v >>> (128 - s % 128))

/-- `PERM`: `H[hd] <- rotl128(H[hd], uint(i16))`, in place (R131). -/
def execPerm (hd : HReg) (shift : BitVec 16) (s : State) : Host.Outcome State Fault Refusal :=
  command (.perm hd shift) [.hv hd] none s (s.writeHv hd (rotl128 (s.hv hd) shift.toNat))

end Sys2Proof.Machine
end

