-- ==== Sys2Proof/Machine/Dispatch.lean ====
section
/-!
DEFINITION. One arm per command: spec/30_encoding.md rule R76 steps 3 to 5 for a decoded command. Steps 1 and 2, the
discard while `ERR = 1` and decoding, stand in Machine/Window.lean (log 9).
-/

namespace Sys2Proof.Machine

/-- Executes a decoded command on a block that is not faulted. -/
def exec (i : Instr) (s : State) : Host.Outcome State Fault Refusal :=
  match i with
  | .bind hd ha hb => Sys2Proof.Machine.execBind hd ha hb s
  | .or hd ha hb => Sys2Proof.Machine.execOr hd ha hb s
  | .and hd ha hb => Sys2Proof.Machine.execAnd hd ha hb s
  | .bundle hd ha => Sys2Proof.Machine.execBundle hd ha s
  | .popc8 byte => Sys2Proof.Machine.execPopc8 byte s
  | .popc ha => Sys2Proof.Machine.execPopc ha s
  | .hamm ha hb => Sys2Proof.Machine.execHamm ha hb s
  | .sim ha hb => Sys2Proof.Machine.execSim ha hb s
  | .perm hd shift => Sys2Proof.Machine.execPerm hd shift s
  | .clear hd => Sys2Proof.Machine.execClear hd s
  | .fill hd value => Sys2Proof.Machine.execFill hd value s
  | .copy hd ha => Sys2Proof.Machine.execCopy hd ha s
  | .therm hd sv sm => Sys2Proof.Machine.execTherm hd sv sm s
  | .therms hd sv smin smax => Sys2Proof.Machine.execTherms hd sv smin smax s
  | .encch hd sv sm hb => Sys2Proof.Machine.execEncch hd sv sm hb s
  | .sets sd value => Sys2Proof.Machine.execSets sd value s
  | .setb hd idx byte => Sys2Proof.Machine.execSetb hd idx byte s
  | .getb ha idx => Sys2Proof.Machine.execGetb ha idx s

end Sys2Proof.Machine
end

