-- ==== Sys2Proof/Machine/Window.lean ====
section
/-!
DEFINITION. The host window and the host's moves: spec/10_state.md rules R28 to R35, spec/20_memory.md rules R43, R46,
R47, spec/30_encoding.md rule R76, spec/70_reset_and_hazards.md rules R220, R221, R232.
-/

namespace Sys2Proof.Machine

/-- The byte offset of a window register (R33). -/
def WinReg.offset : WinReg → Nat
  | .cmd => 0x00
  | .status => 0x04
  | .res => 0x08
  | .ecause => 0x0C
  | .ecmd => 0x10
  | .config => 0x14
  | .ctrl => 0x18
  | .init => 0x1C

/-- The bus address of a window register: `HOSTBASE` plus its offset (R47). -/
def WinReg.address (r : WinReg) : Nat := Config.hostBase + r.offset

/-- The window register at a byte offset, where the offset is that of one: aligned and below `0x20` (R33, R48). -/
def winRegAt (offset : Nat) : Option WinReg :=
  [WinReg.cmd, .status, .res, .ecause, .ecmd, .config, .ctrl, .init].find? fun r => decide (r.offset = offset)

/-- The window register at a bus address, if the address is that of one (R47). -/
def winRegAtAddress (address : Nat) : Option WinReg :=
  if Config.hostBase ≤ address then winRegAt (address - Config.hostBase) else none

/-- What a read of a window register returns (R33): write-only registers return 0. -/
def State.readWindow (s : State) : WinReg → Word
  | .cmd => 0#32
  | .status => s.statusWord
  | .res => s.res.setWidth 32
  | .ecause => s.ecause.setWidth 32
  | .ecmd => s.ecmd
  | .config => Config.configWord
  | .ctrl => 0#32
  | .init => s.initWord

/-- Byte `j` of a window register on a byte-addressed bus, at address `r.address + j`: little-endian (R43). -/
def State.windowByte (s : State) (r : WinReg) (j : Nat) : Byte := (s.readWindow r).extractLsb' (8 * j) 8

/-- A write of word `w` to `CMD` (R76): discarded while `ERR = 1` (R207), else decoded; an illegal word raises
`ILLEGAL_CMD` (R67, R201); a command executes. -/
def issueCommand (w : Word) (s : State) : Host.Outcome State Fault Refusal :=
  if s.err then .next s
  else
    match decode w with
    | .illegal _ => .next (s.takeFault .illegalCmd w)
    | .command i => exec i s

/-- A write of a window register (R46): `CMD` issues a command, `CTRL` with bit 0 set resets (R35, R221), a write of a
read-only register is ignored. -/
def writeWindow (r : WinReg) (w : Word) (s : State) : Host.Outcome State Fault Refusal :=
  match r with
  | .cmd => issueCommand w s
  | .ctrl => .next (if w.getLsbD 0 then s.blockReset else s)
  | .status | .res | .ecause | .ecmd | .config | .init => .next s

/-- One move of the host (R232). A read changes nothing in the block; the host has seen one value more. -/
def performMove (m : HostMove) (s : State) : Host.Outcome State Fault Refusal :=
  match m with
  | .hardReset => .next s.blockReset
  | .write r w => writeWindow r w s
  | .read r => .next { s with seen := s.seen ++ [s.readWindow r] }

/-- The host's next move is performed, complete before the one after it (R50). With no move pending the block, which
does nothing on its own (R22, R209), stays as it is (log 2). -/
def nextTransaction (s : State) : Host.Outcome State Fault Refusal :=
  match s.host with
  | [] => .next s
  | m :: rest => performMove m { s with host := rest }

/-- The host issues one more move, before those already pending. -/
def State.issue (s : State) (m : HostMove) : State := { s with host := m :: s.host }

end Sys2Proof.Machine
end

