-- ==== Sys2Proof/Machine/Step.lean ====
section
/-!
DEFINITION. One step of the machine is one host transaction (spec/20_memory.md rule R50, spec/70_reset_and_hazards.md
rules R230, R232). The block has no program counter and fetches nothing (spec/10_state.md rule R27).
-/

namespace Sys2Proof.Machine

/-- One step: the host's next pending move. -/
def step (s : State) : Host.Outcome State Fault Refusal := nextTransaction s

/-- The state in which the host's next move is the write of a table row's word to `CMD`: a program comes to run only
because the host issues it (R27, R34; log 15). Nothing else changes. -/
def State.withFetchWord (s : State) (nbits w : Nat) : State := s.issue (.write .cmd (tableWord nbits w))

end Sys2Proof.Machine
end

