-- ==== Sys2Proof/Machine/Pseudo.lean ====
section
/-!
DEFINITION. The pseudo-instructions: spec/30_encoding.md rules R73 to R75. They are no commands of the block; each stands
for the list of commands the host writes.
-/

namespace Sys2Proof

/-- `LDHV` from byte `j` on: one `SETB` a byte (R74). -/
def setBytes (hd : HReg) (bytes : List Byte) : List Instr :=
  (List.finRange 16).zipWith (fun j b => .setb hd j b) bytes

/-- The commands a pseudo-instruction stands for, without its check (R73, R74, R75). `LDHV` is always 17 commands: an
assembler's liberty to omit a zero byte is not taken (log 19). -/
def pseudoCommands : Pseudo → List Instr
  | .encodeChannels hd channels => .clear hd :: channels.map fun c => .encch hd c.sv c.sm c.hb
  | .ldhv hd bytes => .clear hd :: setBytes hd bytes
  | .ones hd => [.fill hd 0xFF#8]

/-- The expansion of a well-formed pseudo-instruction; the assembler rejects the others (R73). -/
def expandPseudo (p : Pseudo) : Option (List Instr) := if p.wf then some (pseudoCommands p) else none

end Sys2Proof
end

