-- ==== Sys2Proof/Machine/Assembler.lean ====
section
/-!
DEFINITION. The assembler syntax of spec/30_encoding.md rule R71: from the characters of one line to the commands it stands
for. Text the rule does not describe is rejected (log 18).
-/

namespace Sys2Proof

/-- The pieces of a line. -/
inductive Tok where
  | word (cs : List Char)
  | comma
  | lpar
  | rpar
deriving DecidableEq, Repr

/-- The word collected so far, last character first, as a token; nothing where there is none. -/
def flushWord (acc : List Char) : List Tok := if acc.isEmpty then [] else [.word acc.reverse]

/-- Splits a line into its pieces; a `;` starts a comment (R71). -/
def lexLine (acc : List Char) : List Char → List Tok
  | [] => flushWord acc
  | c :: cs =>
    if c = ';' then flushWord acc
    else if c = ' ' ∨ c = '\t' then flushWord acc ++ lexLine [] cs
    else if c = ',' then flushWord acc ++ .comma :: lexLine [] cs
    else if c = '(' then flushWord acc ++ .lpar :: lexLine [] cs
    else if c = ')' then flushWord acc ++ .rpar :: lexLine [] cs
    else lexLine (c :: acc) cs

/-- The value of a hexadecimal digit. -/
def digitVal (c : Char) : Option Nat :=
  let n := c.toNat
  if 48 ≤ n ∧ n ≤ 57 then some (n - 48)
  else if 97 ≤ n ∧ n ≤ 102 then some (n - 87)
  else if 65 ≤ n ∧ n ≤ 70 then some (n - 55)
  else none

/-- A number in a base, most significant digit first, continuing from `acc`. -/
def digitsVal (base acc : Nat) : List Char → Option Nat
  | [] => some acc
  | c :: cs =>
    match digitVal c with
    | some d => if d < base then digitsVal base (acc * base + d) cs else none
    | none => none

/-- A non-empty number in a base. -/
def numberIn (base : Nat) (cs : List Char) : Option Nat := if cs.isEmpty then none else digitsVal base 0 cs

/-- The number after `h` or `s`, with no leading zero: `h0`..`h15`, `s0`..`s15` (R71). -/
def regNumber : List Char → Option Nat
  | ['0'] => some 0
  | '0' :: _ => none
  | cs => numberIn 10 cs

/-- A word in operand position: a register, or an immediate in decimal or `0x` hexadecimal, a negative one in decimal
(R71). -/
def argOfWord : List Char → Option Arg
  | 'h' :: cs => (regNumber cs).map .h
  | 's' :: cs => (regNumber cs).map .s
  | '-' :: cs => (numberIn 10 cs).bind fun n => if n = 0 then none else some (.num (-(n : Int)))
  | '0' :: 'x' :: cs => (numberIn 16 cs).map fun n => .num (n : Int)
  | cs => (numberIn 10 cs).map fun n => .num (n : Int)

/-- A channel operand `(s, h)` (R73). -/
def pairOf (v b : List Char) : Option Arg :=
  match argOfWord v, argOfWord b with
  | some (.s sv), some (.h hb) => some (.pair sv hb)
  | _, _ => none

/-- A channel operand `(s, s, h)` (R73). -/
def tripleOf (v m b : List Char) : Option Arg :=
  match argOfWord v, argOfWord m, argOfWord b with
  | some (.s sv), some (.s sm), some (.h hb) => some (.triple sv sm hb)
  | _, _, _ => none

/-- One or more operands separated by commas (R71). -/
def parseArgs : List Tok → Option (List Arg)
  | [.word w] => (argOfWord w).map fun a => [a]
  | .word w :: .comma :: rest => (argOfWord w).bind fun a => (parseArgs rest).map fun as => a :: as
  | [.lpar, .word v, .comma, .word b, .rpar] => (pairOf v b).map fun a => [a]
  | .lpar :: .word v :: .comma :: .word b :: .rpar :: .comma :: rest =>
    (pairOf v b).bind fun a => (parseArgs rest).map fun as => a :: as
  | [.lpar, .word v, .comma, .word m, .comma, .word b, .rpar] => (tripleOf v m b).map fun a => [a]
  | .lpar :: .word v :: .comma :: .word m :: .comma :: .word b :: .rpar :: .comma :: rest =>
    (tripleOf v m b).bind fun a => (parseArgs rest).map fun as => a :: as
  | _ => none

/-- The mnemonics, in lower case (R71, R73 to R75). -/
def mnemonicNames : List (List Char × Mnemonic) :=
  [(['b', 'i', 'n', 'd'], .bind), (['o', 'r'], .or), (['a', 'n', 'd'], .and), (['b', 'u', 'n', 'd', 'l', 'e'], .bundle),
   (['p', 'o', 'p', 'c', '8'], .popc8), (['p', 'o', 'p', 'c'], .popc), (['h', 'a', 'm', 'm'], .hamm),
   (['s', 'i', 'm'], .sim), (['p', 'e', 'r', 'm'], .perm), (['c', 'l', 'e', 'a', 'r'], .clear),
   (['f', 'i', 'l', 'l'], .fill), (['c', 'o', 'p', 'y'], .copy), (['t', 'h', 'e', 'r', 'm'], .therm),
   (['t', 'h', 'e', 'r', 'm', 's'], .therms), (['e', 'n', 'c', 'c', 'h'], .encch), (['s', 'e', 't', 's'], .sets),
   (['s', 'e', 't', 'b'], .setb), (['g', 'e', 't', 'b'], .getb), (['l', 'd', 'h', 'v'], .ldhv), (['o', 'n', 'e', 's'], .ones),
   (['e', 'n', 'c', 'o', 'd', 'e', '_', 'c', 'h', 'a', 'n', 'n', 'e', 'l', 's'], .encodeChannels)]

/-- A letter in upper case; any other character as it is. -/
def upperChar (c : Char) : Char := if 97 ≤ c.toNat ∧ c.toNat ≤ 122 then Char.ofNat (c.toNat - 32) else c

/-- The mnemonic a word spells, all in lower or all in upper case (R71). -/
def mnemonicOf (w : List Char) : Option Mnemonic :=
  (mnemonicNames.find? fun p => decide (w = p.1 ∨ w = p.1.map upperChar)).map (·.2)

/-- The register of a number already known to be in range. -/
def regOfNat (n : Nat) : Fin 16 := ⟨n % 16, Nat.mod_lt n (by decide)⟩

/-- A channel under the bound `sm` of the line, or under its own (R73). -/
def channelOf (sm : Nat) : Arg → Option Channel
  | .pair sv hb => some ⟨regOfNat sv, regOfNat sm, regOfNat hb⟩
  | .triple sv m hb => some ⟨regOfNat sv, regOfNat m, regOfNat hb⟩
  | _ => none

/-- The bytes of an `LDHV` line (R74). -/
def byteOf : Arg → Option Byte
  | .num n => some (BitVec.ofInt 8 n)
  | _ => none

/-- The commands of a line whose operands are already known to fit; for `SETS` a negative `-n` stands for the pattern
`65536 - n` (R71). -/
def lineCommands (l : SourceLine) : Option (List Instr) :=
  match l.op, l.args with
  | .bind, [.h d, .h a, .h b] => some [.bind (regOfNat d) (regOfNat a) (regOfNat b)]
  | .or, [.h d, .h a, .h b] => some [.or (regOfNat d) (regOfNat a) (regOfNat b)]
  | .and, [.h d, .h a, .h b] => some [.and (regOfNat d) (regOfNat a) (regOfNat b)]
  | .bundle, [.h d, .h a] => some [.bundle (regOfNat d) (regOfNat a)]
  | .popc8, [.num n] => some [.popc8 (BitVec.ofInt 8 n)]
  | .popc, [.h a] => some [.popc (regOfNat a)]
  | .hamm, [.h a, .h b] => some [.hamm (regOfNat a) (regOfNat b)]
  | .sim, [.h a, .h b] => some [.sim (regOfNat a) (regOfNat b)]
  | .perm, [.h d, .num n] => some [.perm (regOfNat d) (BitVec.ofInt 16 n)]
  | .clear, [.h d] => some [.clear (regOfNat d)]
  | .fill, [.h d, .num n] => some [.fill (regOfNat d) (BitVec.ofInt 8 n)]
  | .copy, [.h d, .h a] => some [.copy (regOfNat d) (regOfNat a)]
  | .therm, [.h d, .s v, .s m] => some [.therm (regOfNat d) (regOfNat v) (regOfNat m)]
  | .therms, [.h d, .s v, .s lo, .s hi] => some [.therms (regOfNat d) (regOfNat v) (regOfNat lo) (regOfNat hi)]
  | .encch, [.h d, .s v, .s m, .h b] => some [.encch (regOfNat d) (regOfNat v) (regOfNat m) (regOfNat b)]
  | .sets, [.s d, .num n] => some [.sets (regOfNat d) (BitVec.ofInt 16 n)]
  | .setb, [.h d, .num i, .num n] => some [.setb (regOfNat d) (regOfNat i.toNat) (BitVec.ofInt 8 n)]
  | .getb, [.h a, .num i] => some [.getb (regOfNat a) (regOfNat i.toNat)]
  | .ones, [.h d] => expandPseudo (.ones (regOfNat d))
  | .ldhv, .h d :: bytes => (bytes.mapM byteOf).bind fun bs => expandPseudo (.ldhv (regOfNat d) bs)
  | .encodeChannels, .h d :: .s m :: chans =>
    (chans.mapM (channelOf m)).bind fun cs => expandPseudo (.encodeChannels (regOfNat d) cs)
  | .encodeChannels, .h d :: chans =>
    (chans.mapM (channelOf 0)).bind fun cs => expandPseudo (.encodeChannels (regOfNat d) cs)
  | _, _ => none

/-- The commands of a well-formed line (R71). -/
def assemble (l : SourceLine) : Option (List Instr) := if l.wf then lineCommands l else none

/-- The commands of one line of text; a line with nothing but a comment stands for none (R71). -/
def assembleLine (cs : List Char) : Option (List Instr) :=
  match lexLine [] cs with
  | [] => some []
  | [.word w] => (mnemonicOf w).bind fun op => assemble ⟨op, []⟩
  | .word w :: toks => (mnemonicOf w).bind fun op => (parseArgs toks).bind fun args => assemble ⟨op, args⟩
  | _ => none

end Sys2Proof
end

