-- ==== Sys2Proof/Safety.lean ====
section
/-!
DEFINITION. The terms in which claims about the machine are stated: good states, the invariant, what a command leaves
unchanged, what a command reads and names as its destination, runs of host moves, and what two states must agree on to be
indistinguishable.
-/

namespace Sys2Proof.Machine

/-! ### Good states and the invariant -/

/-- "The run is *good* iff `ERR = 0` at the end" (R231). -/
def State.good (s : State) : Prop := s.err = false

/-- What every reachable state meets: `HVMEM` in canonical form and inside its 256 bytes (R40); `ECAUSE` and `ECMD` are 0
while `ERR = 0` (R29, R30); while `ERR = 1` the cause is one of the six codes (R200), and the latched word is an illegal
one exactly when the cause says so (R30, R201). -/
structure State.Inv (s : State) : Prop where
  mem : Memory.wf s.hvmem = true
  quiet : s.err = false → s.ecause = 0#8 ∧ s.ecmd = 0#32
  cause : s.err = true → 1 ≤ s.ecause.toNat ∧ s.ecause.toNat ≤ 6
  legal : s.err = true → (s.ecause = 1#8 ↔ (decode s.ecmd).instr? = none)

/-- The state after `raise Fault(c)` for the word `w`: the state before with `ERR`, `ECAUSE`, `ECMD` changed (R206). -/
def faulted (code : Byte) (w : Word) (s : State) : State := { s with err := true, ecause := code, ecmd := w }

/-- Two states whose architectural part (R20) is the same. -/
structure SameBlock (s t : State) : Prop where
  hvmem : t.hvmem = s.hvmem
  hinit : t.hinit = s.hinit
  scalars : t.scalars = s.scalars
  sinit : t.sinit = s.sinit
  res : t.res = s.res
  err : t.err = s.err
  ecause : t.ecause = s.ecause
  ecmd : t.ecmd = s.ecmd

/-! ### Frames -/

/-- `t` is `s` but for hypervector register `k`: `H[k]` may differ, `HINIT[k]` is 1; every byte of `HVMEM` outside the 16
bytes of `H[k]`, every other register and flag, `RES`, the fault registers and the host's side are as in `s`. -/
structure OnlyHvChanged (k : HReg) (s t : State) : Prop where
  init : t.hvInit k = true
  memory : ∀ a, (a < hvAddr k ∨ hvAddr k + 16 ≤ a) → t.memRead a = s.memRead a
  others : ∀ j, j ≠ k → t.hv j = s.hv j ∧ t.hvInit j = s.hvInit j
  scalars : t.scalars = s.scalars
  sinit : t.sinit = s.sinit
  res : t.res = s.res
  err : t.err = s.err
  ecause : t.ecause = s.ecause
  ecmd : t.ecmd = s.ecmd
  host : t.host = s.host
  seen : t.seen = s.seen

/-- `t` is `s` but for the byte at address `a` of `HVMEM`. -/
structure OnlyByteChanged (a : Nat) (s t : State) : Prop where
  memory : ∀ x, x ≠ a → t.memRead x = s.memRead x
  hinit : t.hinit = s.hinit
  scalars : t.scalars = s.scalars
  sinit : t.sinit = s.sinit
  res : t.res = s.res
  err : t.err = s.err
  ecause : t.ecause = s.ecause
  ecmd : t.ecmd = s.ecmd
  host : t.host = s.host
  seen : t.seen = s.seen

/-- `t` is `s` but for scalar register `k`: `S[k]` may differ, `SINIT[k]` is 1. -/
structure OnlyScalarChanged (k : SReg) (s t : State) : Prop where
  init : t.scalarInit k = true
  others : ∀ j, j ≠ k → t.scalar j = s.scalar j ∧ t.scalarInit j = s.scalarInit j
  hvmem : t.hvmem = s.hvmem
  hinit : t.hinit = s.hinit
  res : t.res = s.res
  err : t.err = s.err
  ecause : t.ecause = s.ecause
  ecmd : t.ecmd = s.ecmd
  host : t.host = s.host
  seen : t.seen = s.seen

/-! ### What a command reads, checks and names as destination -/

/-- The registers a command reads, in check order: the lists of R202 and R203, by field position (R208). -/
def readsOf : Instr → List RegRead
  | .bind _ ha hb | .or _ ha hb | .and _ ha hb => [.hv ha, .hv hb]
  | .bundle hd ha => [.hv hd, .hv ha]
  | .popc8 _ => []
  | .popc ha => [.hv ha]
  | .hamm ha hb | .sim ha hb => [.hv ha, .hv hb]
  | .perm hd _ => [.hv hd]
  | .clear _ | .fill _ _ => []
  | .copy _ ha => [.hv ha]
  | .therm _ sv sm => [.scalar sv, .scalar sm]
  | .therms _ sv smin smax => [.scalar sv, .scalar smin, .scalar smax]
  | .encch hd sv sm hb => [.hv hd, .scalar sv, .scalar sm, .hv hb]
  | .sets _ _ => []
  | .setb hd _ _ => [.hv hd]
  | .getb ha _ => [.hv ha]

/-- The code of the value check that fails, if one does (R76 step 4): "only `THERM`, `THERMS` and `ENCCH` have any". -/
def valueFaultOf (i : Instr) (s : State) : Option Byte :=
  match i with
  | .therm _ _ sm | .encch _ _ sm _ => if (s.scalar sm).toNat = 0 then some 4#8 else none
  | .therms _ sv smin smax =>
    if sint16 (s.scalar smax) - sint16 (s.scalar smin) ≤ 0 then some 5#8
    else if sint16 (s.scalar sv) < sint16 (s.scalar smin) then some 6#8
    else none
  | .bind _ _ _ | .or _ _ _ | .and _ _ _ | .bundle _ _ | .popc8 _ | .popc _ | .hamm _ _ | .sim _ _ | .perm _ _
  | .clear _ | .fill _ _ | .copy _ _ | .sets _ _ | .setb _ _ _ | .getb _ _ => none

/-- The code of the first fault a decoded command meets, if any: initialisation checks in order, then the value check
(R76, R208). -/
def firstFaultOf (i : Instr) (s : State) : Option Byte :=
  match (readsOf i).find? (fun r => !r.ready s) with
  | some (.hv _) => some 2#8
  | some (.scalar _) => some 3#8
  | none => valueFaultOf i s

/-- The hypervector register a command writes (R65: field `hd`), where it has one. -/
def destHvOf : Instr → Option HReg
  | .bind hd _ _ | .or hd _ _ | .and hd _ _ | .bundle hd _ | .perm hd _ | .clear hd | .fill hd _ | .copy hd _
  | .therm hd _ _ | .therms hd _ _ _ | .encch hd _ _ _ | .setb hd _ _ => some hd
  | .popc8 _ | .popc _ | .hamm _ _ | .sim _ _ | .sets _ _ | .getb _ _ => none

/-- The scalar register a command writes: only `SETS` writes one (R24). -/
def destScalarOf : Instr → Option SReg
  | .sets sd _ => some sd
  | .bind _ _ _ | .or _ _ _ | .and _ _ _ | .bundle _ _ | .popc8 _ | .popc _ | .hamm _ _ | .sim _ _ | .perm _ _
  | .clear _ | .fill _ _ | .copy _ _ | .therm _ _ _ | .therms _ _ _ _ | .encch _ _ _ _ | .setb _ _ _ | .getb _ _ => none

/-- Whether a command writes `RES`: `POPC8`, `POPC`, `HAMM`, `SIM` and `GETB` do (R26). -/
def writesRes : Instr → Bool
  | .popc8 _ | .popc _ | .hamm _ _ | .sim _ _ | .getb _ _ => true
  | .bind _ _ _ | .or _ _ _ | .and _ _ _ | .bundle _ _ | .perm _ _ | .clear _ | .fill _ _ | .copy _ _ | .therm _ _ _
  | .therms _ _ _ _ | .encch _ _ _ _ | .sets _ _ | .setb _ _ _ => false

/-- Whether a move resets the block: hard reset, or a write of `CTRL` with bit 0 set (R220, R221). -/
def HostMove.resets : HostMove → Bool
  | .hardReset => true
  | .write .ctrl w => w.getLsbD 0
  | .write _ _ | .read _ => false

/-! ### The opcode table as the spec prints it -/

/-- Bits [lo+n-1:lo] of a word as a number (R8, R61). -/
def bitsOf (w : Word) (lo n : Nat) : Nat := w.toNat / 2 ^ lo % 2 ^ n

/-- The register number in the 4-bit field from bit `lo` up (R61, R63). -/
def regField (w : Word) (lo : Nat) : Fin 16 := ⟨bitsOf w lo 4, Nat.mod_lt _ (by decide)⟩

/-- The `i8` field as a pattern (R61, R64). -/
def imm8Field (w : Word) : Byte := BitVec.ofNat 8 (bitsOf w 0 8)

/-- The `i16` field as a pattern (R61, R64). -/
def imm16Field (w : Word) : BitVec 16 := BitVec.ofNat 16 (bitsOf w 0 16)

/-- A row of R65: `match`, `mask`, and the command with "the fields read at the positions of rule R61" (R66). -/
structure SpecRow where
  mtch : Word
  mask : Word
  build : Word → Instr

/-- The 18 rows of R65, numbers copied from its table. -/
def specRows : List SpecRow :=
  [⟨0x10000000#32, 0xFF000FFF#32, fun w => .bind (regField w 20) (regField w 16) (regField w 12)⟩,
   ⟨0x11000000#32, 0xFF000FFF#32, fun w => .or (regField w 20) (regField w 16) (regField w 12)⟩,
   ⟨0x12000000#32, 0xFF000FFF#32, fun w => .and (regField w 20) (regField w 16) (regField w 12)⟩,
   ⟨0x13000000#32, 0xFF00FFFF#32, fun w => .bundle (regField w 20) (regField w 16)⟩,
   ⟨0x20000000#32, 0xFFFFFF00#32, fun w => .popc8 (imm8Field w)⟩,
   ⟨0x21000000#32, 0xFF0FFFFF#32, fun w => .popc (regField w 20)⟩,
   ⟨0x22000000#32, 0xFF00FFFF#32, fun w => .hamm (regField w 20) (regField w 16)⟩,
   ⟨0x23000000#32, 0xFF00FFFF#32, fun w => .sim (regField w 20) (regField w 16)⟩,
   ⟨0x30000000#32, 0xFF0F0000#32, fun w => .perm (regField w 20) (imm16Field w)⟩,
   ⟨0x31000000#32, 0xFF0FFFFF#32, fun w => .clear (regField w 20)⟩,
   ⟨0x32000000#32, 0xFF0FFF00#32, fun w => .fill (regField w 20) (imm8Field w)⟩,
   ⟨0x33000000#32, 0xFF00FFFF#32, fun w => .copy (regField w 20) (regField w 16)⟩,
   ⟨0x40000000#32, 0xFF000FFF#32, fun w => .therm (regField w 20) (regField w 16) (regField w 12)⟩,
   ⟨0x41000000#32, 0xFF0000FF#32, fun w => .therms (regField w 20) (regField w 16) (regField w 12) (regField w 8)⟩,
   ⟨0x42000000#32, 0xFF0000FF#32, fun w => .encch (regField w 20) (regField w 16) (regField w 12) (regField w 8)⟩,
   ⟨0x50000000#32, 0xFF0F0000#32, fun w => .sets (regField w 20) (imm16Field w)⟩,
   ⟨0x51000000#32, 0xFF00FF00#32, fun w => .setb (regField w 20) (regField w 16) (imm8Field w)⟩,
   ⟨0x52000000#32, 0xFF00FFFF#32, fun w => .getb (regField w 20) (regField w 16)⟩]

/-- A register number shifted into its field, as the rules write a command's word: `hd << 20`. -/
def regAt (k : Fin 16) (lo : Nat) : Word := BitVec.ofNat 32 k.val <<< lo

/-- Every word with a command's `op` and a reserved bit set raises `ILLEGAL_CMD` when it is written to `CMD` of a block
that is not faulted: the part of a command's rule on reserved bits (R62, R67). -/
def ReservedBitsRejected (mtch mask : Word) : Prop :=
  ∀ (w : Word) (s : State) (rest : List HostMove), w &&& 0xFF000000#32 = mtch → w &&& mask ≠ mtch →
    s.host = .write .cmd w :: rest → s.err = false → step s = .next (faulted 1#8 w { s with host := rest })

/-! ### Values -/

/-- All 16 bytes of a vector are `b`. -/
def EveryByte (v : Hv) (b : Byte) : Prop := ∀ j, j < 16 → hvByte v j = b

/-- The all-ones vector. -/
def onesHv : Hv := BitVec.allOnes 128

/-- The block part of the state after either reset, as R222 gives it: nothing is said of the contents of `H` and `S`. -/
structure State.IsReset (s : State) : Prop where
  hvInit : ∀ k, s.hvInit k = false
  scalarInit : ∀ k, s.scalarInit k = false
  res : s.res = 0x00#8
  err : s.err = false
  ecause : s.ecause = 0x00#8
  ecmd : s.ecmd = 0x00000000#32
  config : s.readWindow .config = 0x01101080#32
  init : s.readWindow .init = 0x00000000#32
  faultO : s.faultO = false

/-- Everything a channel of `ENCODE_CHANNELS` reads besides its accumulator is initialised, and its bound is not 0 (R223). -/
def channelReady (s : State) (c : Channel) : Prop :=
  s.scalarInit c.sv = true ∧ s.scalarInit c.sm = true ∧ s.hvInit c.hb = true ∧ (s.scalar c.sm).toNat ≠ 0

/-- `OR_k ( therm(level(uint(S[sv_k]), uint(S[sm_k]))) ^ H[hb_k] )` (R162). -/
def channelsValue (s : State) (channels : List Channel) : Hv :=
  channels.foldl (fun acc c =>
    acc ||| (therm (level (s.scalar c.sv).toNat (s.scalar c.sm).toNat) ^^^ s.hv c.hb)) 0#128

/-! ### Runs -/

/-- The moves of a list performed one after another, stopping at the first that has no next state. -/
def runMoves (s : State) : List HostMove → Host.Outcome State Fault Refusal
  | [] => .next s
  | m :: ms =>
    match performMove m s with
    | .next t => runMoves t ms
    | .fault f => .fault f
    | .refused r => .refused r

/-- The host writes a list of commands to `CMD`, in order. -/
def issueAll (is : List Instr) : List HostMove := is.map fun i => .write .cmd (encode i)

/-! ### Indistinguishable states -/

/-- Two states that differ at most in what R222 calls unreadable: the contents of registers whose flag is 0. -/
structure AgreeOnReadable (s t : State) : Prop where
  hv : ∀ k, s.hvInit k = true → t.hv k = s.hv k
  scalar : ∀ k, s.scalarInit k = true → t.scalar k = s.scalar k
  hinit : t.hinit = s.hinit
  sinit : t.sinit = s.sinit
  res : t.res = s.res
  err : t.err = s.err
  ecause : t.ecause = s.ecause
  ecmd : t.ecmd = s.ecmd
  host : t.host = s.host
  seen : t.seen = s.seen

end Sys2Proof.Machine
end

