-- ==== Sys2Proof/Certificates/Slice0/Obligations.lean ====
section
/-!
DEFINITION. The statements for the provers, one `def Obligations.<Name> : Prop` each, listed in OBLIGATIONS.json.
-/

open Sys2Proof Sys2Proof.Machine

/-- The words of the spec's decoding table decode to the commands beside them (95_test_vectors.md B9, 30_encoding.md
R61, R65) -/
def Obligations.SpecWordsDecode : Prop :=
  decode 0x10201000#32 = .command (.bind 2 0 1) ∧
  decode 0x10FFF000#32 = .command (.bind 15 15 15) ∧
  decode 0x11ABC000#32 = .command (.or 10 11 12) ∧
  decode 0x12345000#32 = .command (.and 3 4 5) ∧
  decode 0x13650000#32 = .command (.bundle 6 5) ∧
  decode 0x200000FF#32 = .command (.popc8 0xFF#8) ∧
  decode 0x21F00000#32 = .command (.popc 15) ∧
  decode 0x22EF0000#32 = .command (.hamm 14 15) ∧
  decode 0x23010000#32 = .command (.sim 0 1) ∧
  decode 0x3030FFFF#32 = .command (.perm 3 65535#16) ∧
  decode 0x31500000#32 = .command (.clear 5) ∧
  decode 0x32F000FF#32 = .command (.fill 15 0xFF#8) ∧
  decode 0x33720000#32 = .command (.copy 7 2) ∧
  decode 0x40201000#32 = .command (.therm 2 0 1) ∧
  decode 0x41FEDC00#32 = .command (.therms 15 14 13 12) ∧
  decode 0x42ABCD00#32 = .command (.encch 10 11 12 13) ∧
  decode 0x5000FFFF#32 = .command (.sets 0 0xFFFF#16) ∧
  decode 0x51FF00FF#32 = .command (.setb 15 15 0xFF#8) ∧
  decode 0x52FF0000#32 = .command (.getb 15 15)

/-- Decoding the word of any command gives back that command (30_encoding.md R61, R62, R63, R65, R66) -/
def Obligations.DecodeOfEncode : Prop :=
  ∀ i : Instr, decode (encode i) = .command i

/-- A legal word is the encoding of the command it decodes to, so no two words are one command (30_encoding.md R62,
R65, R66) -/
def Obligations.EncodeOfDecode : Prop :=
  ∀ (w : Word) (i : Instr), decode w = .command i → encode i = w

/-- Decoding is the total function of the opcode table (R66) -/
def Obligations.DecodeFollowsOpcodeTable : Prop :=
  (∀ w : Word,
    (∀ row ∈ specRows, w &&& row.mask = row.mtch → decode w = .command (row.build w)) ∧
    ((∀ row ∈ specRows, w &&& 0xFF000000#32 ≠ row.mtch) → decode w = .illegal .unassignedOp) ∧
    ((∃ row ∈ specRows, w &&& 0xFF000000#32 = row.mtch ∧ w &&& row.mask ≠ row.mtch) →
      decode w = .illegal .reservedBit)) ∧
  specRows.length = 18 ∧
  specRows.Pairwise fun r r' => r.mtch ≠ r'.mtch

/-- Every word that is not a command raises ILLEGAL_CMD when written to CMD while ERR = 0 (R67) -/
def Obligations.IllegalWordsFault : Prop :=
  (∀ (w : Word) (s : State) (rest : List HostMove), (∀ row ∈ specRows, w &&& row.mask ≠ row.mtch) →
    s.host = .write .cmd w :: rest → s.err = false → step s = .next (faulted 1#8 w { s with host := rest })) ∧
  ((List.range 256).filter fun o => specRows.all fun row => decide (row.mtch ≠ BitVec.ofNat 32 o <<< 24)).length = 238 ∧
  (∀ row ∈ specRows, 0x00000000#32 &&& row.mask ≠ row.mtch ∧ 0xFFFFFFFF#32 &&& row.mask ≠ row.mtch) ∧
  (∀ w : Word, (∃ row ∈ specRows, decode w = .command (row.build w)) ∨
    ((∀ row ∈ specRows, w &&& row.mask ≠ row.mtch) ∧ ∃ why, decode w = .illegal why))

/-- A step whose move writes a command's word to CMD is exec of that command (30_encoding.md R76, 20_memory.md R50,
10_state.md R34) -/
def Obligations.StepRunsDecodedCommand : Prop :=
  (∀ (s : State) (w : Word) (rest : List HostMove) (i : Instr),
    s.host = .write .cmd w :: rest → s.err = false → decode w = .command i →
      step s = exec i { s with host := rest }) ∧
  (∀ (s : State) (rest : List HostMove) (i : Instr),
    s.host = .write .cmd (encode i) :: rest → s.err = false → step s = exec i { s with host := rest })

/-- With no move pending a step changes nothing (the model's choice, log 2) (10_state.md R22, 70_reset_and_hazards.md
R231, 60_exceptions.md R209) -/
def Obligations.IdleBlockKeepsItsState : Prop :=
  ∀ s : State, s.host = [] → step s = .next s

/-- A write to CMD: discard, decode, initialisation checks in field order, value checks, result (R76, R208) -/
def Obligations.CommandStepOrder : Prop :=
  ∀ (s : State) (w : Word) (rest : List HostMove), s.host = .write .cmd w :: rest →
    (s.err = true → step s = .next { s with host := rest }) ∧
    (s.err = false →
      (∀ why, decode w = .illegal why → step s = .next (faulted 1#8 w { s with host := rest })) ∧
      (∀ i, decode w = .command i →
        (∀ pre k post, readsOf i = pre ++ .hv k :: post → (∀ r ∈ pre, r.ready s = true) → s.hvInit k = false →
          step s = .next (faulted 2#8 w { s with host := rest })) ∧
        (∀ pre k post, readsOf i = pre ++ .scalar k :: post → (∀ r ∈ pre, r.ready s = true) →
          s.scalarInit k = false → step s = .next (faulted 3#8 w { s with host := rest })) ∧
        ((∀ r ∈ readsOf i, r.ready s = true) →
          (∀ c, valueFaultOf i s = some c → step s = .next (faulted c w { s with host := rest })) ∧
          (valueFaultOf i s = none → ∃ t, step s = .next t ∧ t.err = false ∧ t.host = rest))))

/-- Window reads and writes other than CMD: no side effect but CTRL's reset (R46, R35) -/
def Obligations.HostMovesOtherThanCommands : Prop :=
  ∀ (s : State) (rest : List HostMove),
    (∀ r, s.host = .read r :: rest → step s = .next { s with host := rest, seen := s.seen ++ [s.readWindow r] }) ∧
    (∀ r, s.host = .read r :: .read r :: rest → ∃ t, step s = .next t ∧
      step t = .next { s with host := rest, seen := s.seen ++ [s.readWindow r] ++ [s.readWindow r] }) ∧
    (∀ r w, r ≠ .cmd → r ≠ .ctrl → s.host = .write r w :: rest → step s = .next { s with host := rest }) ∧
    (∀ w, w.getLsbD 0 = false → s.host = .write .ctrl w :: rest → step s = .next { s with host := rest }) ∧
    (∀ w, w.getLsbD 0 = true → s.host = .write .ctrl w :: rest →
      ∃ t, step s = .next t ∧ t.IsReset ∧ t.host = rest ∧ t.seen = s.seen) ∧
    s.readWindow .ctrl = 0#32 ∧
    (∀ w, s.host = .write .cmd w :: rest → step s = issueCommand w { s with host := rest })

/-- From any state every host transaction has exactly one successor state (R230) -/
def Obligations.EveryStateHasOneSuccessor : Prop :=
  (∀ s : State, ∃! t, step s = .next t) ∧
  (∀ s : State, ∃ t, Host.Core.run Sys2Proof.core s.host.length s = .next t ∧ t.host = [] ∧
    runMoves { s with host := [] } s.host = .next t)

/-- The state right after reset (R222) -/
def Obligations.ResetStateAsSpecified : Prop :=
  State.reset.IsReset ∧
  ∀ (s : State) (m : HostMove) (rest : List HostMove), m.resets = true → s.host = m :: rest →
    ∃ t, step s = .next t ∧ t.IsReset

/-- A write to CTRL with bit 0 = 1 does exactly what hard reset does, faulted or not (R221) -/
def Obligations.SoftResetEqualsHardReset : Prop :=
  WinReg.ctrl.offset = 0x18 ∧
  (∀ (s : State) (v : Word) (rest : List HostMove), v.getLsbD 0 = true →
    ∃ t u, step { s with host := .write .ctrl v :: rest } = .next t ∧
      step { s with host := .hardReset :: rest } = .next u ∧ AgreeOnReadable t u ∧
      t.IsReset ∧ u.IsReset ∧ t.host = rest ∧ u.host = rest) ∧
  (∀ (s t : State) (m : HostMove) (rest : List HostMove), s.err = true → s.host = m :: rest → step s = .next t →
    t.err = false → m = .hardReset ∨ ∃ v : Word, m = .write .ctrl v ∧ v.getLsbD 0 = true)

/-- The eight window registers: offsets, values read, reset values (R33, R32, R31) -/
def Obligations.WindowReadValues : Prop :=
  (WinReg.cmd.offset = 0x00 ∧ WinReg.status.offset = 0x04 ∧ WinReg.res.offset = 0x08 ∧ WinReg.ecause.offset = 0x0C ∧
    WinReg.ecmd.offset = 0x10 ∧ WinReg.config.offset = 0x14 ∧ WinReg.ctrl.offset = 0x18 ∧ WinReg.init.offset = 0x1C) ∧
  (∀ s : State,
    s.readWindow .cmd = 0#32 ∧ s.readWindow .ctrl = 0#32 ∧
    (s.readWindow .status).toNat = (if s.err then 1 else 0) ∧
    (s.readWindow .res).toNat = s.res.toNat ∧
    (s.readWindow .ecause).toNat = s.ecause.toNat ∧
    s.readWindow .ecmd = s.ecmd ∧
    (s.readWindow .config).toNat = 128 + 16 * 2 ^ 8 + 16 * 2 ^ 16 + 1 * 2 ^ 24 ∧
    s.readWindow .config = 0x01101080#32 ∧
    (∀ k : Fin 16, (s.readWindow .init).getLsbD k.val = s.hvInit k ∧
      (s.readWindow .init).getLsbD (16 + k.val) = s.scalarInit k)) ∧
  (∀ r, State.reset.readWindow r = if r = .config then 0x01101080#32 else 0x00000000#32) ∧
  (∀ (s : State) (r : WinReg) (w : Word) (rest : List HostMove),
    r = .status ∨ r = .res ∨ r = .ecause ∨ r = .ecmd ∨ r = .config ∨ r = .init →
      s.host = .write r w :: rest → step s = .next { s with host := rest })

/-- Where the window lies on the bus, and the order of a register's bytes (20_memory.md R43, R47, R48, 10_state.md R33) -/
def Obligations.WindowAddressesAndByteOrder : Prop :=
  Config.hostBase % 32 = 0 ∧
  (∀ r : WinReg, r.address = Config.hostBase + r.offset ∧ r.address % 4 = 0 ∧ r.address < Config.hostBase + 0x20) ∧
  (∀ (x : Nat) (r : WinReg), winRegAtAddress x = some r ↔ x = r.address) ∧
  (∀ (s : State) (r : WinReg),
    (s.windowByte r 0).toNat + (s.windowByte r 1).toNat * 2 ^ 8 + (s.windowByte r 2).toNat * 2 ^ 16
      + (s.windowByte r 3).toNat * 2 ^ 24 = (s.readWindow r).toNat)

/-- While ERR = 1 every word written to CMD is discarded and window reads work as usual (R207) -/
def Obligations.FaultedBlockDiscardsCommands : Prop :=
  (∀ (s : State) (w : Word) (rest : List HostMove), s.err = true → s.host = .write .cmd w :: rest →
    step s = .next { s with host := rest }) ∧
  (∀ (s : State) (ws : List Word), s.err = true → runMoves s (ws.map fun w => .write .cmd w) = .next s) ∧
  (∀ (s : State) (r : WinReg) (rest : List HostMove), s.err = true → s.host = .read r :: rest →
    step s = .next { s with host := rest, seen := s.seen ++ [s.readWindow r] } ∧ s.readWindow .status = 1#32)

/-- ERR is cleared only by reset, and a faulted block keeps its first fault until then (R210) -/
def Obligations.OnlyResetLeavesTheFaultedState : Prop :=
  (∀ (s t : State) (m : HostMove) (rest : List HostMove), s.err = true → s.host = m :: rest → step s = .next t →
    (m.resets = false → SameBlock s t) ∧ (m.resets = true → t.IsReset)) ∧
  (∀ (s : State) (ms : List HostMove), s.err = true → (∀ m ∈ ms, m.resets = false) →
    ∃ t, runMoves s ms = .next t ∧ SameBlock s t)

/-- A faulting command changes ERR, ECAUSE and ECMD and nothing else (R206) -/
def Obligations.FaultsArePrecise : Prop :=
  ∀ (s t : State) (w : Word) (rest : List HostMove), s.host = .write .cmd w :: rest → s.err = false →
    step s = .next t → t.err = true →
      ∃ c : Byte, 1 ≤ c.toNat ∧ c.toNat ≤ 6 ∧
        t = { s with host := rest, err := true, ecause := c, ecmd := w } ∧ t.faultO = true

/-- Which command raises which cause, and when (60_exceptions.md R200, R202, R203, R204, R205, R214) -/
def Obligations.CausesAsListed : Prop :=
  (∀ (i : Instr) (s t : State), s.err = false → exec i s = .next t → t.err = true →
    t.ecmd = encode i ∧
    ((t.ecause = 2#8 ∧ ∃ k, RegRead.hv k ∈ readsOf i ∧ s.hvInit k = false) ∨
     (t.ecause = 3#8 ∧ ∃ k, RegRead.scalar k ∈ readsOf i ∧ s.scalarInit k = false) ∨
     (t.ecause = 4#8 ∧ ((∃ hd sv sm, i = .therm hd sv sm ∧ (s.scalar sm).toNat = 0) ∨
        ∃ hd sv sm hb, i = .encch hd sv sm hb ∧ (s.scalar sm).toNat = 0)) ∨
     (t.ecause = 5#8 ∧ ∃ hd sv lo hi, i = .therms hd sv lo hi ∧ sint16 (s.scalar hi) - sint16 (s.scalar lo) ≤ 0) ∨
     (t.ecause = 6#8 ∧ ∃ hd sv lo hi, i = .therms hd sv lo hi ∧ sint16 (s.scalar sv) < sint16 (s.scalar lo)))) ∧
  (∀ (s : State) (i : Instr), ((∃ b, i = .popc8 b) ∨ (∃ hd, i = .clear hd) ∨ (∃ hd v, i = .fill hd v) ∨
    ∃ sd v, i = .sets sd v) → ∃ t, exec i s = .next t ∧ t.err = s.err)

/-- The contents of uninitialised registers cannot influence any run (70_reset_and_hazards.md R222, R229,
93_implementation_defined.md U6) -/
def Obligations.UnreadableContentsMatterNowhere : Prop :=
  (∀ s t s' : State, AgreeOnReadable s t → step s = .next s' → ∃ t', step t = .next t' ∧ AgreeOnReadable s' t') ∧
  (∀ (n : Nat) (s t s' : State), AgreeOnReadable s t → Host.Core.run Sys2Proof.core n s = .next s' →
    ∃ t', Host.Core.run Sys2Proof.core n t = .next t' ∧ AgreeOnReadable s' t')

/-- Every step keeps the store canonical and the fault registers consistent (20_memory.md R40, R41, 10_state.md R29,
R30, 60_exceptions.md R200, R206) -/
def Obligations.InvariantKeptByEveryStep : Prop :=
  ∀ s t : State, s.Inv → step s = .next t → t.Inv

/-- The invariant holds right after reset (70_reset_and_hazards.md R222) -/
def Obligations.InvariantAtReset : Prop :=
  State.reset.Inv

/-- A hypervector register changes only by a command that writes it (R22) -/
def Obligations.RegistersKeepTheirValues : Prop :=
  (∀ (s t : State) (k : HReg), step s = .next t → (t.hv k ≠ s.hv k ∨ t.hvInit k ≠ s.hvInit k) →
    ∃ m rest, s.host = m :: rest ∧ (m.resets = true ∨
      ∃ w i, m = .write .cmd w ∧ s.err = false ∧ decode w = .command i ∧ destHvOf i = some k ∧
        firstFaultOf i s = none)) ∧
  (∀ (s : State) (k : HReg) (ms : List HostMove),
    (∀ m ∈ ms, m.resets = false ∧ ∀ w i, m = .write .cmd w → decode w = .command i → destHvOf i ≠ some k) →
      ∃ t, runMoves s ms = .next t ∧ t.hv k = s.hv k ∧ t.hvInit k = s.hvInit k)

/-- HINIT and SINIT flags: set by the command that writes the register, cleared only by reset (10_state.md R23, R25,
70_reset_and_hazards.md R222) -/
def Obligations.InitFlagsRiseOnWriteAndFallOnReset : Prop :=
  ∀ (s t : State) (m : HostMove) (rest : List HostMove) (k : Fin 16), s.host = m :: rest → step s = .next t →
    (m.resets = true → t.hvInit k = false ∧ t.scalarInit k = false) ∧
    (m.resets = false →
      (t.hvInit k = true ↔ s.hvInit k = true ∨ ∃ w i, m = .write .cmd w ∧ s.err = false ∧ decode w = .command i ∧
        destHvOf i = some k ∧ firstFaultOf i s = none) ∧
      (t.scalarInit k = true ↔ s.scalarInit k = true ∨ ∃ w i, m = .write .cmd w ∧ s.err = false ∧
        decode w = .command i ∧ destScalarOf i = some k))

/-- RES changes only by POPC8, POPC, HAMM, SIM, GETB and reset (R26) -/
def Obligations.ResWrittenOnlyByResultCommands : Prop :=
  (∀ (s t : State), step s = .next t → t.res ≠ s.res →
    ∃ m rest, s.host = m :: rest ∧ (m.resets = true ∨
      ∃ w i, m = .write .cmd w ∧ s.err = false ∧ decode w = .command i ∧ writesRes i = true ∧
        firstFaultOf i s = none)) ∧
  (∀ (s : State) (m : HostMove) (rest : List HostMove), m.resets = true → s.host = m :: rest →
    ∃ t, step s = .next t ∧ t.res = 0x00#8) ∧
  (∀ (i : Instr) (s t : State), (∀ ha idx, i ≠ .getb ha idx) → writesRes i = true → firstFaultOf i s = none →
    exec i s = .next t → t.res.toNat ≤ 128) ∧
  State.reset.res = 0x00#8 ∧
  WinReg.res.offset = 0x08 ∧ (∀ s : State, s.readWindow .res = s.res.setWidth 32)

/-- A scalar register changes only by a SETS that names it, or by reset (10_state.md R24, R25) -/
def Obligations.ScalarsWrittenOnlyBySets : Prop :=
  ∀ (s t : State) (k : SReg), step s = .next t → (t.scalar k ≠ s.scalar k ∨ t.scalarInit k ≠ s.scalarInit k) →
    ∃ m rest, s.host = m :: rest ∧ (m.resets = true ∨
      ∃ w v, m = .write .cmd w ∧ s.err = false ∧ decode w = .command (.sets k v) ∧ t.scalar k = v)

/-- Byte j of H[k] is at address 16*k + j of the hypervector store (R41) -/
def Obligations.StoreLayout : Prop :=
  ∀ (s : State) (k : HReg) (j : Nat), j < 16 →
    s.memRead (16 * k.val + j) = hvByte (s.hv k) j ∧
    (∀ v : Byte, hvByte ((s.memWrite (16 * k.val + j) v).hv k) j = v ∧
      (∀ i, i < 16 → i ≠ j → hvByte ((s.memWrite (16 * k.val + j) v).hv k) i = hvByte (s.hv k) i) ∧
      (∀ l, l ≠ k → (s.memWrite (16 * k.val + j) v).hv l = s.hv l) ∧
      OnlyByteChanged (16 * k.val + j) s (s.memWrite (16 * k.val + j) v)) ∧
    (s.hv k).toNat = ∑ i ∈ Finset.range 16, (s.memRead (16 * k.val + i)).toNat * 2 ^ (8 * i) ∧
    (∀ v : Hv, (s.writeHv k v).memRead (16 * k.val + j) = hvByte v j ∧ (s.writeHv k v).hv k = v ∧
      ∀ x, (x < 16 * k.val ∨ 16 * k.val + 16 ≤ x) → (s.writeHv k v).memRead x = s.memRead x)

/-- Bit i of a hypervector is bit i mod 8 of its byte i div 8 (R42) -/
def Obligations.BitOrderInTheStore : Prop :=
  (∀ (s : State) (k : HReg) (i : Nat), i < 128 →
    (s.hv k).getLsbD i = (s.memRead (16 * k.val + i / 8)).getLsbD (i % 8)) ∧
  (∀ v : Hv, v.getLsbD 0 = (hvByte v 0 &&& 0x01#8 != 0#8) ∧ v.getLsbD 7 = (hvByte v 0 &&& 0x80#8 != 0#8) ∧
    v.getLsbD 8 = (hvByte v 1 &&& 0x01#8 != 0#8) ∧ v.getLsbD 127 = (hvByte v 15 &&& 0x80#8 != 0#8)) ∧
  (∀ (s : State) (k : HReg) (v : Hv) (idx : ByteIdx),
    ∃ t, exec (.getb k idx) (s.writeHv k v) = .next t ∧ ∀ b, b < 8 → t.res.getLsbD b = v.getLsbD (8 * idx.val + b)) ∧
  (∀ (s : State) (k : HReg) (idx : ByteIdx) (byte : Byte), s.hvInit k = true →
    ∃ t, exec (.setb k idx byte) s = .next t ∧ ∀ i, i < 128 →
      (t.hv k).getLsbD i = if i / 8 = idx.val then byte.getLsbD (i % 8) else (s.hv k).getLsbD i)

/-- POPC8: the number of 1 bits of the immediate byte into RES (R100) -/
def Obligations.PopcountOfAByte : Prop :=
  ReservedBitsRejected 0x20000000#32 0xFFFFFF00#32 ∧
  (∀ (b : Byte) (s : State),
    encode (.popc8 b) = 0x20000000#32 ||| b.setWidth 32 ∧
    popcount8 b = ∑ t ∈ Finset.range 8, ((b >>> t) &&& 1#8).toNat ∧ popcount8 b ≤ 8 ∧
    ∃ t, exec (.popc8 b) s = .next t ∧ t.res.toNat = popcount8 b ∧ t = { s with res := t.res }) ∧
  popcount8 0x00#8 = 0 ∧ popcount8 0xFF#8 = 8 ∧ (∀ t, t < 8 → popcount8 (BitVec.twoPow 8 t) = 1) ∧
  encode (.popc8 0xA5#8) = 0x200000A5#32 ∧ popcount8 0xA5#8 = 4

/-- POPC: the number of 1 bits of a hypervector into RES (R101) -/
def Obligations.PopcountOfAVector : Prop :=
  ReservedBitsRejected 0x21000000#32 0xFF0FFFFF#32 ∧
  (∀ (ha : HReg) (s : State),
    encode (.popc ha) = 0x21000000#32 ||| regAt ha 20 ∧
    (s.hvInit ha = false → exec (.popc ha) s = .next (faulted 2#8 (encode (.popc ha)) s)) ∧
    (s.hvInit ha = true → ∃ t, exec (.popc ha) s = .next t ∧ t = { s with res := t.res } ∧
      t.res.toNat = (∑ j ∈ Finset.range 16, popcount8 (hvByte (s.hv ha) j)) ∧
      t.res.toNat = (∑ i ∈ Finset.range 128, ((s.hv ha).getLsbD i).toNat) ∧ t.res.toNat ≤ 128 ∧
      (s.hv ha = 0#128 → t.res = 0#8) ∧ (s.hv ha = onesHv → t.res = 0x80#8) ∧
      (hvByte (s.hv ha) 0 = 0xF0#8 → hvByte (s.hv ha) 1 = 0x0F#8 →
        (∀ j, 2 ≤ j → j < 16 → hvByte (s.hv ha) j = 0#8) → t.res = 8#8))) ∧
  (∀ (v : Hv) (n : Nat), popcount (rotl128 v n) = popcount v) ∧
  encode (.popc 1) = 0x21100000#32

/-- BIND: H[hd] <- H[ha] ^ H[hb] (R110) -/
def Obligations.BindIsXor : Prop :=
  ReservedBitsRejected 0x10000000#32 0xFF000FFF#32 ∧
  (∀ (hd ha hb : HReg) (s : State),
    encode (.bind hd ha hb) = 0x10000000#32 ||| regAt hd 20 ||| regAt ha 16 ||| regAt hb 12 ∧
    (s.hvInit ha = false → exec (.bind hd ha hb) s = .next (faulted 2#8 (encode (.bind hd ha hb)) s)) ∧
    (s.hvInit ha = true → s.hvInit hb = false →
      exec (.bind hd ha hb) s = .next (faulted 2#8 (encode (.bind hd ha hb)) s)) ∧
    (s.hvInit ha = true → s.hvInit hb = true → ∃ t, exec (.bind hd ha hb) s = .next t ∧
      OnlyHvChanged hd s t ∧ t.hv hd = s.hv ha ^^^ s.hv hb ∧
      (∀ i, i < 128 → (t.hv hd).getLsbD i = (((s.hv ha).getLsbD i) ^^ ((s.hv hb).getLsbD i))) ∧
      (ha = hb → t.hv hd = 0#128) ∧
      (s.hv hb = 0#128 → t.hv hd = s.hv ha) ∧
      (s.hv hb = onesHv → t.hv hd = ~~~(s.hv ha)) ∧
      (hd ≠ hb → ∃ u, exec (.bind hd hd hb) t = .next u ∧ u.hv hd = s.hv ha) ∧
      (EveryByte (s.hv ha) 0xF0#8 → EveryByte (s.hv hb) 0x3C#8 → EveryByte (t.hv hd) 0xCC#8))) ∧
  encode (.bind 2 0 1) = 0x10201000#32

/-- OR: H[hd] <- H[ha] | H[hb] (R111) -/
def Obligations.OrIsUnion : Prop :=
  ReservedBitsRejected 0x11000000#32 0xFF000FFF#32 ∧
  (∀ (hd ha hb : HReg) (s : State),
    encode (.or hd ha hb) = 0x11000000#32 ||| regAt hd 20 ||| regAt ha 16 ||| regAt hb 12 ∧
    (s.hvInit ha = false → exec (.or hd ha hb) s = .next (faulted 2#8 (encode (.or hd ha hb)) s)) ∧
    (s.hvInit ha = true → s.hvInit hb = false →
      exec (.or hd ha hb) s = .next (faulted 2#8 (encode (.or hd ha hb)) s)) ∧
    (s.hvInit ha = true → s.hvInit hb = true → ∃ t, exec (.or hd ha hb) s = .next t ∧
      OnlyHvChanged hd s t ∧ t.hv hd = s.hv ha ||| s.hv hb ∧
      (∀ i, i < 128 → (t.hv hd).getLsbD i = ((s.hv ha).getLsbD i || (s.hv hb).getLsbD i)) ∧
      (s.hv hb = 0#128 → t.hv hd = s.hv ha) ∧
      (s.hv hb = onesHv → t.hv hd = onesHv) ∧
      (ha = hb → t.hv hd = s.hv ha) ∧
      (ha = hd → ∃ u, exec (.bundle hd hb) s = .next u ∧ u.hv hd = t.hv hd) ∧
      (EveryByte (s.hv ha) 0xF0#8 → EveryByte (s.hv hb) 0x3C#8 → EveryByte (t.hv hd) 0xFC#8))) ∧
  encode (.or 2 0 1) = 0x11201000#32

/-- AND: H[hd] <- H[ha] & H[hb] (R112) -/
def Obligations.AndIsIntersection : Prop :=
  ReservedBitsRejected 0x12000000#32 0xFF000FFF#32 ∧
  (∀ (hd ha hb : HReg) (s : State),
    encode (.and hd ha hb) = 0x12000000#32 ||| regAt hd 20 ||| regAt ha 16 ||| regAt hb 12 ∧
    (s.hvInit ha = false → exec (.and hd ha hb) s = .next (faulted 2#8 (encode (.and hd ha hb)) s)) ∧
    (s.hvInit ha = true → s.hvInit hb = false →
      exec (.and hd ha hb) s = .next (faulted 2#8 (encode (.and hd ha hb)) s)) ∧
    (s.hvInit ha = true → s.hvInit hb = true → ∃ t, exec (.and hd ha hb) s = .next t ∧
      OnlyHvChanged hd s t ∧ t.hv hd = s.hv ha &&& s.hv hb ∧
      (∀ i, i < 128 → (t.hv hd).getLsbD i = ((s.hv ha).getLsbD i && (s.hv hb).getLsbD i)) ∧
      (∃ u, exec (.and hd hb ha) s = .next u ∧ u.hv hd = t.hv hd) ∧
      (ha = hb → t.hv hd = s.hv ha) ∧
      (s.hv hb = 0#128 → t.hv hd = 0#128) ∧
      (s.hv hb = onesHv → t.hv hd = s.hv ha) ∧
      (EveryByte (s.hv ha) 0xF0#8 → EveryByte (s.hv hb) 0x3C#8 → EveryByte (t.hv hd) 0x30#8))) ∧
  encode (.and 2 0 1) = 0x12201000#32

/-- BUNDLE: H[hd] <- H[hd] | H[ha], in place (R113) -/
def Obligations.BundleAccumulates : Prop :=
  ReservedBitsRejected 0x13000000#32 0xFF00FFFF#32 ∧
  (∀ (hd ha : HReg) (s : State),
    encode (.bundle hd ha) = 0x13000000#32 ||| regAt hd 20 ||| regAt ha 16 ∧
    (s.hvInit hd = false → exec (.bundle hd ha) s = .next (faulted 2#8 (encode (.bundle hd ha)) s)) ∧
    (s.hvInit hd = true → s.hvInit ha = false →
      exec (.bundle hd ha) s = .next (faulted 2#8 (encode (.bundle hd ha)) s)) ∧
    (s.hvInit hd = true → s.hvInit ha = true → ∃ t, exec (.bundle hd ha) s = .next t ∧
      OnlyHvChanged hd s t ∧ t.hv hd = s.hv hd ||| s.hv ha ∧
      (∀ i, i < 128 → (s.hv hd).getLsbD i = true → (t.hv hd).getLsbD i = true) ∧
      popcount (s.hv hd) ≤ popcount (t.hv hd) ∧
      (hd = ha → t.hv hd = s.hv hd) ∧
      (∃ u, exec (.bundle hd ha) t = .next u ∧ u.hv hd = t.hv hd) ∧
      (EveryByte (s.hv hd) 0xF0#8 → EveryByte (s.hv ha) 0x0F#8 → EveryByte (t.hv hd) 0xFF#8))) ∧
  (∀ (hd p q : HReg) (s : State), hd ≠ p → hd ≠ q → s.hvInit hd = true → s.hvInit p = true → s.hvInit q = true →
    ∃ t1 t2 u1 u2, exec (.bundle hd p) s = .next t1 ∧ exec (.bundle hd q) t1 = .next t2 ∧
      exec (.bundle hd q) s = .next u1 ∧ exec (.bundle hd p) u1 = .next u2 ∧ t2.hv hd = u2.hv hd) ∧
  encode (.bundle 0 1) = 0x13010000#32

/-- HAMM: the Hamming distance of two hypervectors into RES (R120) -/
def Obligations.HammCountsDifferingBits : Prop :=
  ReservedBitsRejected 0x22000000#32 0xFF00FFFF#32 ∧
  (∀ (ha hb : HReg) (s : State),
    encode (.hamm ha hb) = 0x22000000#32 ||| regAt ha 20 ||| regAt hb 16 ∧
    (s.hvInit ha = false → exec (.hamm ha hb) s = .next (faulted 2#8 (encode (.hamm ha hb)) s)) ∧
    (s.hvInit ha = true → s.hvInit hb = false →
      exec (.hamm ha hb) s = .next (faulted 2#8 (encode (.hamm ha hb)) s)) ∧
    (s.hvInit ha = true → s.hvInit hb = true → ∃ t, exec (.hamm ha hb) s = .next t ∧ t = { s with res := t.res } ∧
      t.res.toNat = popcount (s.hv ha ^^^ s.hv hb) ∧ t.res.toNat ≤ 128 ∧
      (∃ u, exec (.hamm hb ha) s = .next u ∧ u.res = t.res) ∧
      (t.res = 0#8 ↔ s.hv ha = s.hv hb) ∧ (ha = hb → t.res = 0#8) ∧
      (t.res = 0x80#8 ↔ s.hv hb = ~~~(s.hv ha)) ∧
      (s.hv hb = 0#128 → t.res.toNat = popcount (s.hv ha)) ∧
      (EveryByte (s.hv ha) 0xF0#8 → EveryByte (s.hv hb) 0x3C#8 → t.res = 64#8))) ∧
  encode (.hamm 0 1) = 0x22010000#32

/-- SIM: 128 minus the Hamming distance into RES (R121) -/
def Obligations.SimIsDimensionMinusDistance : Prop :=
  ReservedBitsRejected 0x23000000#32 0xFF00FFFF#32 ∧
  (∀ (ha hb : HReg) (s : State),
    encode (.sim ha hb) = 0x23000000#32 ||| regAt ha 20 ||| regAt hb 16 ∧
    (s.hvInit ha = false → exec (.sim ha hb) s = .next (faulted 2#8 (encode (.sim ha hb)) s)) ∧
    (s.hvInit ha = true → s.hvInit hb = false →
      exec (.sim ha hb) s = .next (faulted 2#8 (encode (.sim ha hb)) s)) ∧
    (s.hvInit ha = true → s.hvInit hb = true → ∃ t, exec (.sim ha hb) s = .next t ∧ t = { s with res := t.res } ∧
      t.res.toNat = 128 - popcount (s.hv ha ^^^ s.hv hb) ∧ t.res.toNat ≤ 128 ∧
      (∃ u, exec (.sim hb ha) s = .next u ∧ u.res = t.res) ∧
      popcount (s.hv ha ^^^ s.hv hb) ≤ 128 ∧
      (ha = hb → t.res = 0x80#8) ∧
      (s.hv hb = ~~~(s.hv ha) → t.res = 0#8) ∧
      (EveryByte (s.hv ha) 0xF0#8 → EveryByte (s.hv hb) 0x3C#8 → t.res = 64#8))) ∧
  encode (.sim 0 1) = 0x23010000#32

/-- PERM: H[hd] <- rotl128(H[hd], shift), in place (R131) -/
def Obligations.PermRotatesInPlace : Prop :=
  ReservedBitsRejected 0x30000000#32 0xFF0F0000#32 ∧
  (∀ (hd : HReg) (shift : BitVec 16) (s : State),
    encode (.perm hd shift) = 0x30000000#32 ||| regAt hd 20 ||| shift.setWidth 32 ∧
    (s.hvInit hd = false → exec (.perm hd shift) s = .next (faulted 2#8 (encode (.perm hd shift)) s)) ∧
    (s.hvInit hd = true → ∃ t, exec (.perm hd shift) s = .next t ∧ OnlyHvChanged hd s t ∧
      t.hv hd = rotl128 (s.hv hd) shift.toNat ∧
      (∀ i, i < 128 → (t.hv hd).getLsbD ((i + shift.toNat) % 128) = (s.hv hd).getLsbD i) ∧
      (shift.toNat % 128 = 0 → t.hv hd = s.hv hd) ∧
      (shift = 65535#16 → ∀ i, i < 128 → (t.hv hd).getLsbD i = (s.hv hd).getLsbD ((i + 1) % 128)) ∧
      (∀ q, shift.toNat = 8 * q → ∀ j, j < 16 → hvByte (t.hv hd) ((j + q) % 16) = hvByte (s.hv hd) j) ∧
      (s.hv hd = BitVec.twoPow 128 127 → shift = 1#16 → t.hv hd = BitVec.twoPow 128 0) ∧
      (s.hv hd = 0#128 → t.hv hd = 0#128) ∧ (s.hv hd = onesHv → t.hv hd = onesHv) ∧
      (∀ shift' : BitVec 16, ∃ u, exec (.perm hd shift') t = .next u ∧
        u.hv hd = rotl128 (s.hv hd) ((shift.toNat + shift'.toNat) % 128)) ∧
      (∃ u, exec (.perm hd (BitVec.ofNat 16 ((128 - shift.toNat % 128) % 128))) t = .next u ∧ u.hv hd = s.hv hd) ∧
      (hvByte (s.hv hd) 0 = 0xFF#8 → (∀ j, 1 ≤ j → j < 16 → hvByte (s.hv hd) j = 0#8) →
        (shift = 8#16 → hvByte (t.hv hd) 1 = 0xFF#8 ∧ ∀ j, j < 16 → j ≠ 1 → hvByte (t.hv hd) j = 0#8) ∧
        (shift = 4#16 → hvByte (t.hv hd) 0 = 0xF0#8 ∧ hvByte (t.hv hd) 1 = 0x0F#8 ∧
          ∀ j, 2 ≤ j → j < 16 → hvByte (t.hv hd) j = 0#8)))) ∧
  encode (.perm 3 8#16) = 0x30300008#32 ∧ encode (.perm 3 4#16) = 0x30300004#32

/-- CLEAR: H[hd] becomes the zero vector and initialised, whatever it was (R140) -/
def Obligations.ClearMakesTheZeroVector : Prop :=
  ReservedBitsRejected 0x31000000#32 0xFF0FFFFF#32 ∧
  (∀ (hd : HReg) (s : State),
    encode (.clear hd) = 0x31000000#32 ||| regAt hd 20 ∧
    ∃ t, exec (.clear hd) s = .next t ∧ OnlyHvChanged hd s t ∧ t.hv hd = 0#128 ∧ EveryByte (t.hv hd) 0x00#8 ∧
      (t.readWindow .init).getLsbD hd.val = true ∧
      (∀ hx he : HReg, t.hvInit hx = true →
        (∃ u, exec (.bind he hx hd) t = .next u ∧ u.hv he = t.hv hx) ∧
        (∃ u, exec (.bind he hd hx) t = .next u ∧ u.hv he = t.hv hx) ∧
        (∃ u, exec (.or he hx hd) t = .next u ∧ u.hv he = t.hv hx) ∧
        (∃ u, exec (.or he hd hx) t = .next u ∧ u.hv he = t.hv hx) ∧
        (∃ u, exec (.bundle hx hd) t = .next u ∧ u.hv hx = t.hv hx) ∧
        (∃ u, exec (.bundle hd hx) t = .next u ∧ u.hv hd = t.hv hx))) ∧
  encode (.clear 5) = 0x31500000#32

/-- FILL: every byte of H[hd] becomes the immediate (R141) -/
def Obligations.FillSetsEveryByte : Prop :=
  ReservedBitsRejected 0x32000000#32 0xFF0FFF00#32 ∧
  (∀ (hd : HReg) (value : Byte) (s : State),
    encode (.fill hd value) = 0x32000000#32 ||| regAt hd 20 ||| value.setWidth 32 ∧
    (∃ t, exec (.fill hd value) s = .next t ∧ OnlyHvChanged hd s t ∧ EveryByte (t.hv hd) value ∧
      (t.hv hd).toNat = value.toNat * ((2 ^ 128 - 1) / 255) ∧
      (value = 0xFF#8 → t.hv hd = onesHv) ∧
      popcount (t.hv hd) = 16 * popcount8 value ∧
      (value = 0xF0#8 → popcount (t.hv hd) = 64)) ∧
    exec (.fill hd 0x00#8) s = exec (.clear hd) s) ∧
  encode (.fill 0 0xF0#8) = 0x320000F0#32

/-- COPY: H[hd] <- H[ha] (R142) -/
def Obligations.CopyCopies : Prop :=
  ReservedBitsRejected 0x33000000#32 0xFF00FFFF#32 ∧
  (∀ (hd ha : HReg) (s : State),
    encode (.copy hd ha) = 0x33000000#32 ||| regAt hd 20 ||| regAt ha 16 ∧
    (s.hvInit ha = false → exec (.copy hd ha) s = .next (faulted 2#8 (encode (.copy hd ha)) s)) ∧
    (s.hvInit ha = true → ∃ t, exec (.copy hd ha) s = .next t ∧ OnlyHvChanged hd s t ∧ t.hv hd = s.hv ha ∧
      t.hv ha = s.hv ha ∧
      (hd = ha → Memory.wf s.hvmem = true → t = s) ∧
      (hd ≠ ha → ∀ v : Byte, (∃ u, exec (.fill ha v) t = .next u ∧ u.hv hd = s.hv ha) ∧
        ∃ u, exec (.fill hd v) t = .next u ∧ u.hv ha = s.hv ha) ∧
      (EveryByte (s.hv ha) 0xCC#8 → EveryByte (t.hv hd) 0xCC#8))) ∧
  encode (.copy 7 2) = 0x33720000#32

/-- THERM: H[hd] <- therm(level(S[sv], S[sm])), ZERO_MAX for a zero bound (R153) -/
def Obligations.ThermEncodesAReading : Prop :=
  ReservedBitsRejected 0x40000000#32 0xFF000FFF#32 ∧
  (∀ (hd : HReg) (sv sm : SReg) (s : State),
    encode (.therm hd sv sm) = 0x40000000#32 ||| regAt hd 20 ||| regAt sv 16 ||| regAt sm 12 ∧
    (s.scalarInit sv = false → exec (.therm hd sv sm) s = .next (faulted 3#8 (encode (.therm hd sv sm)) s)) ∧
    (s.scalarInit sv = true → s.scalarInit sm = false →
      exec (.therm hd sv sm) s = .next (faulted 3#8 (encode (.therm hd sv sm)) s)) ∧
    (s.scalarInit sv = true → s.scalarInit sm = true → (s.scalar sm).toNat = 0 →
      exec (.therm hd sv sm) s = .next (faulted 4#8 (encode (.therm hd sv sm)) s)) ∧
    (s.scalarInit sv = true → s.scalarInit sm = true → (s.scalar sm).toNat ≠ 0 →
      ∃ t, exec (.therm hd sv sm) s = .next t ∧ OnlyHvChanged hd s t ∧
        t.hv hd = therm (level (s.scalar sv).toNat (s.scalar sm).toNat) ∧
        ((s.scalar sv).toNat = 0 → t.hv hd = 0#128) ∧
        ((s.scalar sm).toNat ≤ (s.scalar sv).toNat → t.hv hd = onesHv) ∧
        ((s.scalar sv).toNat + 1 = (s.scalar sm).toNat →
          popcount (t.hv hd) = 128 * ((s.scalar sm).toNat - 1) / (s.scalar sm).toNat ∧
          (popcount (t.hv hd) = 127 ↔ 128 ≤ (s.scalar sm).toNat)) ∧
        ((s.scalar sm).toNat = 2 → popcount (t.hv hd) = 0 ∨ popcount (t.hv hd) = 64 ∨ popcount (t.hv hd) = 128) ∧
        (sv = sm → t.hv hd = onesHv) ∧
        ((s.scalar sv).toNat = 512 → (s.scalar sm).toNat = 1024 →
          (∀ j, j < 8 → hvByte (t.hv hd) j = 0xFF#8) ∧ ∀ j, 8 ≤ j → j < 16 → hvByte (t.hv hd) j = 0x00#8))) ∧
  encode (.therm 2 0 1) = 0x40201000#32

/-- THERMS: the reading shifted into [0, max-min], then as THERM; BAD_RANGE and BELOW_MIN (R155) -/
def Obligations.ThermsEncodesASignedReading : Prop :=
  ReservedBitsRejected 0x41000000#32 0xFF0000FF#32 ∧
  (∀ (hd : HReg) (sv smin smax : SReg) (s : State) (v lo hi : Int),
    v = sint16 (s.scalar sv) → lo = sint16 (s.scalar smin) → hi = sint16 (s.scalar smax) →
    encode (.therms hd sv smin smax)
      = 0x41000000#32 ||| regAt hd 20 ||| regAt sv 16 ||| regAt smin 12 ||| regAt smax 8 ∧
    (-65535 ≤ hi - lo ∧ hi - lo ≤ 65535) ∧
    (s.scalarInit sv = false →
      exec (.therms hd sv smin smax) s = .next (faulted 3#8 (encode (.therms hd sv smin smax)) s)) ∧
    (s.scalarInit sv = true → s.scalarInit smin = false →
      exec (.therms hd sv smin smax) s = .next (faulted 3#8 (encode (.therms hd sv smin smax)) s)) ∧
    (s.scalarInit sv = true → s.scalarInit smin = true → s.scalarInit smax = false →
      exec (.therms hd sv smin smax) s = .next (faulted 3#8 (encode (.therms hd sv smin smax)) s)) ∧
    (s.scalarInit sv = true → s.scalarInit smin = true → s.scalarInit smax = true →
      (hi - lo ≤ 0 → exec (.therms hd sv smin smax) s = .next (faulted 5#8 (encode (.therms hd sv smin smax)) s)) ∧
      (0 < hi - lo → v < lo →
        exec (.therms hd sv smin smax) s = .next (faulted 6#8 (encode (.therms hd sv smin smax)) s)) ∧
      (0 < hi - lo → lo ≤ v → ∃ t, exec (.therms hd sv smin smax) s = .next t ∧ OnlyHvChanged hd s t ∧
        (∃ x m : Nat, (x : Int) = v - lo ∧ (m : Int) = hi - lo ∧ x ≤ 65535 ∧ 1 ≤ m ∧ m ≤ 65535 ∧
          t.hv hd = therm (level x m)) ∧
        (v = lo → t.hv hd = 0#128) ∧
        (hi ≤ v → t.hv hd = onesHv) ∧
        (lo = -32768 → hi = 32767 → hi - lo = 65535) ∧
        (v = -50 → lo = -100 → hi = 100 →
          (∀ j, j < 4 → hvByte (t.hv hd) j = 0xFF#8) ∧ ∀ j, 4 ≤ j → j < 16 → hvByte (t.hv hd) j = 0x00#8)))) ∧
  encode (.therms 4 0 1 2) = 0x41401200#32 ∧
  sint16 0xFFCE#16 = -50 ∧ sint16 0xFF9C#16 = -100 ∧ sint16 0x0064#16 = 100

/-- ENCCH: H[hd] <- H[hd] | (therm(level(S[sv], S[sm])) ^ H[hb]) (R160) -/
def Obligations.EncchEncodesOneChannel : Prop :=
  ReservedBitsRejected 0x42000000#32 0xFF0000FF#32 ∧
  (∀ (hd : HReg) (sv sm : SReg) (hb : HReg) (s : State),
    encode (.encch hd sv sm hb) = 0x42000000#32 ||| regAt hd 20 ||| regAt sv 16 ||| regAt sm 12 ||| regAt hb 8 ∧
    (s.hvInit hd = false → exec (.encch hd sv sm hb) s = .next (faulted 2#8 (encode (.encch hd sv sm hb)) s)) ∧
    (s.hvInit hd = true → s.scalarInit sv = false →
      exec (.encch hd sv sm hb) s = .next (faulted 3#8 (encode (.encch hd sv sm hb)) s)) ∧
    (s.hvInit hd = true → s.scalarInit sv = true → s.scalarInit sm = false →
      exec (.encch hd sv sm hb) s = .next (faulted 3#8 (encode (.encch hd sv sm hb)) s)) ∧
    (s.hvInit hd = true → s.scalarInit sv = true → s.scalarInit sm = true → s.hvInit hb = false →
      exec (.encch hd sv sm hb) s = .next (faulted 2#8 (encode (.encch hd sv sm hb)) s)) ∧
    (s.hvInit hd = true → s.scalarInit sv = true → s.scalarInit sm = true → s.hvInit hb = true →
      ((s.scalar sm).toNat = 0 → exec (.encch hd sv sm hb) s = .next (faulted 4#8 (encode (.encch hd sv sm hb)) s)) ∧
      ((s.scalar sm).toNat ≠ 0 → ∃ t, exec (.encch hd sv sm hb) s = .next t ∧ OnlyHvChanged hd s t ∧
        t.hv hd = s.hv hd ||| (therm (level (s.scalar sv).toNat (s.scalar sm).toNat) ^^^ s.hv hb) ∧
        ((s.scalar sv).toNat = 0 → t.hv hd = s.hv hd ||| s.hv hb) ∧
        ((s.scalar sm).toNat ≤ (s.scalar sv).toNat → t.hv hd = s.hv hd ||| ~~~(s.hv hb)) ∧
        (hd = hb → t.hv hd = s.hv hd ||| therm (level (s.scalar sv).toNat (s.scalar sm).toNat)) ∧
        (∀ i, i < 128 → (s.hv hd).getLsbD i = true → (t.hv hd).getLsbD i = true) ∧
        (∃ u, exec (.encch hd sv sm hb) t = .next u ∧ u.hv hd = t.hv hd) ∧
        (∀ ht, ht ≠ hd → ht ≠ hb → ∃ u1 u2 u3, exec (.therm ht sv sm) s = .next u1 ∧
          exec (.bind ht ht hb) u1 = .next u2 ∧ exec (.bundle hd ht) u2 = .next u3 ∧
          (∀ k, k ≠ ht → u3.hv k = t.hv k ∧ u3.hvInit k = t.hvInit k) ∧
          u3.scalars = t.scalars ∧ u3.sinit = t.sinit ∧ u3.res = t.res ∧ u3.err = t.err) ∧
        (s.hv hd = 0#128 → EveryByte (s.hv hb) 0xAA#8 → (s.scalar sv).toNat = 256 → (s.scalar sm).toNat = 1024 →
          (∀ j, j < 4 → hvByte (t.hv hd) j = 0x55#8) ∧ ∀ j, 4 ≤ j → j < 16 → hvByte (t.hv hd) j = 0xAA#8)))) ∧
  encode (.encch 5 0 2 8) = 0x42502800#32

/-- SETS: S[sd] <- the 16-bit pattern, SINIT[sd] <- 1 (R170) -/
def Obligations.SetsWritesAScalar : Prop :=
  ReservedBitsRejected 0x50000000#32 0xFF0F0000#32 ∧
  (∀ (sd : SReg) (value : Scalar) (s : State),
    encode (.sets sd value) = 0x50000000#32 ||| regAt sd 20 ||| value.setWidth 32 ∧
    ∃ t, exec (.sets sd value) s = .next t ∧ OnlyScalarChanged sd s t ∧ t.scalar sd = value) ∧
  (0xFFFF#16 : Scalar).toNat = 65535 ∧ sint16 0xFFFF#16 = -1 ∧
  encode (.sets 1 1024#16) = 0x50100400#32 ∧ encode (.sets 0 0xFFCE#16) = 0x5000FFCE#32

/-- SETB: MemWrite(16*hd + idx, 1, byte) on an initialised register (R171) -/
def Obligations.SetbWritesOneByte : Prop :=
  ReservedBitsRejected 0x51000000#32 0xFF00FF00#32 ∧
  (∀ (hd : HReg) (idx : ByteIdx) (byte : Byte) (s : State),
    encode (.setb hd idx byte) = 0x51000000#32 ||| regAt hd 20 ||| regAt idx 16 ||| byte.setWidth 32 ∧
    (s.hvInit hd = false → exec (.setb hd idx byte) s = .next (faulted 2#8 (encode (.setb hd idx byte)) s)) ∧
    (s.hvInit hd = true → ∃ t, exec (.setb hd idx byte) s = .next t ∧ OnlyByteChanged (16 * hd.val + idx.val) s t ∧
      t.memRead (16 * hd.val + idx.val) = byte ∧ t.hvInit hd = true ∧
      hvByte (t.hv hd) idx.val = byte ∧
      (∀ j, j < 16 → j ≠ idx.val → hvByte (t.hv hd) j = hvByte (s.hv hd) j) ∧
      (∀ b, b < 8 → (t.hv hd).getLsbD (8 * idx.val + b) = byte.getLsbD b) ∧
      (∀ k, k ≠ hd → t.hv k = s.hv k) ∧
      (s.hv hd = 0#128 → idx = 15 → byte = 0xA5#8 →
        ∀ i, i < 128 → ((t.hv hd).getLsbD i = true ↔ i = 120 ∨ i = 122 ∨ i = 125 ∨ i = 127)))) ∧
  encode (.setb 0 15 0xA5#8) = 0x510F00A5#32

/-- GETB: RES <- MemRead(16*ha + idx, 1) (R172) -/
def Obligations.GetbReadsOneByte : Prop :=
  ReservedBitsRejected 0x52000000#32 0xFF00FFFF#32 ∧
  (∀ (ha : HReg) (idx : ByteIdx) (s : State),
    encode (.getb ha idx) = 0x52000000#32 ||| regAt ha 20 ||| regAt idx 16 ∧
    (s.hvInit ha = false → exec (.getb ha idx) s = .next (faulted 2#8 (encode (.getb ha idx)) s)) ∧
    (s.hvInit ha = true → ∃ t, exec (.getb ha idx) s = .next t ∧ t = { s with res := t.res } ∧
      t.res = s.memRead (16 * ha.val + idx.val) ∧ t.res = hvByte (s.hv ha) idx.val ∧
      (idx = 15 → hvByte (s.hv ha) 15 = 0xA5#8 → t.res = 0xA5#8))) ∧
  (∀ (ha : HReg) (s : State), s.hvInit ha = true → s.err = false →
    ∃ t, runMoves s ((List.finRange 16).flatMap fun j => [.write .cmd (encode (.getb ha j)), .read .res]) = .next t ∧
      t.seen = s.seen ++ (List.range 16).map fun j => (hvByte (s.hv ha) j).setWidth 32) ∧
  encode (.getb 0 15) = 0x520F0000#32

/-- The three forms of the circular left rotation are one function (R130) -/
def Obligations.RotationBitNumberAndByteForms : Prop :=
  ∀ (v : Hv) (s n q r : Nat), n = s % 128 → q = n / 8 → r = n % 8 →
    (∀ i, i < 128 → (rotl128 v s).getLsbD ((i + n) % 128) = v.getLsbD i) ∧
    (0 < n → (rotl128 v s).toNat = ((v.toNat <<< n) ||| (v.toNat >>> (128 - n))) % 2 ^ 128) ∧
    (n = 0 → rotl128 v s = v) ∧
    (r = 0 → ∀ j, j < 16 → hvByte (rotl128 v s) j = hvByte v ((j + 16 - q) % 16)) ∧
    (0 < r → ∀ j, j < 16 → hvByte (rotl128 v s) j =
      (hvByte v ((j + 16 - q) % 16) <<< r) ||| (hvByte v ((j + 32 - q - 1) % 16) >>> (8 - r)))

/-- A permutation keeps the count, and 0 and D are no-ops (R132) -/
def Obligations.PermutationProperties : Prop :=
  (∀ (hd : HReg) (shift : BitVec 16) (s : State), s.hvInit hd = true →
    ∃ t u w, exec (.perm hd shift) s = .next t ∧ exec (.popc hd) t = .next u ∧ exec (.popc hd) s = .next w ∧
      u.res = w.res ∧
      (shift = 0#16 ∨ shift = 128#16 → t.hv hd = s.hv hd) ∧
      (∀ b, EveryByte (s.hv hd) b → shift.toNat % 8 = 0 → t.hv hd = s.hv hd)) ∧
  (∀ (a : Hv) (s : Nat), popcount (rotl128 a s) = popcount a)

/-- level(x, m): 128 at or above the bound, else the truncated quotient of x*128 by m (R150, R156) -/
def Obligations.LevelsAreTruncatedQuotients : Prop :=
  ∀ x m : Nat, x ≤ 65535 → 1 ≤ m → m ≤ 65535 →
    (m ≤ x → level x m = 128) ∧
    (x < m → level x m = x * 128 / m ∧ level x m ≤ 127 ∧ x * 128 ≤ 8388352 ∧ x * 128 < 2 ^ 23) ∧
    level x m ≤ 128 ∧
    (∀ l, l ≤ 127 → (l ≤ level x m ↔ l * m ≤ x * 128)) ∧
    (1 ≤ level x m ↔ m ≤ x * 128) ∧
    (level x m = 128 ↔ m ≤ x)

/-- therm(L): the first L bits 1, the others 0 (R151) -/
def Obligations.ThermometerCodes : Prop :=
  (∀ l : Nat, l ≤ 128 →
    (∀ i, i < 128 → (therm l).getLsbD i = decide (i < l)) ∧
    (therm l).toNat = 2 ^ l - 1 ∧
    popcount (therm l) = l ∧
    (∀ j, j < l / 8 → hvByte (therm l) j = 0xFF#8) ∧
    (l % 8 ≠ 0 → hvByte (therm l) (l / 8) = BitVec.ofNat 8 (2 ^ (l % 8) - 1)) ∧
    (∀ j, j < 16 → (l / 8 < j ∨ (l / 8 = j ∧ l % 8 = 0)) → hvByte (therm l) j = 0x00#8)) ∧
  therm 0 = 0#128 ∧ therm 128 = onesHv

/-- The encoder is 128 threshold comparisons of one product (R152) -/
def Obligations.ComparatorFormOfTheEncoder : Prop :=
  ∀ x m i : Nat, x ≤ 65535 → 1 ≤ m → m ≤ 65535 → i < 128 →
    ((therm (level x m)).getLsbD i = true ↔ (i + 1) * m ≤ x * 128) ∧ (i + 1) * m < 2 ^ 23

/-- The thermometer encoder is monotone, exact at its ends, and its distances are level differences (R154) -/
def Obligations.ThermometerProperties : Prop :=
  (∀ m x y : Nat, 0 < m →
    (x < y → popcount (therm (level x m)) ≤ popcount (therm (level y m))) ∧
    therm (level 0 m) = 0#128 ∧ therm (level m m) = onesHv ∧ (m ≤ x → therm (level x m) = onesHv)) ∧
  (∀ l1 l2 : Nat, l1 ≤ 128 → l2 ≤ 128 → (hamming (therm l1) (therm l2) : Int) = |(l1 : Int) - (l2 : Int)|) ∧
  level 500 1024 = 62 ∧ level 510 1024 = 63 ∧ hamming (therm (level 500 1024)) (therm (level 510 1024)) = 1 ∧
  hamming (therm (level 500 1024)) (therm (level 510 1024)) < 10

/-- Distance and similarity: symmetric, 0 and D at the ends, and they sum to D (R122) -/
def Obligations.DistanceLaws : Prop :=
  ∀ (ha hb : HReg) (s : State), s.hvInit ha = true → s.hvInit hb = true →
    ∃ d d' e z, exec (.hamm ha hb) s = .next d ∧ exec (.hamm hb ha) s = .next d' ∧ exec (.sim ha hb) s = .next e ∧
      exec (.hamm ha ha) s = .next z ∧
      d.res = d'.res ∧ z.res = 0#8 ∧ e.res.toNat + d.res.toNat = 128 ∧
      (s.hv hb = ~~~(s.hv ha) → d.res.toNat = 128) ∧
      (d.res = 0#8 → s.hv ha = s.hv hb) ∧
      (d.res.toNat = 128 → s.hv hb = ~~~(s.hv ha))

/-- ENCODE_CHANNELS computes encode_channels (R162) -/
def Obligations.EncodeChannelsComputes : Prop :=
  ∀ (hd : HReg) (channels : List Channel) (s : State), (Pseudo.encodeChannels hd channels).wf = true → s.err = false →
    (∀ t, runMoves s (issueAll (pseudoCommands (.encodeChannels hd channels))) = .next t → t.err = false →
      t.hv hd = channelsValue s channels) ∧
    ((∀ c ∈ channels, channelReady s c) →
      ∃ t, runMoves s (issueAll (pseudoCommands (.encodeChannels hd channels))) = .next t ∧ t.err = false ∧
        t.hv hd = channelsValue s channels ∧ OnlyHvChanged hd s t) ∧
    (channels = [] → ∃ t, runMoves s (issueAll (pseudoCommands (.encodeChannels hd channels))) = .next t ∧
      t.hv hd = 0#128) ∧
    (∀ pre c post, channels = pre ++ c :: post → (∀ x ∈ pre, channelReady s x) → ¬ channelReady s c →
      ∃ t, runMoves s (issueAll (pseudoCommands (.encodeChannels hd channels))) = .next t ∧ t.err = true ∧
        t.hv hd = channelsValue s pre ∧ t.ecmd = encode (.encch hd c.sv c.sm c.hb))

/-- The order of the channels does not affect the result, and basis registers are never changed (R163) -/
def Obligations.ChannelOrderDoesNotMatter : Prop :=
  ∀ (hd : HReg) (channels channels' : List Channel) (s : State), channels.Perm channels' →
    (Pseudo.encodeChannels hd channels).wf = true → s.err = false → (∀ c ∈ channels, channelReady s c) →
      ∃ t t', runMoves s (issueAll (pseudoCommands (.encodeChannels hd channels))) = .next t ∧
        runMoves s (issueAll (pseudoCommands (.encodeChannels hd channels'))) = .next t' ∧
        t.err = false ∧ t'.err = false ∧ t.hv hd = t'.hv hd ∧ (∀ k, k ≠ hd → t.hv k = s.hv k ∧ t'.hv k = s.hv k)

/-- LDHV loads the sixteen bytes it names (R74) -/
def Obligations.LoadVectorLoads : Prop :=
  ∀ (hd : HReg) (bytes : List Byte) (s : State), bytes.length = 16 → s.err = false →
    (pseudoCommands (.ldhv hd bytes)).length = 17 ∧
    pseudoCommands (.ldhv hd bytes)
      = .clear hd :: (List.finRange 16).map (fun j => .setb hd j (bytes.getD j.val 0#8)) ∧
    (∃ t, runMoves s (issueAll (pseudoCommands (.ldhv hd bytes))) = .next t ∧ OnlyHvChanged hd s t ∧
      (∀ j, j < 16 → hvByte (t.hv hd) j = bytes.getD j 0#8) ∧
      ∃ u, runMoves s (issueAll (.clear hd :: ((List.finRange 16).filter fun j => bytes.getD j.val 0#8 != 0#8).map
          fun j => .setb hd j (bytes.getD j.val 0#8))) = .next u ∧ u.hv hd = t.hv hd ∧ OnlyHvChanged hd s u)

/-- ONES makes the all-ones vector, and BIND with it the complement (R75) -/
def Obligations.OnesMakesTheComplementReachable : Prop :=
  ∀ (ho : HReg) (s : State), s.err = false →
    pseudoCommands (.ones ho) = [.fill ho 0xFF#8] ∧
    ∃ t, runMoves s (issueAll (pseudoCommands (.ones ho))) = .next t ∧ t.hv ho = onesHv ∧ OnlyHvChanged ho s t ∧
      ∀ hd hx, t.hvInit hx = true →
        ∃ u, runMoves t (issueAll [.bind hd hx ho]) = .next u ∧ u.hv hd = ~~~(t.hv hx)

/-- The spec's assembler lines give the words printed beside them; a line R71 does not describe is rejected (the
model's choice, log 18) (30_encoding.md R71, R73) -/
def Obligations.AssemblerExamples : Prop :=
  (assembleLine "bind h2, h0, h1".toList).map (·.map encode) = some [0x10201000#32] ∧
  (assembleLine "perm h3, 8".toList).map (·.map encode) = some [0x30300008#32] ∧
  (assembleLine "therms h4, s0, s1, s2".toList).map (·.map encode) = some [0x41401200#32] ∧
  (assembleLine "encch h5, s0, s1, h9".toList).map (·.map encode) = some [0x42501900#32] ∧
  (assembleLine "setb h0, 15, 0xA5".toList).map (·.map encode) = some [0x510F00A5#32] ∧
  (assembleLine "SETS s0, -50 ; a comment".toList).map (·.map encode) = some [0x5000FFCE#32] ∧
  assembleLine "bind h2, h0, h16".toList = none ∧
  assembleLine "fill h0, 256".toList = none ∧
  assembleLine "encode_channels h5, s2, (s0, h8), (s1, h5)".toList = none
end

