-- ==== Sys2Proof/Laws/Bytes.lean ====
section
/-!
SUPPORT. The bytes and bits of a vector: spec/00_scope.md rule R7, spec/20_memory.md rule R42.
-/

namespace Sys2Proof.Machine

theorem bytesVal_lt (f : Nat → Byte) (n : Nat) : bytesVal f n < 2 ^ (8 * n) := by
  induction n with
  | zero => simp [bytesVal]
  | succ n ih =>
    have h := (f n).isLt
    have e : 2 ^ (8 * (n + 1)) = 256 * 2 ^ (8 * n) := by rw [Nat.mul_add, Nat.pow_add]; ring
    have : (f n).toNat * 2 ^ (8 * n) ≤ 255 * 2 ^ (8 * n) := Nat.mul_le_mul_right _ (by omega)
    rw [bytesVal, e]
    omega

theorem bytesVal_testBit (f : Nat → Byte) (n i : Nat) :
    (bytesVal f n).testBit i = (decide (i < 8 * n) && (f (i / 8)).getLsbD (i % 8)) := by
  induction n with
  | zero => simp [bytesVal]
  | succ n ih =>
    have e : bytesVal f (n + 1) = 2 ^ (8 * n) * (f n).toNat + bytesVal f n := by rw [bytesVal]; ring
    rw [e, Nat.testBit_two_pow_mul_add _ (bytesVal_lt f n), ih]
    by_cases h : i < 8 * n
    · have : i < 8 * (n + 1) := by omega
      simp [h, this]
    · rw [if_neg h]
      change (f n).getLsbD (i - 8 * n) = _
      by_cases h2 : i < 8 * (n + 1)
      · have e1 : i / 8 = n := by omega
        have e2 : i - 8 * n = i % 8 := by omega
        simp [h2, e1, e2]
      · have : (f n).getLsbD (i - 8 * n) = false := BitVec.getLsbD_of_ge _ _ (by omega)
        simp [h2, this]

/-- Bit `i` of a vector made of bytes is bit `i mod 8` of byte `i div 8` (R7, R42). -/
theorem hvOfBytes_getLsbD (f : Nat → Byte) (i : Nat) (h : i < 128) :
    (hvOfBytes f).getLsbD i = (f (i / 8)).getLsbD (i % 8) := by
  rw [hvOfBytes, BitVec.getLsbD_ofNat, bytesVal_testBit]
  simp [h]

/-- Bit `t` of byte `j` of a vector is its bit `8j + t` (R7). -/
theorem hvByte_getLsbD (v : Hv) (j t : Nat) (h : t < 8) : (hvByte v j).getLsbD t = v.getLsbD (8 * j + t) := by
  simp [hvByte, h]

/-- The bytes of a vector made of bytes. -/
theorem hvByte_hvOfBytes (f : Nat → Byte) (j : Nat) (h : j < 16) : hvByte (hvOfBytes f) j = f j := by
  apply BitVec.eq_of_getLsbD_eq
  intro t ht
  rw [hvByte_getLsbD _ _ _ ht, hvOfBytes_getLsbD _ _ (by omega)]
  congr 2 <;> omega

/-- A vector is made of its bytes. -/
theorem hvOfBytes_hvByte (v : Hv) : hvOfBytes (hvByte v) = v := by
  apply BitVec.eq_of_getLsbD_eq
  intro i hi
  rw [hvOfBytes_getLsbD _ _ hi, hvByte_getLsbD _ _ _ (Nat.mod_lt _ (by decide))]
  congr 1
  omega

/-- Only the first sixteen bytes matter. -/
theorem hvOfBytes_congr {f g : Nat → Byte} (h : ∀ j, j < 16 → f j = g j) : hvOfBytes f = hvOfBytes g := by
  apply BitVec.eq_of_getLsbD_eq
  intro i hi
  rw [hvOfBytes_getLsbD _ _ hi, hvOfBytes_getLsbD _ _ hi, h _ (by omega)]

/-- Two vectors with the same sixteen bytes are equal. -/
theorem hv_ext_bytes {v w : Hv} (h : ∀ j, j < 16 → hvByte v j = hvByte w j) : v = w := by
  rw [← hvOfBytes_hvByte v, ← hvOfBytes_hvByte w]
  exact hvOfBytes_congr h

/-! ### Bytes of combined vectors -/

@[simp] theorem hvByte_xor (v w : Hv) (j : Nat) : hvByte (v ^^^ w) j = hvByte v j ^^^ hvByte w j := by
  apply BitVec.eq_of_getLsbD_eq
  intro t ht
  simp [hvByte_getLsbD _ _ _ ht]

@[simp] theorem hvByte_or (v w : Hv) (j : Nat) : hvByte (v ||| w) j = hvByte v j ||| hvByte w j := by
  apply BitVec.eq_of_getLsbD_eq
  intro t ht
  simp [hvByte_getLsbD _ _ _ ht]

@[simp] theorem hvByte_and (v w : Hv) (j : Nat) : hvByte (v &&& w) j = hvByte v j &&& hvByte w j := by
  apply BitVec.eq_of_getLsbD_eq
  intro t ht
  simp [hvByte_getLsbD _ _ _ ht]

@[simp] theorem hvByte_zero (j : Nat) : hvByte 0#128 j = 0#8 := by
  apply BitVec.eq_of_getLsbD_eq
  intro t ht
  simp [hvByte_getLsbD _ _ _ ht]

theorem hvByte_allOnes (j : Nat) (h : j < 16) : hvByte (BitVec.allOnes 128) j = 0xFF#8 := by
  apply BitVec.eq_of_getLsbD_eq
  intro t ht
  rw [hvByte_getLsbD _ _ _ ht, BitVec.getLsbD_allOnes]
  have : 8 * j + t < 128 := by omega
  rw [show (0xFF#8 : Byte) = BitVec.allOnes 8 from rfl, BitVec.getLsbD_allOnes]
  simp [this, ht]

end Sys2Proof.Machine
end

