-- ==== Sys2Proof/Laws/Memory.lean ====
section
/-!
SUPPORT. The laws of the cells of the store: what a read gives after a write, that every operation keeps the canonical
form, and that the canonical form makes equal memories equal data.
-/

namespace Sys2Proof.Machine

@[simp] theorem Memory.read_nil (a : Nat) : Memory.read [] a = unlistedByte := rfl

theorem Memory.read_cons (x : Nat) (b : Byte) (m : Memory) (a : Nat) :
    Memory.read ((x, b) :: m) a = if x = a then b else Memory.read m a := rfl

theorem Memory.erase_cons (x : Nat) (b : Byte) (m : Memory) (a : Nat) :
    Memory.erase ((x, b) :: m) a = if x = a then Memory.erase m a else (x, b) :: Memory.erase m a := by
  by_cases h : x = a <;> simp [Memory.erase, h]

theorem Memory.read_erase (m : Memory) (a x : Nat) :
    Memory.read (Memory.erase m a) x = if a = x then unlistedByte else Memory.read m x := by
  induction m with
  | nil => simp [Memory.erase]
  | cons c m ih =>
    obtain ⟨y, b⟩ := c
    rw [Memory.erase_cons, Memory.read_cons]
    split <;> rename_i h
    · rw [ih]; subst h; by_cases hx : y = x <;> simp [hx]
    · rw [Memory.read_cons, ih]; by_cases hy : y = x
      · have : a ≠ x := by omega
        simp [hy, this]
      · simp [hy]

/-- A cell put into a memory that lists nothing at its address. -/
theorem Memory.read_insert (m : Memory) (a : Nat) (v : Byte) (x : Nat) (h : ∀ c ∈ m, c.1 ≠ a) :
    Memory.read (Memory.insert m a v) x = if a = x then v else Memory.read m x := by
  induction m with
  | nil => simp [Memory.insert, Memory.read_cons]
  | cons c m ih =>
    obtain ⟨y, b⟩ := c
    have hy : y ≠ a := h (y, b) (by simp)
    have hm : ∀ c ∈ m, c.1 ≠ a := fun c hc => h c (by simp [hc])
    unfold Memory.insert
    split
    · simp only [Memory.read_cons]
    · rw [Memory.read_cons, ih hm, Memory.read_cons]
      by_cases hyx : y = x
      · have : a ≠ x := by omega
        simp [hyx, this]
      · simp [hyx]

theorem Memory.ne_of_mem_erase (m : Memory) (a : Nat) : ∀ c ∈ Memory.erase m a, c.1 ≠ a := by
  intro c hc
  simpa using (List.mem_filter.mp hc).2

/-- A read after a write: the value written at its address, the old value elsewhere. -/
@[simp] theorem Memory.read_write (m : Memory) (a : Nat) (v : Byte) (x : Nat) :
    Memory.read (Memory.write m a v) x = if a = x then v else Memory.read m x := by
  unfold Memory.write
  split <;> rename_i h
  · rw [Memory.read_erase, h]
  · rw [Memory.read_insert _ _ _ _ (Memory.ne_of_mem_erase m a), Memory.read_erase]
    by_cases hx : a = x <;> simp [hx]

/-- A read after a store of `n` bytes. -/
theorem Memory.read_store (m : Memory) (a : Nat) (f : Nat → Byte) (n x : Nat) :
    Memory.read (Memory.store m a f n) x = if a ≤ x ∧ x < a + n then f (x - a) else Memory.read m x := by
  induction n with
  | zero => simp [Memory.store]
  | succ n ih =>
    rw [Memory.store, Memory.read_write, ih]
    by_cases h : a + n = x
    · subst h; simp
    · have e : (a ≤ x ∧ x < a + n) ↔ (a ≤ x ∧ x < a + (n + 1)) := by omega
      simp [h, e]

/-! ### The canonical form -/

/-- The canonical form as a property of all cells, below which every address lies. -/
theorem Memory.wf_cons (a : Nat) (v : Byte) (m : Memory) :
    Memory.wf ((a, v) :: m) = true ↔
      a < 256 ∧ v ≠ unlistedByte ∧ Memory.wf m = true ∧ ∀ c ∈ m, a < c.1 := by
  induction m generalizing a v with
  | nil => simp [Memory.wf]
  | cons c m ih =>
    obtain ⟨a', v'⟩ := c
    have hih := ih a' v'
    simp only [Memory.wf, Bool.and_eq_true, decide_eq_true_eq, hih, List.mem_cons, forall_eq_or_imp]
    constructor
    · rintro ⟨⟨h1, h2⟩, h3, h4, h5, h6⟩
      exact ⟨by omega, h2, ⟨h3, h4, h5, h6⟩, h1, fun c hc => lt_trans h1 (h6 c hc)⟩
    · rintro ⟨_, h2, ⟨h3, h4, h5, h6⟩, h1, _⟩
      exact ⟨⟨h1, h2⟩, h3, h4, h5, h6⟩

@[simp] theorem Memory.wf_nil : Memory.wf [] = true := rfl

theorem Memory.wf_erase {m : Memory} (a : Nat) (h : Memory.wf m = true) : Memory.wf (Memory.erase m a) = true := by
  induction m with
  | nil => simp [Memory.erase]
  | cons c m ih =>
    obtain ⟨x, b⟩ := c
    obtain ⟨h1, h2, h3, h4⟩ := (Memory.wf_cons x b m).mp h
    rw [Memory.erase_cons]
    split
    · exact ih h3
    · exact (Memory.wf_cons _ _ _).mpr ⟨h1, h2, ih h3, fun c hc => h4 c (List.mem_filter.mp hc).1⟩

theorem Memory.mem_insert {m : Memory} {a : Nat} {v : Byte} {c : Host.Cell} (h : c ∈ Memory.insert m a v) :
    c = (a, v) ∨ c ∈ m := by
  induction m with
  | nil => simpa [Memory.insert] using h
  | cons d m ih =>
    obtain ⟨x, b⟩ := d
    unfold Memory.insert at h
    split at h
    · simpa using h
    · rcases List.mem_cons.mp h with h | h
      · simp [h]
      · rcases ih h with h | h <;> simp [h]

theorem Memory.wf_insert {m : Memory} {a : Nat} {v : Byte} (h : Memory.wf m = true) (ha : a < 256)
    (hv : v ≠ unlistedByte) (hn : ∀ c ∈ m, c.1 ≠ a) : Memory.wf (Memory.insert m a v) = true := by
  induction m with
  | nil => simp [Memory.insert, Memory.wf, ha, hv]
  | cons c m ih =>
    obtain ⟨x, b⟩ := c
    obtain ⟨h1, h2, h3, h4⟩ := (Memory.wf_cons x b m).mp h
    have hx : x ≠ a := hn (x, b) (by simp)
    unfold Memory.insert
    split <;> rename_i hlt
    · refine (Memory.wf_cons _ _ _).mpr ⟨ha, hv, h, fun c hc => ?_⟩
      rcases List.mem_cons.mp hc with rfl | hc
      · exact hlt
      · exact lt_trans hlt (h4 c hc)
    · refine (Memory.wf_cons _ _ _).mpr ⟨h1, h2, ih h3 fun c hc => hn c (by simp [hc]), fun c hc => ?_⟩
      rcases Memory.mem_insert hc with rfl | hc
      · simp only; omega
      · exact h4 c hc

/-- A write inside `HVMEM` keeps the canonical form. -/
theorem Memory.wf_write {m : Memory} {a : Nat} (v : Byte) (h : Memory.wf m = true) (ha : a < 256) :
    Memory.wf (Memory.write m a v) = true := by
  unfold Memory.write
  split <;> rename_i hv
  · exact Memory.wf_erase a h
  · exact Memory.wf_insert (Memory.wf_erase a h) ha hv (Memory.ne_of_mem_erase m a)

/-- A store of `n` bytes inside `HVMEM` keeps the canonical form. -/
theorem Memory.wf_store {m : Memory} {a : Nat} (f : Nat → Byte) (n : Nat) (h : Memory.wf m = true) (ha : a + n ≤ 256) :
    Memory.wf (Memory.store m a f n) = true := by
  induction n with
  | zero => exact h
  | succ n ih => exact Memory.wf_write _ (ih (by omega)) (by omega)

theorem Memory.read_of_forall_gt {m : Memory} {a : Nat} (h : ∀ c ∈ m, a < c.1) : Memory.read m a = unlistedByte := by
  induction m with
  | nil => rfl
  | cons c m ih =>
    obtain ⟨x, b⟩ := c
    have hx : a < x := h (x, b) (by simp)
    rw [Memory.read_cons, if_neg (by omega), ih fun c hc => h c (by simp [hc])]

/-- Equal memories are equal data: two canonical memories that read alike everywhere are the same list. -/
theorem Memory.ext_of_wf {m m' : Memory} (h : Memory.wf m = true) (h' : Memory.wf m' = true)
    (hr : ∀ a, Memory.read m a = Memory.read m' a) : m = m' := by
  induction m generalizing m' with
  | nil =>
    cases m' with
    | nil => rfl
    | cons c m' =>
      obtain ⟨x, b⟩ := c
      have := hr x
      simp only [Memory.read_nil, Memory.read_cons, if_true] at this
      exact absurd this.symm ((Memory.wf_cons x b m').mp h').2.1
  | cons c m ih =>
    obtain ⟨x, b⟩ := c
    obtain ⟨_, h2, h3, h4⟩ := (Memory.wf_cons x b m).mp h
    cases m' with
    | nil =>
      have := hr x
      simp only [Memory.read_nil, Memory.read_cons, if_true] at this
      exact absurd this h2
    | cons d m' =>
      obtain ⟨y, e⟩ := d
      obtain ⟨_, k2, k3, k4⟩ := (Memory.wf_cons y e m').mp h'
      have hxy : x = y := by
        rcases Nat.lt_trichotomy x y with hlt | heq | hgt
        · have := hr x
          rw [Memory.read_cons, if_pos rfl, Memory.read_cons, if_neg (by omega),
            Memory.read_of_forall_gt fun c hc => lt_trans hlt (k4 c hc)] at this
          exact absurd this h2
        · exact heq
        · have := hr y
          rw [Memory.read_cons, if_neg (by omega), Memory.read_of_forall_gt fun c hc => lt_trans hgt (h4 c hc),
            Memory.read_cons, if_pos rfl] at this
          exact absurd this.symm k2
      subst hxy
      have hbe : b = e := by have := hr x; simpa [Memory.read_cons] using this
      subst hbe
      have hmm : m = m' := ih h3 k3 fun a => by
        by_cases hax : x = a
        · subst hax
          rw [Memory.read_of_forall_gt h4, Memory.read_of_forall_gt k4]
        · have := hr a
          simpa [Memory.read_cons, hax] using this
      rw [hmm]

end Sys2Proof.Machine
end

