-- ==== Sys2Proof/Laws/State.lean ====
section
/-!
SUPPORT. The fields of a state after each update, one lemma a field, all true by `rfl`. They are proved
`by rfl`, not by the term `rfl`, so that simp rewrites with them and the kernel is never asked to unfold an update inside a
large term.
-/

namespace Sys2Proof.Machine

variable (s : State)

@[simp] theorem State.memWrite_hvmem (a : Nat) (v : Byte) : (s.memWrite a v).hvmem = Memory.write s.hvmem a v := by rfl
@[simp] theorem State.memWrite_hinit (a : Nat) (v : Byte) : (s.memWrite a v).hinit = s.hinit := by rfl
@[simp] theorem State.memWrite_scalars (a : Nat) (v : Byte) : (s.memWrite a v).scalars = s.scalars := by rfl
@[simp] theorem State.memWrite_sinit (a : Nat) (v : Byte) : (s.memWrite a v).sinit = s.sinit := by rfl
@[simp] theorem State.memWrite_res (a : Nat) (v : Byte) : (s.memWrite a v).res = s.res := by rfl
@[simp] theorem State.memWrite_err (a : Nat) (v : Byte) : (s.memWrite a v).err = s.err := by rfl
@[simp] theorem State.memWrite_ecause (a : Nat) (v : Byte) : (s.memWrite a v).ecause = s.ecause := by rfl
@[simp] theorem State.memWrite_ecmd (a : Nat) (v : Byte) : (s.memWrite a v).ecmd = s.ecmd := by rfl
@[simp] theorem State.memWrite_host (a : Nat) (v : Byte) : (s.memWrite a v).host = s.host := by rfl
@[simp] theorem State.memWrite_seen (a : Nat) (v : Byte) : (s.memWrite a v).seen = s.seen := by rfl

@[simp] theorem State.writeHv_hvmem (k : HReg) (v : Hv) : (s.writeHv k v).hvmem = Memory.store s.hvmem (hvAddr k) (hvByte v) 16 := by rfl
@[simp] theorem State.writeHv_hinit (k : HReg) (v : Hv) : (s.writeHv k v).hinit = setFlag s.hinit k := by rfl
@[simp] theorem State.writeHv_scalars (k : HReg) (v : Hv) : (s.writeHv k v).scalars = s.scalars := by rfl
@[simp] theorem State.writeHv_sinit (k : HReg) (v : Hv) : (s.writeHv k v).sinit = s.sinit := by rfl
@[simp] theorem State.writeHv_res (k : HReg) (v : Hv) : (s.writeHv k v).res = s.res := by rfl
@[simp] theorem State.writeHv_err (k : HReg) (v : Hv) : (s.writeHv k v).err = s.err := by rfl
@[simp] theorem State.writeHv_ecause (k : HReg) (v : Hv) : (s.writeHv k v).ecause = s.ecause := by rfl
@[simp] theorem State.writeHv_ecmd (k : HReg) (v : Hv) : (s.writeHv k v).ecmd = s.ecmd := by rfl
@[simp] theorem State.writeHv_host (k : HReg) (v : Hv) : (s.writeHv k v).host = s.host := by rfl
@[simp] theorem State.writeHv_seen (k : HReg) (v : Hv) : (s.writeHv k v).seen = s.seen := by rfl

@[simp] theorem State.writeScalar_hvmem (k : SReg) (v : Scalar) : (s.writeScalar k v).hvmem = s.hvmem := by rfl
@[simp] theorem State.writeScalar_hinit (k : SReg) (v : Scalar) : (s.writeScalar k v).hinit = s.hinit := by rfl
@[simp] theorem State.writeScalar_scalars (k : SReg) (v : Scalar) : (s.writeScalar k v).scalars = s.scalars.set k.val v := by rfl
@[simp] theorem State.writeScalar_sinit (k : SReg) (v : Scalar) : (s.writeScalar k v).sinit = setFlag s.sinit k := by rfl
@[simp] theorem State.writeScalar_res (k : SReg) (v : Scalar) : (s.writeScalar k v).res = s.res := by rfl
@[simp] theorem State.writeScalar_err (k : SReg) (v : Scalar) : (s.writeScalar k v).err = s.err := by rfl
@[simp] theorem State.writeScalar_ecause (k : SReg) (v : Scalar) : (s.writeScalar k v).ecause = s.ecause := by rfl
@[simp] theorem State.writeScalar_ecmd (k : SReg) (v : Scalar) : (s.writeScalar k v).ecmd = s.ecmd := by rfl
@[simp] theorem State.writeScalar_host (k : SReg) (v : Scalar) : (s.writeScalar k v).host = s.host := by rfl
@[simp] theorem State.writeScalar_seen (k : SReg) (v : Scalar) : (s.writeScalar k v).seen = s.seen := by rfl

@[simp] theorem State.writeRes_hvmem (v : Byte) : (s.writeRes v).hvmem = s.hvmem := by rfl
@[simp] theorem State.writeRes_hinit (v : Byte) : (s.writeRes v).hinit = s.hinit := by rfl
@[simp] theorem State.writeRes_scalars (v : Byte) : (s.writeRes v).scalars = s.scalars := by rfl
@[simp] theorem State.writeRes_sinit (v : Byte) : (s.writeRes v).sinit = s.sinit := by rfl
@[simp] theorem State.writeRes_res (v : Byte) : (s.writeRes v).res = v := by rfl
@[simp] theorem State.writeRes_err (v : Byte) : (s.writeRes v).err = s.err := by rfl
@[simp] theorem State.writeRes_ecause (v : Byte) : (s.writeRes v).ecause = s.ecause := by rfl
@[simp] theorem State.writeRes_ecmd (v : Byte) : (s.writeRes v).ecmd = s.ecmd := by rfl
@[simp] theorem State.writeRes_host (v : Byte) : (s.writeRes v).host = s.host := by rfl
@[simp] theorem State.writeRes_seen (v : Byte) : (s.writeRes v).seen = s.seen := by rfl

@[simp] theorem State.takeFault_hvmem (c : Cause) (w : Word) : (s.takeFault c w).hvmem = s.hvmem := by rfl
@[simp] theorem State.takeFault_hinit (c : Cause) (w : Word) : (s.takeFault c w).hinit = s.hinit := by rfl
@[simp] theorem State.takeFault_scalars (c : Cause) (w : Word) : (s.takeFault c w).scalars = s.scalars := by rfl
@[simp] theorem State.takeFault_sinit (c : Cause) (w : Word) : (s.takeFault c w).sinit = s.sinit := by rfl
@[simp] theorem State.takeFault_res (c : Cause) (w : Word) : (s.takeFault c w).res = s.res := by rfl
@[simp] theorem State.takeFault_err (c : Cause) (w : Word) : (s.takeFault c w).err = true := by rfl
@[simp] theorem State.takeFault_ecause (c : Cause) (w : Word) : (s.takeFault c w).ecause = c.code := by rfl
@[simp] theorem State.takeFault_ecmd (c : Cause) (w : Word) : (s.takeFault c w).ecmd = w := by rfl
@[simp] theorem State.takeFault_host (c : Cause) (w : Word) : (s.takeFault c w).host = s.host := by rfl
@[simp] theorem State.takeFault_seen (c : Cause) (w : Word) : (s.takeFault c w).seen = s.seen := by rfl

@[simp] theorem State.blockReset_hvmem : s.blockReset.hvmem = [] := by rfl
@[simp] theorem State.blockReset_hinit : s.blockReset.hinit = 0#16 := by rfl
@[simp] theorem State.blockReset_scalars : s.blockReset.scalars = Vector.replicate 16 0#16 := by rfl
@[simp] theorem State.blockReset_sinit : s.blockReset.sinit = 0#16 := by rfl
@[simp] theorem State.blockReset_res : s.blockReset.res = 0#8 := by rfl
@[simp] theorem State.blockReset_err : s.blockReset.err = false := by rfl
@[simp] theorem State.blockReset_ecause : s.blockReset.ecause = 0#8 := by rfl
@[simp] theorem State.blockReset_ecmd : s.blockReset.ecmd = 0#32 := by rfl
@[simp] theorem State.blockReset_host : s.blockReset.host = s.host := by rfl
@[simp] theorem State.blockReset_seen : s.blockReset.seen = s.seen := by rfl

@[simp] theorem State.issue_hvmem (m : HostMove) : (s.issue m).hvmem = s.hvmem := by rfl
@[simp] theorem State.issue_hinit (m : HostMove) : (s.issue m).hinit = s.hinit := by rfl
@[simp] theorem State.issue_scalars (m : HostMove) : (s.issue m).scalars = s.scalars := by rfl
@[simp] theorem State.issue_sinit (m : HostMove) : (s.issue m).sinit = s.sinit := by rfl
@[simp] theorem State.issue_res (m : HostMove) : (s.issue m).res = s.res := by rfl
@[simp] theorem State.issue_err (m : HostMove) : (s.issue m).err = s.err := by rfl
@[simp] theorem State.issue_ecause (m : HostMove) : (s.issue m).ecause = s.ecause := by rfl
@[simp] theorem State.issue_ecmd (m : HostMove) : (s.issue m).ecmd = s.ecmd := by rfl
@[simp] theorem State.issue_host (m : HostMove) : (s.issue m).host = m :: s.host := by rfl
@[simp] theorem State.issue_seen (m : HostMove) : (s.issue m).seen = s.seen := by rfl

@[simp] theorem faulted_hvmem (c : Byte) (w : Word) : (faulted c w s).hvmem = s.hvmem := by rfl
@[simp] theorem faulted_hinit (c : Byte) (w : Word) : (faulted c w s).hinit = s.hinit := by rfl
@[simp] theorem faulted_scalars (c : Byte) (w : Word) : (faulted c w s).scalars = s.scalars := by rfl
@[simp] theorem faulted_sinit (c : Byte) (w : Word) : (faulted c w s).sinit = s.sinit := by rfl
@[simp] theorem faulted_res (c : Byte) (w : Word) : (faulted c w s).res = s.res := by rfl
@[simp] theorem faulted_err (c : Byte) (w : Word) : (faulted c w s).err = true := by rfl
@[simp] theorem faulted_ecause (c : Byte) (w : Word) : (faulted c w s).ecause = c := by rfl
@[simp] theorem faulted_ecmd (c : Byte) (w : Word) : (faulted c w s).ecmd = w := by rfl
@[simp] theorem faulted_host (c : Byte) (w : Word) : (faulted c w s).host = s.host := by rfl
@[simp] theorem faulted_seen (c : Byte) (w : Word) : (faulted c w s).seen = s.seen := by rfl

/-- Fault entry in the terms of the claims. -/
theorem State.takeFault_eq_faulted (c : Cause) (w : Word) : s.takeFault c w = faulted c.code w s := by rfl

/-! Views that an update of another part leaves alone. -/

@[simp] theorem State.memWrite_hvInit (a : Nat) (v : Byte) (j : HReg) : (s.memWrite a v).hvInit j = s.hvInit j := by rfl
@[simp] theorem State.memWrite_scalar (a : Nat) (v : Byte) (j : SReg) : (s.memWrite a v).scalar j = s.scalar j := by rfl
@[simp] theorem State.memWrite_scalarInit (a : Nat) (v : Byte) (j : SReg) : (s.memWrite a v).scalarInit j = s.scalarInit j := by rfl
@[simp] theorem State.writeHv_scalar (k : HReg) (v : Hv) (j : SReg) : (s.writeHv k v).scalar j = s.scalar j := by rfl
@[simp] theorem State.writeHv_scalarInit (k : HReg) (v : Hv) (j : SReg) : (s.writeHv k v).scalarInit j = s.scalarInit j := by rfl
@[simp] theorem State.writeScalar_memRead (k : SReg) (v : Scalar) (x : Nat) : (s.writeScalar k v).memRead x = s.memRead x := by rfl
@[simp] theorem State.writeScalar_hv (k : SReg) (v : Scalar) (j : HReg) : (s.writeScalar k v).hv j = s.hv j := by rfl
@[simp] theorem State.writeScalar_hvInit (k : SReg) (v : Scalar) (j : HReg) : (s.writeScalar k v).hvInit j = s.hvInit j := by rfl
@[simp] theorem State.writeRes_memRead (v : Byte) (x : Nat) : (s.writeRes v).memRead x = s.memRead x := by rfl
@[simp] theorem State.writeRes_hv (v : Byte) (j : HReg) : (s.writeRes v).hv j = s.hv j := by rfl
@[simp] theorem State.writeRes_hvInit (v : Byte) (j : HReg) : (s.writeRes v).hvInit j = s.hvInit j := by rfl
@[simp] theorem State.writeRes_scalar (v : Byte) (j : SReg) : (s.writeRes v).scalar j = s.scalar j := by rfl
@[simp] theorem State.writeRes_scalarInit (v : Byte) (j : SReg) : (s.writeRes v).scalarInit j = s.scalarInit j := by rfl
@[simp] theorem State.takeFault_memRead (c : Cause) (w : Word) (x : Nat) : (s.takeFault c w).memRead x = s.memRead x := by rfl
@[simp] theorem State.takeFault_hv (c : Cause) (w : Word) (j : HReg) : (s.takeFault c w).hv j = s.hv j := by rfl
@[simp] theorem State.takeFault_hvInit (c : Cause) (w : Word) (j : HReg) : (s.takeFault c w).hvInit j = s.hvInit j := by rfl
@[simp] theorem State.takeFault_scalar (c : Cause) (w : Word) (j : SReg) : (s.takeFault c w).scalar j = s.scalar j := by rfl
@[simp] theorem State.takeFault_scalarInit (c : Cause) (w : Word) (j : SReg) : (s.takeFault c w).scalarInit j = s.scalarInit j := by rfl
@[simp] theorem State.issue_memRead (m : HostMove) (x : Nat) : (s.issue m).memRead x = s.memRead x := by rfl
@[simp] theorem State.issue_hv (m : HostMove) (j : HReg) : (s.issue m).hv j = s.hv j := by rfl
@[simp] theorem State.issue_hvInit (m : HostMove) (j : HReg) : (s.issue m).hvInit j = s.hvInit j := by rfl
@[simp] theorem State.issue_scalar (m : HostMove) (j : SReg) : (s.issue m).scalar j = s.scalar j := by rfl
@[simp] theorem State.issue_scalarInit (m : HostMove) (j : SReg) : (s.issue m).scalarInit j = s.scalarInit j := by rfl
@[simp] theorem faulted_memRead (c : Byte) (w : Word) (x : Nat) : (faulted c w s).memRead x = s.memRead x := by rfl
@[simp] theorem faulted_hv (c : Byte) (w : Word) (j : HReg) : (faulted c w s).hv j = s.hv j := by rfl
@[simp] theorem faulted_hvInit (c : Byte) (w : Word) (j : HReg) : (faulted c w s).hvInit j = s.hvInit j := by rfl
@[simp] theorem faulted_scalar (c : Byte) (w : Word) (j : SReg) : (faulted c w s).scalar j = s.scalar j := by rfl
@[simp] theorem faulted_scalarInit (c : Byte) (w : Word) (j : SReg) : (faulted c w s).scalarInit j = s.scalarInit j := by rfl

/-! Views when only the host's side of a state changes. -/

@[simp] theorem State.withHost_memRead (ms : List HostMove) (x : Nat) : State.memRead { s with host := ms } x = s.memRead x := by rfl
@[simp] theorem State.withHost_hv (ms : List HostMove) (j : HReg) : State.hv { s with host := ms } j = s.hv j := by rfl
@[simp] theorem State.withHost_hvInit (ms : List HostMove) (j : HReg) : State.hvInit { s with host := ms } j = s.hvInit j := by rfl
@[simp] theorem State.withHost_scalar (ms : List HostMove) (j : SReg) : State.scalar { s with host := ms } j = s.scalar j := by rfl
@[simp] theorem State.withHost_scalarInit (ms : List HostMove) (j : SReg) : State.scalarInit { s with host := ms } j = s.scalarInit j := by rfl

end Sys2Proof.Machine
end

