-- ==== Sys2Proof/Laws/Registers.lean ====
section
/-!
SUPPORT. What a read of a register, a flag or a byte of the store gives after a write: spec/00_scope.md rule R8,
spec/20_memory.md rules R41, R42.
-/

namespace Sys2Proof.Machine

variable (s : State)

/-! ### Bytes of the store -/

@[simp] theorem State.memRead_memWrite (a : Nat) (v : Byte) (x : Nat) :
    (s.memWrite a v).memRead x = if a = x then v else s.memRead x := Memory.read_write _ _ _ _

theorem State.memRead_writeHv (k : HReg) (v : Hv) (x : Nat) :
    (s.writeHv k v).memRead x =
      if hvAddr k ≤ x ∧ x < hvAddr k + 16 then hvByte v (x - hvAddr k) else s.memRead x :=
  Memory.read_store _ _ _ _ _

/-- Byte `j` of `H[k]` is the byte at `16*k + j` (R41). -/
theorem State.hvByte_hv (k : HReg) (j : Nat) (h : j < 16) : hvByte (s.hv k) j = s.memRead (hvAddr k + j) :=
  hvByte_hvOfBytes _ _ h

/-- Registers with the same sixteen bytes hold the same vector. -/
theorem State.hv_congr {s t : State} {k : HReg} (h : ∀ j, j < 16 → t.memRead (hvAddr k + j) = s.memRead (hvAddr k + j)) :
    t.hv k = s.hv k := hvOfBytes_congr h

/-- Where no register's bytes overlap another's. -/
theorem hvAddr_disjoint {j k : HReg} (h : j ≠ k) : hvAddr j + 16 ≤ hvAddr k ∨ hvAddr k + 16 ≤ hvAddr j := by
  have : j.val ≠ k.val := fun e => h (Fin.ext e)
  unfold hvAddr
  omega

theorem hvAddr_bound (k : HReg) : hvAddr k + 16 ≤ 256 := by
  have := k.isLt
  unfold hvAddr
  omega

/-! ### Hypervector registers -/

@[simp] theorem State.hv_writeHv_same (k : HReg) (v : Hv) : (s.writeHv k v).hv k = v := by
  conv_rhs => rw [← hvOfBytes_hvByte v]
  refine hvOfBytes_congr fun j hj => ?_
  rw [State.memRead_writeHv, if_pos ⟨by omega, by omega⟩]
  congr 1
  omega

theorem State.hv_writeHv_of_ne {j k : HReg} (h : j ≠ k) (v : Hv) : (s.writeHv k v).hv j = s.hv j := by
  refine hvOfBytes_congr fun b hb => ?_
  have := hvAddr_disjoint h
  rw [State.memRead_writeHv, if_neg (by omega)]

theorem State.hv_writeHv (j k : HReg) (v : Hv) : (s.writeHv k v).hv j = if j = k then v else s.hv j := by
  by_cases h : j = k
  · subst h; simp
  · rw [State.hv_writeHv_of_ne s h, if_neg h]

/-- `H[j]` after one byte is written at `16*k + i`. -/
theorem State.hv_memWrite_of_ne {j k : HReg} (h : j ≠ k) (i : Nat) (hi : i < 16) (v : Byte) :
    (s.memWrite (hvAddr k + i) v).hv j = s.hv j := by
  refine hvOfBytes_congr fun b hb => ?_
  have := hvAddr_disjoint h
  rw [State.memRead_memWrite, if_neg (by omega)]

/-! ### Flags -/

theorem setFlag_getLsbD (flags : BitVec 16) (k : Fin 16) (j : Nat) :
    (setFlag flags k).getLsbD j = (decide (k.val = j) || flags.getLsbD j) := by
  have := k.isLt
  simp [setFlag, BitVec.getLsbD_or, BitVec.getLsbD_twoPow, this, Bool.or_comm]

@[simp] theorem State.hvInit_writeHv (j k : HReg) (v : Hv) :
    (s.writeHv k v).hvInit j = (decide (k = j) || s.hvInit j) := by
  unfold State.hvInit
  rw [State.writeHv_hinit, setFlag_getLsbD]
  simp [Fin.ext_iff]

@[simp] theorem State.scalarInit_writeScalar (j k : SReg) (v : Scalar) :
    (s.writeScalar k v).scalarInit j = (decide (k = j) || s.scalarInit j) := by
  unfold State.scalarInit
  rw [State.writeScalar_sinit, setFlag_getLsbD]
  simp [Fin.ext_iff]

@[simp] theorem State.blockReset_hvInit (k : HReg) : s.blockReset.hvInit k = false := by
  simp [State.hvInit]

@[simp] theorem State.blockReset_scalarInit (k : SReg) : s.blockReset.scalarInit k = false := by
  simp [State.scalarInit]

/-- A flag word is its sixteen flags. -/
theorem flags_ext {f g : BitVec 16} (h : ∀ k : Fin 16, f.getLsbD k.val = g.getLsbD k.val) : f = g :=
  BitVec.eq_of_getLsbD_eq fun i hi => h ⟨i, hi⟩

/-- Writing an initialised register leaves the flag word as it is. -/
theorem setFlag_of_set {flags : BitVec 16} {k : Fin 16} (h : flags.getLsbD k.val = true) : setFlag flags k = flags := by
  apply flags_ext
  intro j
  rw [setFlag_getLsbD]
  by_cases e : k.val = j.val
  · simp [← e, h]
  · simp [e]

/-! ### Scalar registers -/

theorem State.scalar_writeScalar (j k : SReg) (v : Scalar) :
    (s.writeScalar k v).scalar j = if j = k then v else s.scalar j := by
  unfold State.scalar
  simp only [State.writeScalar_scalars]
  rw [Vector.getElem_set]
  by_cases h : j = k
  · subst h; simp
  · have : ¬ k.val = j.val := fun e => h (Fin.ext e.symm)
    simp [h, this]

@[simp] theorem State.scalar_writeScalar_same (k : SReg) (v : Scalar) : (s.writeScalar k v).scalar k = v := by
  simp [State.scalar_writeScalar]

/-! ### The canonical form and the frames -/

theorem State.wf_memWrite {a : Nat} (v : Byte) (h : Memory.wf s.hvmem = true) (ha : a < 256) :
    Memory.wf (s.memWrite a v).hvmem = true := Memory.wf_write v h ha

theorem State.wf_writeHv (k : HReg) (v : Hv) (h : Memory.wf s.hvmem = true) :
    Memory.wf (s.writeHv k v).hvmem = true := Memory.wf_store _ _ h (hvAddr_bound k)

/-- The reset memory has the canonical form. -/
theorem State.reset_mem_wf : Memory.wf State.reset.hvmem = true := rfl

/-- All that a whole-register write does. -/
theorem State.writeHv_frame (k : HReg) (v : Hv) : OnlyHvChanged k s (s.writeHv k v) where
  init := by simp
  memory a h := by rw [State.memRead_writeHv, if_neg (by omega)]
  others j h := ⟨State.hv_writeHv_of_ne s h v, by simp [Ne.symm h]⟩
  scalars := rfl
  sinit := rfl
  res := rfl
  err := rfl
  ecause := rfl
  ecmd := rfl
  host := rfl
  seen := rfl

/-- All that a byte write does. -/
theorem State.memWrite_frame (a : Nat) (v : Byte) : OnlyByteChanged a s (s.memWrite a v) where
  memory x h := by rw [State.memRead_memWrite, if_neg (Ne.symm h)]
  hinit := rfl
  scalars := rfl
  sinit := rfl
  res := rfl
  err := rfl
  ecause := rfl
  ecmd := rfl
  host := rfl
  seen := rfl

/-- All that a scalar write does. -/
theorem State.writeScalar_frame (k : SReg) (v : Scalar) : OnlyScalarChanged k s (s.writeScalar k v) where
  init := by simp
  others j h := ⟨by rw [State.scalar_writeScalar, if_neg h], by simp [Ne.symm h]⟩
  hvmem := rfl
  hinit := rfl
  res := rfl
  err := rfl
  ecause := rfl
  ecmd := rfl
  host := rfl
  seen := rfl

end Sys2Proof.Machine
end

