-- ==== Sys2Proof/Laws/Command.lean ====
section
/-!
SUPPORT. What executing a command can do, said once: either its first fault (spec/30_encoding.md rule R76 steps 3 and 4,
spec/60_exceptions.md rule R208), or its result. Every invariant and frame follows from `exec_eq`.
-/

namespace Sys2Proof.Machine

/-- The result of each command, its destination written (R76 step 5). -/
def resultOf (i : Instr) (s : State) : State :=
  match i with
  | .bind hd ha hb => s.writeHv hd (s.hv ha ^^^ s.hv hb)
  | .or hd ha hb => s.writeHv hd (s.hv ha ||| s.hv hb)
  | .and hd ha hb => s.writeHv hd (s.hv ha &&& s.hv hb)
  | .bundle hd ha => s.writeHv hd (s.hv hd ||| s.hv ha)
  | .popc8 byte => s.writeRes (BitVec.ofNat 8 (popcount8 byte))
  | .popc ha => s.writeRes (BitVec.ofNat 8 (popcount (s.hv ha)))
  | .hamm ha hb => s.writeRes (BitVec.ofNat 8 (hamming (s.hv ha) (s.hv hb)))
  | .sim ha hb => s.writeRes (BitVec.ofNat 8 (128 - hamming (s.hv ha) (s.hv hb)))
  | .perm hd shift => s.writeHv hd (rotl128 (s.hv hd) shift.toNat)
  | .clear hd => s.writeHv hd 0#128
  | .fill hd value => s.writeHv hd (fillHv value)
  | .copy hd ha => s.writeHv hd (s.hv ha)
  | .therm hd sv sm => s.writeHv hd (encodeReading (s.scalar sv).toNat (s.scalar sm).toNat)
  | .therms hd sv smin smax =>
    s.writeHv hd (encodeReading (sint16 (s.scalar sv) - sint16 (s.scalar smin)).toNat
      (sint16 (s.scalar smax) - sint16 (s.scalar smin)).toNat)
  | .encch hd sv sm hb =>
    s.writeHv hd (s.hv hd ||| (encodeReading (s.scalar sv).toNat (s.scalar sm).toNat ^^^ s.hv hb))
  | .sets sd value => s.writeScalar sd value
  | .setb hd idx byte => s.memWrite (byteAddr hd idx) byte
  | .getb ha idx => s.writeRes (s.memRead (byteAddr ha idx))

/-- The initialisation checks in the terms of `find?`: the first register not ready, by its class. -/
theorem firstUninit_eq (s : State) (rs : List RegRead) :
    firstUninit s rs = (rs.find? fun r => !r.ready s).map RegRead.cause := by
  induction rs with
  | nil => rfl
  | cons r rs ih =>
    unfold firstUninit
    by_cases h : r.ready s = true
    · simp [h, ih]
    · simp [h]

/-- All that `command` can answer: the fault of the first check that fails, else `done`. -/
theorem command_eq (i : Instr) (reads : List RegRead) (vc : Option Cause) (s done : State) :
    command i reads vc s done =
      .next (match firstUninit s reads <|> vc with
        | some c => s.takeFault c (encode i)
        | none => done) := by
  unfold command
  cases firstUninit s reads <;> cases vc <;> rfl

/-- The command form of every arm. -/
theorem exec_eq_command (i : Instr) (s : State) :
    ∃ vc : Option Cause, exec i s = command i (readsOf i) vc s (resultOf i s) ∧ vc.map Cause.code = valueFaultOf i s := by
  cases i with
  | therm hd sv sm =>
    refine ⟨boundCheck (s.scalar sm).toNat, rfl, ?_⟩
    by_cases h : (s.scalar sm).toNat = 0 <;> simp [boundCheck, valueFaultOf, h, Cause.code]
  | encch hd sv sm hb =>
    refine ⟨boundCheck (s.scalar sm).toNat, rfl, ?_⟩
    by_cases h : (s.scalar sm).toNat = 0 <;> simp [boundCheck, valueFaultOf, h, Cause.code]
  | therms hd sv smin smax =>
    refine ⟨_, rfl, ?_⟩
    simp only [rangeCheck, valueFaultOf]
    split
    · rfl
    · split <;> rfl
  | _ => exact ⟨none, rfl, rfl⟩

/-- The next state of a command: the entry of its first fault, or its result. -/
def nextOf (i : Instr) (s : State) : State :=
  match firstFaultOf i s with
  | some c => faulted c (encode i) s
  | none => resultOf i s

theorem nextOf_of_fault {i : Instr} {s : State} {c : Byte} (h : firstFaultOf i s = some c) :
    nextOf i s = faulted c (encode i) s := by unfold nextOf; rw [h]

theorem nextOf_of_ready {i : Instr} {s : State} (h : firstFaultOf i s = none) : nextOf i s = resultOf i s := by
  unfold nextOf; rw [h]

/-- All that a command can do: it has a next state, which is the entry of its first fault, or its result. -/
theorem exec_eq (i : Instr) (s : State) : exec i s = .next (nextOf i s) := by
  obtain ⟨vc, h, hv⟩ := exec_eq_command i s
  rw [h, command_eq, firstUninit_eq]
  unfold nextOf firstFaultOf
  cases hr : (readsOf i).find? fun r => !r.ready s with
  | some r => cases r <;> rfl
  | none =>
    rw [← hv]
    cases vc <;> rfl

/-- A command whose first fault is known. -/
theorem exec_of_fault {i : Instr} {s : State} {c : Byte} (h : firstFaultOf i s = some c) :
    exec i s = .next (faulted c (encode i) s) := by rw [exec_eq, nextOf_of_fault h]

/-- A command with no fault. -/
theorem exec_of_ready {i : Instr} {s : State} (h : firstFaultOf i s = none) : exec i s = .next (resultOf i s) := by
  rw [exec_eq, nextOf_of_ready h]

/-- The codes a command can raise lie between 2 and 6 (R200). -/
theorem firstFaultOf_range {i : Instr} {s : State} {c : Byte} (h : firstFaultOf i s = some c) :
    2 ≤ c.toNat ∧ c.toNat ≤ 6 := by
  unfold firstFaultOf at h
  cases hr : (readsOf i).find? fun r => !r.ready s with
  | some r =>
    rw [hr] at h
    cases r <;> (cases h; decide)
  | none =>
    rw [hr] at h
    replace h : valueFaultOf i s = some c := h
    cases i <;> simp only [valueFaultOf, reduceCtorEq] at h <;> split at h <;>
      first
      | (cases h; decide)
      | (split at h <;> (cases h; try decide))
      | cases h

/-- The result of a command leaves the fault registers and the host's side as they are. -/
theorem resultOf_quiet (i : Instr) (s : State) :
    (resultOf i s).err = s.err ∧ (resultOf i s).ecause = s.ecause ∧ (resultOf i s).ecmd = s.ecmd ∧
      (resultOf i s).host = s.host ∧ (resultOf i s).seen = s.seen := by
  cases i <;> simp [resultOf]

/-- The result of a command keeps the canonical form. -/
theorem resultOf_wf (i : Instr) {s : State} (h : Memory.wf s.hvmem = true) : Memory.wf (resultOf i s).hvmem = true := by
  cases i with
  | setb hd idx byte =>
    rw [resultOf]
    refine State.wf_memWrite s _ h ?_
    have := hvAddr_bound hd
    have := idx.isLt
    unfold byteAddr
    omega
  | popc8 | popc | hamm | sim | getb => rw [resultOf, State.writeRes_hvmem]; exact h
  | sets => rw [resultOf, State.writeScalar_hvmem]; exact h
  | bind | or | and | bundle | perm | clear | fill | copy | therm | therms | encch =>
    rw [resultOf]; exact State.wf_writeHv s _ _ h

end Sys2Proof.Machine
end

