-- ==== Sys2Proof/Laws/Count.lean ====
section
/-!
SUPPORT. A population count is the number of bits that are 1, byte by byte or bit by bit: spec/40_popcount.md rules R100,
R101.
-/

namespace Sys2Proof.Machine

theorem popcount8_eq_sum (b : Byte) : popcount8 b = ∑ t ∈ Finset.range 8, (b.getLsbD t).toNat := by
  simp [popcount8, bitSum, Finset.sum_range_succ]

theorem byteCountSum_eq_sum (v : Hv) (n : Nat) :
    byteCountSum v n = ∑ i ∈ Finset.range (8 * n), (v.getLsbD i).toNat := by
  induction n with
  | zero => rfl
  | succ n ih =>
    rw [byteCountSum, ih, popcount8_eq_sum, show 8 * (n + 1) = 8 * n + 8 from by ring, Finset.sum_range_add]
    congr 1
    refine Finset.sum_congr rfl fun t ht => ?_
    rw [hvByte_getLsbD _ _ _ (Finset.mem_range.mp ht)]

/-- `popcount(v) = Σ_{i<128} v[i]` (R101). -/
theorem popcount_eq_sum (v : Hv) : popcount v = ∑ i ∈ Finset.range 128, (v.getLsbD i).toNat :=
  byteCountSum_eq_sum v 16

theorem popcount8_le (b : Byte) : popcount8 b ≤ 8 := by
  rw [popcount8_eq_sum]
  refine (Finset.sum_le_card_nsmul _ _ 1 fun t _ => ?_).trans (by simp)
  cases b.getLsbD t <;> decide

/-- A count is in `[0, 128]` (R101). -/
theorem popcount_le (v : Hv) : popcount v ≤ 128 := by
  rw [popcount_eq_sum]
  refine (Finset.sum_le_card_nsmul _ _ 1 fun t _ => ?_).trans (by simp)
  cases v.getLsbD t <;> decide

/-- A count fits `RES` (R101). -/
theorem toNat_ofNat_popcount (v : Hv) : (BitVec.ofNat 8 (popcount v)).toNat = popcount v := by
  have := popcount_le v
  rw [BitVec.toNat_ofNat]
  omega

/-- Fewer bits, smaller count. -/
theorem popcount_mono {v w : Hv} (h : ∀ i, i < 128 → v.getLsbD i = true → w.getLsbD i = true) :
    popcount v ≤ popcount w := by
  rw [popcount_eq_sum, popcount_eq_sum]
  refine Finset.sum_le_sum fun i hi => ?_
  have := h i (Finset.mem_range.mp hi)
  cases hv : v.getLsbD i
  · simp
  · simp [this hv]

/-- Only the zero vector has count 0. -/
theorem popcount_eq_zero_iff (v : Hv) : popcount v = 0 ↔ v = 0#128 := by
  constructor
  · intro h
    rw [popcount_eq_sum, Finset.sum_eq_zero_iff] at h
    apply BitVec.eq_of_getLsbD_eq
    intro i hi
    have := h i (Finset.mem_range.mpr hi)
    cases hv : v.getLsbD i
    · simp
    · simp [hv] at this
  · rintro rfl
    simp [popcount_eq_sum]

/-- A vector and its complement share the 128 bits. -/
theorem popcount_add_not (v : Hv) : popcount v + popcount (~~~v) = 128 := by
  rw [popcount_eq_sum, popcount_eq_sum, ← Finset.sum_add_distrib]
  have : ∀ i ∈ Finset.range 128, (v.getLsbD i).toNat + ((~~~v).getLsbD i).toNat = 1 := by
    intro i hi
    have hi' := Finset.mem_range.mp hi
    rw [BitVec.getLsbD_not]
    cases v.getLsbD i <;> simp [hi']
  rw [Finset.sum_congr rfl this]
  simp

end Sys2Proof.Machine
end

