-- ==== Sys2Proof/Laws/Encoder.lean ====
section
/-!
SUPPORT. The bits of a thermometer code and the range of a level: spec/45_thermometer.md rules R150, R151; the range of a
two's-complement reading: spec/00_scope.md rule R8.
-/

namespace Sys2Proof.Machine

/-- Bits `0 .. L-1` of `therm(L)` are 1, the others 0 (R151). -/
theorem therm_getLsbD (l i : Nat) (hi : i < 128) : (therm l).getLsbD i = decide (i < l) := by
  rw [therm, BitVec.getLsbD_ofNat, Nat.testBit_two_pow_sub_one]
  simp [hi]

/-- On the unsaturated branch the level is at most 127 (R150). -/
theorem level_lt (x m : Nat) (h : x < m) : level x m < 128 := by
  rw [level, if_neg (by omega)]
  exact Nat.div_lt_of_lt_mul (by omega)

/-- A level is in `[0, 128]` (R150). -/
theorem level_le (x m : Nat) : level x m ≤ 128 := by
  by_cases h : m ≤ x
  · simp [level, h]
  · exact (level_lt x m (by omega)).le

/-- A level is reached exactly when the product passes its threshold (R152, R156). -/
theorem lt_level_iff (x m i : Nat) (hm : 0 < m) (hi : i < 128) : i < level x m ↔ (i + 1) * m ≤ x * 128 := by
  unfold level
  split <;> rename_i h
  · refine iff_of_true hi ?_
    calc (i + 1) * m ≤ 128 * m := Nat.mul_le_mul_right _ (by omega)
      _ ≤ x * 128 := by omega
  · exact Nat.le_div_iff_mul_le hm

/-- The comparator form of an encoded reading (R152). -/
theorem encodeReading_getLsbD (x m i : Nat) (hm : 0 < m) (hi : i < 128) :
    (encodeReading x m).getLsbD i = decide ((i + 1) * m ≤ x * 128) := by
  rw [encodeReading, therm_getLsbD _ _ hi]
  simp only [lt_level_iff x m i hm hi]

/-- A two's-complement reading is in `[-32768, 32767]` (R24). -/
theorem sint16_range (x : Scalar) : -32768 ≤ sint16 x ∧ sint16 x ≤ 32767 := by
  have hx := x.isLt
  have hm : x.getLsbD 15 = decide (32768 ≤ x.toNat) := by
    rw [← BitVec.testBit_toNat, Nat.testBit_eq_decide_div_mod_eq]
    congr 1
    apply propext
    omega
  unfold sint16
  rw [hm]
  by_cases h : 32768 ≤ x.toNat <;> simp [h] <;> omega

end Sys2Proof.Machine
end

