-- ==== Sys2Proof/Laws/Encoding.lean ====
section
/-!
SUPPORT. The fields of a word laid out from its fields, and a word laid out again from its fields: spec/30_encoding.md
rules R61, R62.
-/

namespace Sys2Proof

@[simp] theorem regOf_nibble (k : Fin 16) : regOf (nibble k) = k := by
  apply Fin.ext
  have := k.isLt
  simp [regOf, nibble]

@[simp] theorem nibble_regOf (f : BitVec 4) : nibble (regOf f) = f := by
  simp [regOf, nibble]

/-! ### Bits of fields and of laid-out words -/

theorem fieldOp_getLsbD (w : Word) (i : Nat) : (fieldOp w).getLsbD i = (decide (i < 8) && w.getLsbD (24 + i)) :=
  BitVec.getLsbD_extractLsb' ..
theorem fieldA_getLsbD (w : Word) (i : Nat) : (fieldA w).getLsbD i = (decide (i < 4) && w.getLsbD (20 + i)) :=
  BitVec.getLsbD_extractLsb' ..
theorem fieldB_getLsbD (w : Word) (i : Nat) : (fieldB w).getLsbD i = (decide (i < 4) && w.getLsbD (16 + i)) :=
  BitVec.getLsbD_extractLsb' ..
theorem fieldC_getLsbD (w : Word) (i : Nat) : (fieldC w).getLsbD i = (decide (i < 4) && w.getLsbD (12 + i)) :=
  BitVec.getLsbD_extractLsb' ..
theorem fieldE_getLsbD (w : Word) (i : Nat) : (fieldE w).getLsbD i = (decide (i < 4) && w.getLsbD (8 + i)) :=
  BitVec.getLsbD_extractLsb' ..
theorem fieldI8_getLsbD (w : Word) (i : Nat) : (fieldI8 w).getLsbD i = (decide (i < 8) && w.getLsbD (0 + i)) :=
  BitVec.getLsbD_extractLsb' ..
theorem fieldI16_getLsbD (w : Word) (i : Nat) : (fieldI16 w).getLsbD i = (decide (i < 16) && w.getLsbD (0 + i)) :=
  BitVec.getLsbD_extractLsb' ..

theorem wordOf_getLsbD (op : Byte) (a b c e : BitVec 4) (i8 : Byte) (i : Nat) :
    (wordOf op a b c e i8).getLsbD i =
      if i < 8 then i8.getLsbD i
      else if i < 12 then e.getLsbD (i - 8)
      else if i < 16 then c.getLsbD (i - 12)
      else if i < 20 then b.getLsbD (i - 16)
      else if i < 24 then a.getLsbD (i - 20)
      else op.getLsbD (i - 24) := by
  change (op ++ a ++ b ++ c ++ e ++ i8).getLsbD i = _
  rw [BitVec.getLsbD_append, BitVec.getLsbD_append, BitVec.getLsbD_append, BitVec.getLsbD_append, BitVec.getLsbD_append]
  simp only [Nat.sub_sub, Nat.reduceAdd]
  split_ifs <;> first | rfl | omega

theorem wordOf16_getLsbD (op : Byte) (a : BitVec 4) (i16 : BitVec 16) (i : Nat) :
    (wordOf16 op a i16).getLsbD i =
      if i < 16 then i16.getLsbD i
      else if i < 20 then false
      else if i < 24 then a.getLsbD (i - 20)
      else op.getLsbD (i - 24) := by
  change (op ++ a ++ 0#4 ++ i16).getLsbD i = _
  rw [BitVec.getLsbD_append, BitVec.getLsbD_append, BitVec.getLsbD_append]
  simp only [Nat.sub_sub, Nat.reduceAdd, BitVec.getLsbD_zero]
  split_ifs <;> first | rfl | omega

/-! ### Fields of laid-out words -/

section Fields
variable (op : Byte) (a b c e : BitVec 4) (i8 : Byte) (i16 : BitVec 16)

@[simp] theorem fieldOp_wordOf : fieldOp (wordOf op a b c e i8) = op := by
  apply BitVec.eq_of_getLsbD_eq; intro i hi
  rw [fieldOp_getLsbD, wordOf_getLsbD]
  repeat rw [if_neg (by omega)]
  simp [hi]

@[simp] theorem fieldA_wordOf : fieldA (wordOf op a b c e i8) = a := by
  apply BitVec.eq_of_getLsbD_eq; intro i hi
  rw [fieldA_getLsbD, wordOf_getLsbD, if_neg (by omega), if_neg (by omega), if_neg (by omega), if_neg (by omega),
    if_pos (by omega)]
  simp [hi]

@[simp] theorem fieldB_wordOf : fieldB (wordOf op a b c e i8) = b := by
  apply BitVec.eq_of_getLsbD_eq; intro i hi
  rw [fieldB_getLsbD, wordOf_getLsbD, if_neg (by omega), if_neg (by omega), if_neg (by omega), if_pos (by omega)]
  simp [hi]

@[simp] theorem fieldC_wordOf : fieldC (wordOf op a b c e i8) = c := by
  apply BitVec.eq_of_getLsbD_eq; intro i hi
  rw [fieldC_getLsbD, wordOf_getLsbD, if_neg (by omega), if_neg (by omega), if_pos (by omega)]
  simp [hi]

@[simp] theorem fieldE_wordOf : fieldE (wordOf op a b c e i8) = e := by
  apply BitVec.eq_of_getLsbD_eq; intro i hi
  rw [fieldE_getLsbD, wordOf_getLsbD, if_neg (by omega), if_pos (by omega)]
  simp [hi]

@[simp] theorem fieldI8_wordOf : fieldI8 (wordOf op a b c e i8) = i8 := by
  apply BitVec.eq_of_getLsbD_eq; intro i hi
  rw [fieldI8_getLsbD, wordOf_getLsbD, if_pos (by omega)]
  simp [hi]

@[simp] theorem fieldOp_wordOf16 : fieldOp (wordOf16 op a i16) = op := by
  apply BitVec.eq_of_getLsbD_eq; intro i hi
  rw [fieldOp_getLsbD, wordOf16_getLsbD, if_neg (by omega), if_neg (by omega), if_neg (by omega)]
  simp [hi]

@[simp] theorem fieldA_wordOf16 : fieldA (wordOf16 op a i16) = a := by
  apply BitVec.eq_of_getLsbD_eq; intro i hi
  rw [fieldA_getLsbD, wordOf16_getLsbD, if_neg (by omega), if_neg (by omega), if_pos (by omega)]
  simp [hi]

@[simp] theorem fieldI16_wordOf16 : fieldI16 (wordOf16 op a i16) = i16 := by
  apply BitVec.eq_of_getLsbD_eq; intro i hi
  rw [fieldI16_getLsbD, wordOf16_getLsbD, if_pos (by omega)]
  simp [hi]

end Fields

/-! ### A word is laid out from its own fields -/

/-- Every word is its six fields laid out. -/
theorem wordOf_fields (w : Word) :
    wordOf (fieldOp w) (fieldA w) (fieldB w) (fieldC w) (fieldE w) (fieldI8 w) = w := by
  apply BitVec.eq_of_getLsbD_eq; intro i hi
  rw [wordOf_getLsbD]
  simp only [fieldOp_getLsbD, fieldA_getLsbD, fieldB_getLsbD, fieldC_getLsbD, fieldE_getLsbD, fieldI8_getLsbD]
  split_ifs <;> (rw [decide_eq_true (by omega), Bool.true_and]; congr 1; omega)

/-- The word of an `AI16` command in the six fields. -/
theorem wordOf16_eq_wordOf (op : Byte) (a : BitVec 4) (i16 : BitVec 16) :
    wordOf16 op a i16 = wordOf op a 0#4 (i16.extractLsb' 12 4) (i16.extractLsb' 8 4) (i16.extractLsb' 0 8) := by
  apply BitVec.eq_of_getLsbD_eq; intro i hi
  rw [wordOf16_getLsbD, wordOf_getLsbD]
  simp only [BitVec.getLsbD_extractLsb', BitVec.getLsbD_zero]
  split_ifs <;> first
    | omega
    | rfl
    | (rw [decide_eq_true (by omega), Bool.true_and]; congr 1; omega)

/-- The spec's way of writing a word: fields shifted into place and joined (R100 to R172). -/
theorem wordOf_eq_or (op : Byte) (a b c e : BitVec 4) (i8 : Byte) :
    wordOf op a b c e i8 =
      op.setWidth 32 <<< 24 ||| a.setWidth 32 <<< 20 ||| b.setWidth 32 <<< 16 ||| c.setWidth 32 <<< 12
        ||| e.setWidth 32 <<< 8 ||| i8.setWidth 32 := by
  apply BitVec.eq_of_getLsbD_eq; intro i hi
  rw [wordOf_getLsbD]
  simp only [BitVec.getLsbD_or, BitVec.getLsbD_shiftLeft, BitVec.getLsbD_setWidth]
  interval_cases i <;> simp

/-- The same for an `AI16` command. -/
theorem wordOf16_eq_or (op : Byte) (a : BitVec 4) (i16 : BitVec 16) :
    wordOf16 op a i16 = op.setWidth 32 <<< 24 ||| a.setWidth 32 <<< 20 ||| i16.setWidth 32 := by
  apply BitVec.eq_of_getLsbD_eq; intro i hi
  rw [wordOf16_getLsbD]
  simp only [BitVec.getLsbD_or, BitVec.getLsbD_shiftLeft, BitVec.getLsbD_setWidth]
  interval_cases i <;> simp

/-! ### Masks -/

/-- The bits a format's mask selects are right exactly when the reserved fields are 0, for the formats without `i16`
(R62). -/
theorem mask_eq_iff (f : Format) (w : Word) :
    w &&& f.mask = matchOf (fieldOp w) ↔ ∀ i, i < 24 → f.mask.getLsbD i = true → w.getLsbD i = false := by
  have hm : ∀ i, (matchOf (fieldOp w)).getLsbD i = if i < 24 then false else (fieldOp w).getLsbD (i - 24) := by
    intro i
    change (fieldOp w ++ 0#24).getLsbD i = _
    rw [BitVec.getLsbD_append, BitVec.getLsbD_zero]
  have hop : ∀ i, 24 ≤ i → i < 32 → f.mask.getLsbD i = true := by
    intro i h1 h2
    cases f <;> (interval_cases i <;> decide)
  constructor
  · intro h i hi hf
    have := congrArg (fun x => BitVec.getLsbD x i) h
    simpa [hm, hi, hf, BitVec.getLsbD_and] using this
  · intro h
    apply BitVec.eq_of_getLsbD_eq; intro i hi
    rw [BitVec.getLsbD_and, hm]
    split <;> rename_i hlt
    · cases hf : f.mask.getLsbD i
      · simp
      · simp [h i hlt hf]
    · rw [hop i (by omega) hi, fieldOp_getLsbD, decide_eq_true (by omega)]
      simp only [Bool.and_true, Bool.true_and]
      congr 1
      omega

/-- A field whose bits are all 0. -/
theorem field_eq_zero {n : Nat} {x : BitVec n} (h : ∀ i, i < n → x.getLsbD i = false) : x = 0#n := by
  apply BitVec.eq_of_getLsbD_eq; intro i hi
  rw [h i hi, BitVec.getLsbD_zero]

section Formats
variable {w : Word} (op : Byte) (a b c e : BitVec 4) (i8 : Byte) (i16 : BitVec 16)

/-- A word of format `ABC` has its reserved bits 0 (R62). -/
@[simp] theorem mask_abc : wordOf op a b c 0#4 0#8 &&& Format.abc.mask = matchOf op := by
  have h := (mask_eq_iff .abc (wordOf op a b c 0#4 0#8)).mpr (by
    intro i hi hf
    rw [wordOf_getLsbD]
    interval_cases i <;> first | exact absurd hf (by decide) | simp)
  rwa [fieldOp_wordOf] at h

/-- A word of format `AB` has its reserved bits 0 (R62). -/
@[simp] theorem mask_ab : wordOf op a b 0#4 0#4 0#8 &&& Format.ab.mask = matchOf op := by
  have h := (mask_eq_iff .ab (wordOf op a b 0#4 0#4 0#8)).mpr (by
    intro i hi hf
    rw [wordOf_getLsbD]
    interval_cases i <;> first | exact absurd hf (by decide) | simp)
  rwa [fieldOp_wordOf] at h

/-- A word of format `A` has its reserved bits 0 (R62). -/
@[simp] theorem mask_a : wordOf op a 0#4 0#4 0#4 0#8 &&& Format.a.mask = matchOf op := by
  have h := (mask_eq_iff .a (wordOf op a 0#4 0#4 0#4 0#8)).mpr (by
    intro i hi hf
    rw [wordOf_getLsbD]
    interval_cases i <;> first | exact absurd hf (by decide) | simp)
  rwa [fieldOp_wordOf] at h

/-- A word of format `AI8` has its reserved bits 0 (R62). -/
@[simp] theorem mask_ai8 : wordOf op a 0#4 0#4 0#4 i8 &&& Format.ai8.mask = matchOf op := by
  have h := (mask_eq_iff .ai8 (wordOf op a 0#4 0#4 0#4 i8)).mpr (by
    intro i hi hf
    rw [wordOf_getLsbD]
    interval_cases i <;> first | exact absurd hf (by decide) | simp)
  rwa [fieldOp_wordOf] at h

/-- A word of format `ABI8` has its reserved bits 0 (R62). -/
@[simp] theorem mask_abi8 : wordOf op a b 0#4 0#4 i8 &&& Format.abi8.mask = matchOf op := by
  have h := (mask_eq_iff .abi8 (wordOf op a b 0#4 0#4 i8)).mpr (by
    intro i hi hf
    rw [wordOf_getLsbD]
    interval_cases i <;> first | exact absurd hf (by decide) | simp)
  rwa [fieldOp_wordOf] at h

/-- A word of format `I8` has its reserved bits 0 (R62). -/
@[simp] theorem mask_i8 : wordOf op 0#4 0#4 0#4 0#4 i8 &&& Format.i8.mask = matchOf op := by
  have h := (mask_eq_iff .i8 (wordOf op 0#4 0#4 0#4 0#4 i8)).mpr (by
    intro i hi hf
    rw [wordOf_getLsbD]
    interval_cases i <;> first | exact absurd hf (by decide) | simp)
  rwa [fieldOp_wordOf] at h

/-- A word of format `ABCE` has its reserved bits 0 (R62). -/
@[simp] theorem mask_abce : wordOf op a b c e 0#8 &&& Format.abce.mask = matchOf op := by
  have h := (mask_eq_iff .abce (wordOf op a b c e 0#8)).mpr (by
    intro i hi hf
    rw [wordOf_getLsbD]
    interval_cases i <;> first | exact absurd hf (by decide) | simp)
  rwa [fieldOp_wordOf] at h

/-- A word of format `AI16` has its reserved bits 0 (R62). -/
@[simp] theorem mask_ai16 : wordOf16 op a i16 &&& Format.ai16.mask = matchOf op := by
  have h := (mask_eq_iff .ai16 (wordOf16 op a i16)).mpr (by
    intro i hi hf
    rw [wordOf16_getLsbD]
    interval_cases i <;> first | exact absurd hf (by decide) | simp)
  rwa [fieldOp_wordOf16] at h

/-- A word whose reserved bits are 0 is laid out from the fields of format `ABC` (R62). -/
theorem eq_of_mask_abc (h : w &&& Format.abc.mask = matchOf (fieldOp w)) :
    w = wordOf (fieldOp w) (fieldA w) (fieldB w) (fieldC w) 0#4 0#8 := by
  rw [mask_eq_iff] at h
  have hfieldE : fieldE w = 0#4 := field_eq_zero fun i hi => by
    rw [fieldE_getLsbD, h _ (by omega) (by interval_cases i <;> decide), Bool.and_false]
  have hfieldI8 : fieldI8 w = 0#8 := field_eq_zero fun i hi => by
    rw [fieldI8_getLsbD, h _ (by omega) (by interval_cases i <;> decide), Bool.and_false]
  conv_lhs => rw [← wordOf_fields w, hfieldE, hfieldI8]

/-- A word whose reserved bits are 0 is laid out from the fields of format `AB` (R62). -/
theorem eq_of_mask_ab (h : w &&& Format.ab.mask = matchOf (fieldOp w)) :
    w = wordOf (fieldOp w) (fieldA w) (fieldB w) 0#4 0#4 0#8 := by
  rw [mask_eq_iff] at h
  have hfieldC : fieldC w = 0#4 := field_eq_zero fun i hi => by
    rw [fieldC_getLsbD, h _ (by omega) (by interval_cases i <;> decide), Bool.and_false]
  have hfieldE : fieldE w = 0#4 := field_eq_zero fun i hi => by
    rw [fieldE_getLsbD, h _ (by omega) (by interval_cases i <;> decide), Bool.and_false]
  have hfieldI8 : fieldI8 w = 0#8 := field_eq_zero fun i hi => by
    rw [fieldI8_getLsbD, h _ (by omega) (by interval_cases i <;> decide), Bool.and_false]
  conv_lhs => rw [← wordOf_fields w, hfieldC, hfieldE, hfieldI8]

/-- A word whose reserved bits are 0 is laid out from the fields of format `A` (R62). -/
theorem eq_of_mask_a (h : w &&& Format.a.mask = matchOf (fieldOp w)) :
    w = wordOf (fieldOp w) (fieldA w) 0#4 0#4 0#4 0#8 := by
  rw [mask_eq_iff] at h
  have hfieldB : fieldB w = 0#4 := field_eq_zero fun i hi => by
    rw [fieldB_getLsbD, h _ (by omega) (by interval_cases i <;> decide), Bool.and_false]
  have hfieldC : fieldC w = 0#4 := field_eq_zero fun i hi => by
    rw [fieldC_getLsbD, h _ (by omega) (by interval_cases i <;> decide), Bool.and_false]
  have hfieldE : fieldE w = 0#4 := field_eq_zero fun i hi => by
    rw [fieldE_getLsbD, h _ (by omega) (by interval_cases i <;> decide), Bool.and_false]
  have hfieldI8 : fieldI8 w = 0#8 := field_eq_zero fun i hi => by
    rw [fieldI8_getLsbD, h _ (by omega) (by interval_cases i <;> decide), Bool.and_false]
  conv_lhs => rw [← wordOf_fields w, hfieldB, hfieldC, hfieldE, hfieldI8]

/-- A word whose reserved bits are 0 is laid out from the fields of format `AI8` (R62). -/
theorem eq_of_mask_ai8 (h : w &&& Format.ai8.mask = matchOf (fieldOp w)) :
    w = wordOf (fieldOp w) (fieldA w) 0#4 0#4 0#4 (fieldI8 w) := by
  rw [mask_eq_iff] at h
  have hfieldB : fieldB w = 0#4 := field_eq_zero fun i hi => by
    rw [fieldB_getLsbD, h _ (by omega) (by interval_cases i <;> decide), Bool.and_false]
  have hfieldC : fieldC w = 0#4 := field_eq_zero fun i hi => by
    rw [fieldC_getLsbD, h _ (by omega) (by interval_cases i <;> decide), Bool.and_false]
  have hfieldE : fieldE w = 0#4 := field_eq_zero fun i hi => by
    rw [fieldE_getLsbD, h _ (by omega) (by interval_cases i <;> decide), Bool.and_false]
  conv_lhs => rw [← wordOf_fields w, hfieldB, hfieldC, hfieldE]

/-- A word whose reserved bits are 0 is laid out from the fields of format `ABI8` (R62). -/
theorem eq_of_mask_abi8 (h : w &&& Format.abi8.mask = matchOf (fieldOp w)) :
    w = wordOf (fieldOp w) (fieldA w) (fieldB w) 0#4 0#4 (fieldI8 w) := by
  rw [mask_eq_iff] at h
  have hfieldC : fieldC w = 0#4 := field_eq_zero fun i hi => by
    rw [fieldC_getLsbD, h _ (by omega) (by interval_cases i <;> decide), Bool.and_false]
  have hfieldE : fieldE w = 0#4 := field_eq_zero fun i hi => by
    rw [fieldE_getLsbD, h _ (by omega) (by interval_cases i <;> decide), Bool.and_false]
  conv_lhs => rw [← wordOf_fields w, hfieldC, hfieldE]

/-- A word whose reserved bits are 0 is laid out from the fields of format `I8` (R62). -/
theorem eq_of_mask_i8 (h : w &&& Format.i8.mask = matchOf (fieldOp w)) :
    w = wordOf (fieldOp w) 0#4 0#4 0#4 0#4 (fieldI8 w) := by
  rw [mask_eq_iff] at h
  have hfieldA : fieldA w = 0#4 := field_eq_zero fun i hi => by
    rw [fieldA_getLsbD, h _ (by omega) (by interval_cases i <;> decide), Bool.and_false]
  have hfieldB : fieldB w = 0#4 := field_eq_zero fun i hi => by
    rw [fieldB_getLsbD, h _ (by omega) (by interval_cases i <;> decide), Bool.and_false]
  have hfieldC : fieldC w = 0#4 := field_eq_zero fun i hi => by
    rw [fieldC_getLsbD, h _ (by omega) (by interval_cases i <;> decide), Bool.and_false]
  have hfieldE : fieldE w = 0#4 := field_eq_zero fun i hi => by
    rw [fieldE_getLsbD, h _ (by omega) (by interval_cases i <;> decide), Bool.and_false]
  conv_lhs => rw [← wordOf_fields w, hfieldA, hfieldB, hfieldC, hfieldE]

/-- A word whose reserved bits are 0 is laid out from the fields of format `ABCE` (R62). -/
theorem eq_of_mask_abce (h : w &&& Format.abce.mask = matchOf (fieldOp w)) :
    w = wordOf (fieldOp w) (fieldA w) (fieldB w) (fieldC w) (fieldE w) 0#8 := by
  rw [mask_eq_iff] at h
  have hfieldI8 : fieldI8 w = 0#8 := field_eq_zero fun i hi => by
    rw [fieldI8_getLsbD, h _ (by omega) (by interval_cases i <;> decide), Bool.and_false]
  conv_lhs => rw [← wordOf_fields w, hfieldI8]

/-- A word whose reserved bits are 0 is laid out from the fields of format `AI16` (R62). -/
theorem eq_of_mask_ai16 (h : w &&& Format.ai16.mask = matchOf (fieldOp w)) :
    w = wordOf16 (fieldOp w) (fieldA w) (fieldI16 w) := by
  rw [mask_eq_iff] at h
  have hb : fieldB w = 0#4 := field_eq_zero fun i hi => by
    rw [fieldB_getLsbD, h _ (by omega) (by interval_cases i <;> decide), Bool.and_false]
  conv_lhs => rw [← wordOf_fields w, hb]
  rw [wordOf16_eq_wordOf]
  congr 1 <;> (apply BitVec.eq_of_getLsbD_eq; intro i hi; simp only [BitVec.getLsbD_extractLsb', fieldC_getLsbD,
    fieldE_getLsbD, fieldI8_getLsbD, fieldI16_getLsbD]; rw [decide_eq_true (show _ < 16 by omega)]; simp)
end Formats

end Sys2Proof
end

