-- ==== Sys2Proof/Laws/Step.lean ====
section
/-!
SUPPORT. What one step can do: one host move (spec/70_reset_and_hazards.md rule R232), and what a write of `CMD` does
(spec/30_encoding.md rule R76).
-/

namespace Sys2Proof.Machine

/-- While `ERR = 1` a write of `CMD` is discarded (R207). -/
theorem issueCommand_of_err {s : State} (w : Word) (h : s.err = true) : issueCommand w s = .next s := by
  simp [issueCommand, h]

/-- An illegal word raises `ILLEGAL_CMD` (R67). -/
theorem issueCommand_of_illegal {s : State} {w : Word} {why : Illegal} (h : s.err = false)
    (hd : decode w = .illegal why) : issueCommand w s = .next (faulted 1#8 w s) := by
  simp [issueCommand, h, hd, State.takeFault_eq_faulted, Cause.code]

/-- A legal word executes its command (R76). -/
theorem issueCommand_of_command {s : State} {w : Word} {i : Instr} (h : s.err = false)
    (hd : decode w = .command i) : issueCommand w s = .next (nextOf i s) := by
  simp [issueCommand, h, hd, exec_eq]

/-- A write of `CMD` always has a next state. -/
theorem issueCommand_next (w : Word) (s : State) : ∃ t, issueCommand w s = .next t := by
  by_cases h : s.err = true
  · exact ⟨_, issueCommand_of_err w h⟩
  · rw [Bool.not_eq_true] at h
    cases hd : decode w with
    | illegal why => exact ⟨_, issueCommand_of_illegal h hd⟩
    | command i => exact ⟨_, issueCommand_of_command h hd⟩

/-- Every move has a next state. -/
theorem performMove_next (m : HostMove) (s : State) : ∃ t, performMove m s = .next t := by
  cases m with
  | hardReset => exact ⟨_, rfl⟩
  | read r => exact ⟨_, rfl⟩
  | write r w =>
    cases r with
    | cmd => exact issueCommand_next w s
    | ctrl | status | res | ecause | ecmd | config | init => exact ⟨_, rfl⟩

/-- A step with a pending move performs it. -/
theorem step_cons {s : State} {m : HostMove} {rest : List HostMove} (h : s.host = m :: rest) :
    step s = performMove m { s with host := rest } := by
  unfold step nextTransaction
  rw [h]

/-- A step with no pending move changes nothing. -/
theorem step_nil {s : State} (h : s.host = []) : step s = .next s := by
  unfold step nextTransaction
  rw [h]

/-- A step whose move is a write of `CMD`. -/
theorem step_cmd {s : State} {w : Word} {rest : List HostMove} (h : s.host = .write .cmd w :: rest) :
    step s = issueCommand w { s with host := rest } := step_cons h

/-- All that a step can do: nothing, with no pending move; a reset; a write of `CMD` discarded, illegal, faulting or
executed; a move that leaves the block as it is. -/
theorem step_cases {s t : State} (h : step s = .next t) :
    (s.host = [] ∧ t = s) ∨
    ∃ m rest, s.host = m :: rest ∧
      ((m.resets = true ∧ t = State.blockReset { s with host := rest }) ∨
       (m.resets = false ∧ SameBlock s t ∧ t.host = rest) ∨
       (∃ w, m = .write .cmd w ∧ s.err = false ∧
         ((∃ why, decode w = .illegal why ∧ t = faulted 1#8 w { s with host := rest }) ∨
          (∃ i c, decode w = .command i ∧ firstFaultOf i { s with host := rest } = some c ∧
            t = faulted c (encode i) { s with host := rest }) ∨
          (∃ i, decode w = .command i ∧ firstFaultOf i { s with host := rest } = none ∧
            t = resultOf i { s with host := rest })))) := by
  cases hh : s.host with
  | nil =>
    rw [step_nil hh] at h
    cases h
    exact .inl ⟨rfl, rfl⟩
  | cons m rest =>
    refine .inr ⟨m, rest, rfl, ?_⟩
    rw [step_cons hh] at h
    cases m with
    | hardReset =>
      cases h
      exact .inl ⟨rfl, rfl⟩
    | read r =>
      cases h
      exact .inr (.inl ⟨rfl, ⟨rfl, rfl, rfl, rfl, rfl, rfl, rfl, rfl⟩, rfl⟩)
    | write r w =>
      cases r with
      | ctrl =>
        change Host.Outcome.next _ = _ at h
        cases h
        by_cases hw : w.getLsbD 0 = true
        · left
          rw [if_pos hw]
          exact ⟨hw, rfl⟩
        · right; left
          rw [if_neg hw]
          exact ⟨by simpa [HostMove.resets] using hw, ⟨rfl, rfl, rfl, rfl, rfl, rfl, rfl, rfl⟩, rfl⟩
      | cmd =>
        change issueCommand w _ = _ at h
        by_cases he : s.err = true
        · rw [issueCommand_of_err w (by exact he)] at h
          cases h
          exact .inr (.inl ⟨rfl, ⟨rfl, rfl, rfl, rfl, rfl, rfl, rfl, rfl⟩, rfl⟩)
        · rw [Bool.not_eq_true] at he
          refine .inr (.inr ⟨w, rfl, he, ?_⟩)
          cases hd : decode w with
          | illegal why =>
            rw [issueCommand_of_illegal (by exact he) hd] at h
            cases h
            exact .inl ⟨why, rfl, rfl⟩
          | command i =>
            rw [issueCommand_of_command (by exact he) hd] at h
            cases h
            cases hf : firstFaultOf i { s with host := rest } with
            | some c => exact .inr (.inl ⟨i, c, rfl, hf, nextOf_of_fault hf⟩)
            | none => exact .inr (.inr ⟨i, rfl, hf, nextOf_of_ready hf⟩)
      | status | res | ecause | ecmd | config | init =>
        cases h
        exact .inr (.inl ⟨rfl, ⟨rfl, rfl, rfl, rfl, rfl, rfl, rfl, rfl⟩, rfl⟩)

end Sys2Proof.Machine
end

