-- ==== Sys2Proof/Laws/Frames.lean ====
section
/-!
SUPPORT. What the result of a command writes and what it leaves alone, said once for all 18 commands, and that the host's
pending moves enter nothing a command or a move does.
-/

namespace Sys2Proof.Machine

/-- All that a result can write: one hypervector register, one byte of one, one scalar register, or `RES`. -/
theorem resultOf_shape (i : Instr) (s : State) :
    (∃ k v, destHvOf i = some k ∧ destScalarOf i = none ∧ writesRes i = false ∧ resultOf i s = s.writeHv k v) ∨
    (∃ k idx b, i = .setb k idx b ∧ resultOf i s = s.memWrite (byteAddr k idx) b) ∨
    (∃ k v, i = .sets k v ∧ resultOf i s = s.writeScalar k v) ∨
    (∃ v, destHvOf i = none ∧ destScalarOf i = none ∧ writesRes i = true ∧ resultOf i s = s.writeRes v) := by
  cases i with
  | setb => exact .inr (.inl ⟨_, _, _, rfl, by rw [resultOf]⟩)
  | sets => exact .inr (.inr (.inl ⟨_, _, rfl, by rw [resultOf]⟩))
  | popc8 | popc | hamm | sim | getb => exact .inr (.inr (.inr ⟨_, rfl, rfl, rfl, by rw [resultOf]⟩))
  | _ => exact .inl ⟨_, _, rfl, rfl, rfl, by rw [resultOf]⟩

/-- A register that is not the destination keeps its value and its flag (R22). -/
theorem resultOf_hv_of_ne (i : Instr) (s : State) (k : HReg) (h : destHvOf i ≠ some k) :
    (resultOf i s).hv k = s.hv k ∧ (resultOf i s).hvInit k = s.hvInit k := by
  obtain ⟨d, v, hd, -, -, e⟩ | ⟨d, idx, b, rfl, e⟩ | ⟨d, v, rfl, e⟩ | ⟨v, -, -, -, e⟩ := resultOf_shape i s <;> rw [e]
  · have hk : k ≠ d := fun he => h (he ▸ hd)
    exact ⟨State.hv_writeHv_of_ne s hk v, by simp [Ne.symm hk]⟩
  · have hk : k ≠ d := fun he => h (he ▸ rfl)
    exact ⟨State.hv_memWrite_of_ne s hk _ idx.isLt b, by simp⟩
  · simp
  · simp

/-- A command that completes leaves its destination initialised (R8, R23, R171). -/
theorem resultOf_hvInit_dest {i : Instr} {s : State} {k : HReg} (h : destHvOf i = some k)
    (hf : firstFaultOf i s = none) : (resultOf i s).hvInit k = true := by
  obtain ⟨d, v, hd, -, -, e⟩ | ⟨d, idx, b, rfl, e⟩ | ⟨d, v, rfl, e⟩ | ⟨v, hd, -, -, e⟩ := resultOf_shape i s
  · rw [hd, Option.some.injEq] at h
    rw [e, h]
    simp
  · rw [destHvOf, Option.some.injEq] at h
    subst h
    rw [e, State.memWrite_hvInit]
    by_contra c
    rw [Bool.not_eq_true] at c
    simp [firstFaultOf, readsOf, RegRead.ready, c] at hf
  · cases h
  · rw [hd] at h
    cases h

/-- A scalar flag after a command: set where the command writes the register, as before elsewhere (R25). -/
theorem resultOf_scalarInit (i : Instr) (s : State) (k : SReg) :
    (resultOf i s).scalarInit k = (decide (destScalarOf i = some k) || s.scalarInit k) := by
  obtain ⟨d, v, -, hs, -, e⟩ | ⟨d, idx, b, rfl, e⟩ | ⟨d, v, rfl, e⟩ | ⟨v, -, hs, -, e⟩ := resultOf_shape i s <;> rw [e]
  · simp [hs]
  · simp [destScalarOf]
  · simp [destScalarOf]
  · simp [hs]

/-- A scalar register that is not the destination keeps its value (R24). -/
theorem resultOf_scalar_of_ne (i : Instr) (s : State) (k : SReg) (h : destScalarOf i ≠ some k) :
    (resultOf i s).scalar k = s.scalar k := by
  obtain ⟨d, v, -, -, -, e⟩ | ⟨d, idx, b, rfl, e⟩ | ⟨d, v, rfl, e⟩ | ⟨v, -, -, -, e⟩ := resultOf_shape i s <;> rw [e]
  · simp
  · simp
  · have hk : k ≠ d := fun he => h (he ▸ rfl)
    rw [State.scalar_writeScalar, if_neg hk]
  · simp

/-- `RES` is kept by every command that produces no count or byte (R26). -/
theorem resultOf_res_of_not (i : Instr) (s : State) (h : writesRes i = false) : (resultOf i s).res = s.res := by
  obtain ⟨d, v, -, -, -, e⟩ | ⟨d, idx, b, rfl, e⟩ | ⟨d, v, rfl, e⟩ | ⟨v, -, -, hr, e⟩ := resultOf_shape i s
  · rw [e]; simp
  · rw [e]; simp
  · rw [e]; simp
  · rw [hr] at h; cases h

/-! ### The host's moves enter nothing -/

theorem firstFaultOf_withHost (i : Instr) (s : State) (ms : List HostMove) :
    firstFaultOf i { s with host := ms } = firstFaultOf i s := by
  have hr : ∀ r : RegRead, r.ready { s with host := ms } = r.ready s := by intro r; cases r <;> rfl
  have hv : valueFaultOf i { s with host := ms } = valueFaultOf i s := by cases i <;> rfl
  unfold firstFaultOf
  simp only [hr, hv]

theorem State.writeHv_withHost (s : State) (k : HReg) (v : Hv) (ms : List HostMove) :
    State.writeHv { s with host := ms } k v = { s.writeHv k v with host := ms } := by rfl

theorem State.memWrite_withHost (s : State) (a : Nat) (v : Byte) (ms : List HostMove) :
    State.memWrite { s with host := ms } a v = { s.memWrite a v with host := ms } := by rfl

theorem State.writeScalar_withHost (s : State) (k : SReg) (v : Scalar) (ms : List HostMove) :
    State.writeScalar { s with host := ms } k v = { s.writeScalar k v with host := ms } := by rfl

theorem State.writeRes_withHost (s : State) (v : Byte) (ms : List HostMove) :
    State.writeRes { s with host := ms } v = { s.writeRes v with host := ms } := by rfl

theorem resultOf_withHost (i : Instr) (s : State) (ms : List HostMove) :
    resultOf i { s with host := ms } = { resultOf i s with host := ms } := by
  cases i <;> simp only [resultOf, State.withHost_hv, State.withHost_scalar, State.withHost_memRead,
    State.writeHv_withHost, State.memWrite_withHost, State.writeScalar_withHost, State.writeRes_withHost]

theorem nextOf_withHost (i : Instr) (s : State) (ms : List HostMove) :
    nextOf i { s with host := ms } = { nextOf i s with host := ms } := by
  unfold nextOf
  rw [firstFaultOf_withHost]
  cases firstFaultOf i s with
  | none => exact resultOf_withHost i s ms
  | some c => rfl

/-- A move does the same whatever is pending behind it. -/
theorem performMove_withHost {m : HostMove} {s t : State} (h : performMove m s = .next t) (ms : List HostMove) :
    performMove m { s with host := ms } = .next { t with host := ms } := by
  cases m with
  | hardReset => cases h; rfl
  | read r => cases h; cases r <;> rfl
  | write r w =>
    cases r with
    | cmd =>
      change issueCommand w s = _ at h
      change issueCommand w _ = _
      by_cases he : s.err = true
      · rw [issueCommand_of_err w he] at h
        cases h
        exact issueCommand_of_err w he
      · rw [Bool.not_eq_true] at he
        cases hd : decode w with
        | illegal why =>
          rw [issueCommand_of_illegal he hd] at h
          cases h
          exact issueCommand_of_illegal (by exact he) hd
        | command i =>
          rw [issueCommand_of_command he hd] at h
          cases h
          rw [issueCommand_of_command (by exact he) hd, nextOf_withHost]
    | ctrl =>
      change Host.Outcome.next _ = _ at h
      change Host.Outcome.next _ = _
      cases h
      split <;> rfl
    | status | res | ecause | ecmd | config | init => cases h; rfl

/-- A move leaves what is pending as it is. -/
theorem performMove_host {m : HostMove} {s t : State} (h : performMove m s = .next t) : t.host = s.host := by
  have e := performMove_withHost h s.host
  change performMove m s = _ at e
  rw [h] at e
  injection e with e
  rw [e]

/-! ### Runs of moves and frames one after another -/

/-- A run that begins with a legal command, in a block that is not faulted. -/
theorem runMoves_cmd {s : State} {w : Word} {i : Instr} (h : s.err = false) (hd : decode w = .command i)
    (ms : List HostMove) : runMoves s (.write .cmd w :: ms) = runMoves (nextOf i s) ms := by
  have hp : performMove (.write .cmd w) s = .next (nextOf i s) := issueCommand_of_command h hd
  rw [runMoves, hp]

/-- A run that begins with a write of `CMD` to a faulted block (R207). -/
theorem runMoves_cmd_of_err {s : State} (w : Word) (h : s.err = true) (ms : List HostMove) :
    runMoves s (.write .cmd w :: ms) = runMoves s ms := by
  have hp : performMove (.write .cmd w) s = .next s := issueCommand_of_err w h
  rw [runMoves, hp]

theorem OnlyHvChanged.trans {k : HReg} {s t u : State} (h : OnlyHvChanged k s t) (g : OnlyHvChanged k t u) :
    OnlyHvChanged k s u where
  init := g.init
  memory a ha := (g.memory a ha).trans (h.memory a ha)
  others j hj := ⟨(g.others j hj).1.trans (h.others j hj).1, (g.others j hj).2.trans (h.others j hj).2⟩
  scalars := g.scalars.trans h.scalars
  sinit := g.sinit.trans h.sinit
  res := g.res.trans h.res
  err := g.err.trans h.err
  ecause := g.ecause.trans h.ecause
  ecmd := g.ecmd.trans h.ecmd
  host := g.host.trans h.host
  seen := g.seen.trans h.seen

/-- A byte written into an initialised register changes that register at most. -/
theorem State.memWrite_onlyHv {s : State} {k : HReg} (h : s.hvInit k = true) (idx : ByteIdx) (v : Byte) :
    OnlyHvChanged k s (s.memWrite (byteAddr k idx) v) where
  init := by simpa using h
  memory a ha := by
    have := idx.isLt
    rw [State.memRead_memWrite, if_neg]
    unfold byteAddr
    omega
  others j hj := ⟨State.hv_memWrite_of_ne s hj _ idx.isLt v, by simp⟩
  scalars := by simp
  sinit := by simp
  res := by simp
  err := by simp
  ecause := by simp
  ecmd := by simp
  host := by simp
  seen := by simp

/-- States with the same block part hold the same registers. -/
theorem SameBlock.registers {s t : State} (h : SameBlock s t) :
    (∀ k, t.hv k = s.hv k ∧ t.hvInit k = s.hvInit k) ∧ (∀ k, t.scalar k = s.scalar k ∧ t.scalarInit k = s.scalarInit k) := by
  refine ⟨fun k => ⟨?_, ?_⟩, fun k => ⟨?_, ?_⟩⟩
  · unfold State.hv State.memRead
    rw [h.hvmem]
  · unfold State.hvInit
    rw [h.hinit]
  · unfold State.scalar
    rw [h.scalars]
  · unfold State.scalarInit
    rw [h.sinit]

end Sys2Proof.Machine
end

