-- ==== Sys2Proof/Laws/PerInstr.lean ====
section
/-!
SUPPORT. One statement made of every command: its word meets the row that spec/30_encoding.md rule R65 prints for it.
-/

namespace Sys2Proof.Laws.WordForm

/-- `match` and `mask` of a command's row, numbers copied from the table of R65. -/
def rowOf : Instr → Word × Word
  | .bind _ _ _ => (0x10000000#32, 0xFF000FFF#32)
  | .or _ _ _ => (0x11000000#32, 0xFF000FFF#32)
  | .and _ _ _ => (0x12000000#32, 0xFF000FFF#32)
  | .bundle _ _ => (0x13000000#32, 0xFF00FFFF#32)
  | .popc8 _ => (0x20000000#32, 0xFFFFFF00#32)
  | .popc _ => (0x21000000#32, 0xFF0FFFFF#32)
  | .hamm _ _ => (0x22000000#32, 0xFF00FFFF#32)
  | .sim _ _ => (0x23000000#32, 0xFF00FFFF#32)
  | .perm _ _ => (0x30000000#32, 0xFF0F0000#32)
  | .clear _ => (0x31000000#32, 0xFF0FFFFF#32)
  | .fill _ _ => (0x32000000#32, 0xFF0FFF00#32)
  | .copy _ _ => (0x33000000#32, 0xFF00FFFF#32)
  | .therm _ _ _ => (0x40000000#32, 0xFF000FFF#32)
  | .therms _ _ _ _ => (0x41000000#32, 0xFF0000FF#32)
  | .encch _ _ _ _ => (0x42000000#32, 0xFF0000FF#32)
  | .sets _ _ => (0x50000000#32, 0xFF0F0000#32)
  | .setb _ _ _ => (0x51000000#32, 0xFF00FF00#32)
  | .getb _ _ => (0x52000000#32, 0xFF00FFFF#32)

/-- The word of the command, under its row's mask, is its row's match (R65, R66). -/
def Statement (i : Instr) : Prop := encode i &&& (rowOf i).2 = (rowOf i).1

theorem bind (hd ha hb : HReg) : Statement (.bind hd ha hb) := mask_abc _ _ _ _
theorem or (hd ha hb : HReg) : Statement (.or hd ha hb) := mask_abc _ _ _ _
theorem and (hd ha hb : HReg) : Statement (.and hd ha hb) := mask_abc _ _ _ _
theorem bundle (hd ha : HReg) : Statement (.bundle hd ha) := mask_ab _ _ _
theorem popc8 (byte : Byte) : Statement (.popc8 byte) := mask_i8 _ _
theorem popc (ha : HReg) : Statement (.popc ha) := mask_a _ _
theorem hamm (ha hb : HReg) : Statement (.hamm ha hb) := mask_ab _ _ _
theorem sim (ha hb : HReg) : Statement (.sim ha hb) := mask_ab _ _ _
theorem perm (hd : HReg) (shift : BitVec 16) : Statement (.perm hd shift) := mask_ai16 _ _ _
theorem clear (hd : HReg) : Statement (.clear hd) := mask_a _ _
theorem fill (hd : HReg) (value : Byte) : Statement (.fill hd value) := mask_ai8 _ _ _
theorem copy (hd ha : HReg) : Statement (.copy hd ha) := mask_ab _ _ _
theorem therm (hd : HReg) (sv sm : SReg) : Statement (.therm hd sv sm) := mask_abc _ _ _ _
theorem therms (hd : HReg) (sv smin smax : SReg) : Statement (.therms hd sv smin smax) := mask_abce _ _ _ _ _
theorem encch (hd : HReg) (sv sm : SReg) (hb : HReg) : Statement (.encch hd sv sm hb) := mask_abce _ _ _ _ _
theorem sets (sd : SReg) (value : Scalar) : Statement (.sets sd value) := mask_ai16 _ _ _
theorem setb (hd : HReg) (idx : ByteIdx) (byte : Byte) : Statement (.setb hd idx byte) := mask_abi8 _ _ _ _
theorem getb (ha : HReg) (idx : ByteIdx) : Statement (.getb ha idx) := mask_ab _ _ _

end Sys2Proof.Laws.WordForm
end

