-- ==== Sys2Proof/Laws/Permute.lean ====
section
/-!
SUPPORT. Where a rotation puts each bit: spec/43_permute.md rule R130.
-/

namespace Sys2Proof.Machine

/-- Bit `i` of a rotated vector comes from bit `(i + 128 - n) mod 128`, `n = s mod 128`. -/
theorem rotl128_getLsbD (v : Hv) (s i : Nat) (hi : i < 128) :
    (rotl128 v s).getLsbD i = v.getLsbD ((i + (128 - s % 128)) % 128) := by
  have hn : s % 128 < 128 := Nat.mod_lt _ (by decide)
  unfold rotl128
  split <;> rename_i h
  · rw [h]
    congr 1
    omega
  · rw [BitVec.getLsbD_or, BitVec.getLsbD_shiftLeft, BitVec.getLsbD_ushiftRight]
    by_cases hlt : i < s % 128
    · have e : (i + (128 - s % 128)) % 128 = 128 - s % 128 + i := by omega
      simp [hi, hlt, e]
    · have e : (i + (128 - s % 128)) % 128 = i - s % 128 := by omega
      have g : v.getLsbD (128 - s % 128 + i) = false := BitVec.getLsbD_of_ge _ _ (by omega)
      simp [hi, hlt, e, g]

/-- `w[(i + n) mod 128] = v[i]` (R130). -/
theorem rotl128_getLsbD_add (v : Hv) (s i : Nat) (hi : i < 128) :
    (rotl128 v s).getLsbD ((i + s) % 128) = v.getLsbD i := by
  rw [rotl128_getLsbD _ _ _ (Nat.mod_lt _ (by decide))]
  congr 1
  omega

end Sys2Proof.Machine
end

