-- ==== Sys2Proof/Laws/Values.lean ====
section
/-!
SUPPORT. The values claims are stated with: register numbers shifted into place, vectors of one byte, the all-ones vector,
and a register after one of its bytes was written.
-/

namespace Sys2Proof.Machine

/-- A register number in its field, as the encoder lays it out. -/
theorem regAt_eq (k : Fin 16) (lo : Nat) : regAt k lo = (nibble k).setWidth 32 <<< lo := by
  have h : BitVec.ofNat 32 k.val = (nibble k).setWidth 32 := by
    apply BitVec.eq_of_toNat_eq
    have := k.isLt
    simp [nibble]
  rw [regAt, h]

@[simp] theorem onesHv_getLsbD (i : Nat) : onesHv.getLsbD i = decide (i < 128) := BitVec.getLsbD_allOnes

@[simp] theorem onesHv_getElem (i : Nat) (h : i < 128) : onesHv[i] = true := by
  rw [← BitVec.getLsbD_eq_getElem, onesHv_getLsbD, decide_eq_true h]

/-- The bytes of a filled vector (R141). -/
theorem hvByte_fillHv (b : Byte) (j : Nat) (h : j < 16) : hvByte (fillHv b) j = b := hvByte_hvOfBytes _ _ h

theorem everyByte_iff (v : Hv) (b : Byte) : EveryByte v b ↔ v = fillHv b := by
  constructor
  · exact fun h => hv_ext_bytes fun j hj => by rw [h j hj, hvByte_fillHv _ _ hj]
  · rintro rfl
    exact fun j hj => hvByte_fillHv b j hj

theorem onesHv_eq_fillHv : onesHv = fillHv 0xFF#8 := hv_ext_bytes fun j hj => by
  rw [hvByte_fillHv _ _ hj]
  exact hvByte_allOnes j hj

/-- The bytes of a register after one of them was written (R41, R171). -/
theorem State.hvByte_hv_memWrite (s : State) (k : HReg) (j : Nat) (v : Byte) (i : Nat) (hj : j < 16) (hi : i < 16) :
    hvByte ((s.memWrite (hvAddr k + j) v).hv k) i = if i = j then v else hvByte (s.hv k) i := by
  rw [State.hvByte_hv _ _ _ hi, State.memRead_memWrite, State.hvByte_hv _ _ _ hi]
  by_cases h : i = j
  · subst h
    simp
  · rw [if_neg (by omega), if_neg h]

end Sys2Proof.Machine
end

