-- ==== Sys2Proof/Tests/Slice0.lean ====
section
/-!
SUPPORT. The model's own tests: well-formedness, decoding, one step of each command, the host's moves, the assembler, and
a witness for the hypotheses of every obligation that has some. Expected values are those of the tables of
spec/95_test_vectors.md, named in each comment, or of the worked examples inside the rules.
-/

namespace Sys2Proof.Tests

open Sys2Proof Sys2Proof.Machine

/-! ### Helpers -/

/-- A vector written as 16 bytes, byte 0 first (spec/95_test_vectors.md, notation). -/
def bytesHv (bs : List Nat) : Hv := hvOfBytes fun j => BitVec.ofNat 8 (bs.getD j 0)

/-- The spec's test vector `A`. -/
def vecA : Hv :=
  bytesHv [0x01, 0x23, 0x45, 0x67, 0x89, 0xAB, 0xCD, 0xEF, 0x10, 0x32, 0x54, 0x76, 0x98, 0xBA, 0xDC, 0xFE]

/-- The spec's test vector `B`. -/
def vecB : Hv :=
  bytesHv [0xFF, 0x00, 0xFF, 0x00, 0x0F, 0xF0, 0x55, 0xAA, 0x80, 0x01, 0x00, 0x00, 0x00, 0x00, 0x00, 0x81]

/-- A block in which some hypervector registers hold given vectors, all else as after reset. -/
def withHvs (hs : List (HReg × Hv)) : State := hs.foldl (fun s p => s.writeHv p.1 p.2) State.reset

/-- The same with scalar registers added. -/
def withScalars (s : State) (ss : List (SReg × Scalar)) : State := ss.foldl (fun s p => s.writeScalar p.1 p.2) s

/-- `H[0] = A`, `H[1] = B` (the start of tables B2 and B3). -/
def startAB : State := withHvs [(0, vecA), (1, vecB)]

/-- The state of an outcome; a stop, of which there is none, would show as the reset state. -/
def stateOf : Host.Outcome State Fault Refusal → State
  | .next t => t
  | .fault _ => State.reset
  | .refused _ => State.reset

/-- Whether an outcome is a given next state, as a test can evaluate it. -/
def isNext (o : Host.Outcome State Fault Refusal) (t : State) : Bool :=
  match o with
  | .next u => decide (u = t)
  | .fault _ => false
  | .refused _ => false

theorem eq_next_iff (o : Host.Outcome State Fault Refusal) (t : State) : o = .next t ↔ isNext o t = true := by
  cases o <;> simp [isNext]

/-- One step: the host writes word `w` to `CMD`. -/
def cmd (w : Word) (s : State) : State := stateOf (step (s.issue (.write .cmd w)))

/-- Several moves, one step each. -/
def moves (ms : List HostMove) (s : State) : State :=
  stateOf (Host.Core.run Sys2Proof.core ms.length { s with host := ms })

/-- What reads of `STATUS`, `ECAUSE`, `ECMD`, `RES` and `INIT` return. -/
def window (s : State) : List Word := [.status, .ecause, .ecmd, .res, .init].map s.readWindow

/-! ### Well-formed and ill-formed terms -/

/-- R71: registers run to 15. -/
theorem test_wf_register_range : SourceLine.wf ⟨.bind, [.h 2, .h 0, .h 15]⟩ = true ∧
    SourceLine.wf ⟨.bind, [.h 2, .h 0, .h 16]⟩ = false ∧ SourceLine.wf ⟨.therm, [.h 2, .s 16, .s 1]⟩ = false := by decide

/-- R71: a position takes its own register class, and exactly as many operands as the command has fields. -/
theorem test_wf_classes_and_arity : SourceLine.wf ⟨.therm, [.h 2, .h 0, .s 1]⟩ = false ∧
    SourceLine.wf ⟨.copy, [.h 2]⟩ = false ∧ SourceLine.wf ⟨.copy, [.h 2, .h 1, .h 0]⟩ = false := by decide

/-- R64: `idx` 0 to 15, a byte 0 to 255, a shift 0 to 65535. -/
theorem test_wf_immediates : SourceLine.wf ⟨.setb, [.h 0, .num 15, .num 255]⟩ = true ∧
    SourceLine.wf ⟨.setb, [.h 0, .num 16, .num 0]⟩ = false ∧ SourceLine.wf ⟨.fill, [.h 0, .num 256]⟩ = false ∧
    SourceLine.wf ⟨.fill, [.h 0, .num (-1)]⟩ = false ∧ SourceLine.wf ⟨.perm, [.h 0, .num 65535]⟩ = true ∧
    SourceLine.wf ⟨.perm, [.h 0, .num 65536]⟩ = false := by decide

/-- R71: for `SETS` a negative decimal down to -32768. -/
theorem test_wf_sets : SourceLine.wf ⟨.sets, [.s 0, .num (-32768)]⟩ = true ∧
    SourceLine.wf ⟨.sets, [.s 0, .num (-32769)]⟩ = false ∧ SourceLine.wf ⟨.sets, [.s 0, .num 65536]⟩ = false := by decide

/-- R73: no basis register is `hd`, in either form, and every register is in range. -/
theorem test_wf_channels : SourceLine.wf ⟨.encodeChannels, [.h 5, .s 2, .pair 0 8]⟩ = true ∧
    SourceLine.wf ⟨.encodeChannels, [.h 5, .s 2, .pair 0 5]⟩ = false ∧
    SourceLine.wf ⟨.encodeChannels, [.h 5, .s 2, .pair 0 16]⟩ = false ∧
    SourceLine.wf ⟨.encodeChannels, [.h 5, .triple 0 1 8]⟩ = true ∧
    SourceLine.wf ⟨.encodeChannels, [.h 5, .triple 0 1 5]⟩ = false ∧
    SourceLine.wf ⟨.encodeChannels, [.h 5, .triple 0 16 8]⟩ = false ∧
    SourceLine.wf ⟨.encodeChannels, [.s 5]⟩ = false := by decide

/-- R73, R74: the terms of the pseudo-instructions. -/
theorem test_wf_pseudo : Pseudo.wf (.encodeChannels 5 [⟨0, 2, 8⟩]) = true ∧
    Pseudo.wf (.encodeChannels 5 [⟨0, 2, 8⟩, ⟨1, 2, 5⟩]) = false ∧ Pseudo.wf (.ldhv 0 (List.replicate 15 0#8)) = false ∧
    expandPseudo (.encodeChannels 5 [⟨1, 2, 5⟩]) = none := by decide

/-! ### Decoding (words written out from rule R61: op, a, b, c, e, i8) -/

/-- Bitwise family, op 0x10 to 0x13, fields a b c then zeros. -/
theorem test_decode_bitwise :
    decode 0b00010000_0010_0000_0001_0000_00000000#32 = .command (.bind 2 0 1) ∧
    decode 0b00010001_1010_1011_1100_0000_00000000#32 = .command (.or 10 11 12) ∧
    decode 0b00010010_0011_0100_0101_0000_00000000#32 = .command (.and 3 4 5) ∧
    decode 0b00010011_0110_0101_0000_0000_00000000#32 = .command (.bundle 6 5) := by decide

/-- Count and distance families, op 0x20 to 0x23. -/
theorem test_decode_count :
    decode 0b00100000_0000_0000_0000_0000_10100101#32 = .command (.popc8 0xA5#8) ∧
    decode 0b00100001_1111_0000_0000_0000_00000000#32 = .command (.popc 15) ∧
    decode 0b00100010_1110_1111_0000_0000_00000000#32 = .command (.hamm 14 15) ∧
    decode 0b00100011_0000_0001_0000_0000_00000000#32 = .command (.sim 0 1) := by decide

/-- Permutation and move families, op 0x30 to 0x33. -/
theorem test_decode_moves :
    decode 0b00110000_0011_0000_0000_0000_00001000#32 = .command (.perm 3 8#16) ∧
    decode 0b00110001_0101_0000_0000_0000_00000000#32 = .command (.clear 5) ∧
    decode 0b00110010_1111_0000_0000_0000_11111111#32 = .command (.fill 15 0xFF#8) ∧
    decode 0b00110011_0111_0010_0000_0000_00000000#32 = .command (.copy 7 2) := by decide

/-- Encoder family, op 0x40 to 0x42. -/
theorem test_decode_encoder :
    decode 0b01000000_0010_0000_0001_0000_00000000#32 = .command (.therm 2 0 1) ∧
    decode 0b01000001_1111_1110_1101_1100_00000000#32 = .command (.therms 15 14 13 12) ∧
    decode 0b01000010_1010_1011_1100_1101_00000000#32 = .command (.encch 10 11 12 13) := by decide

/-- Host access family, op 0x50 to 0x52. -/
theorem test_decode_host_access :
    decode 0b01010000_0000_0000_1111_1111_11001110#32 = .command (.sets 0 0xFFCE#16) ∧
    decode 0b01010001_0000_1111_0000_0000_10100101#32 = .command (.setb 0 15 0xA5#8) ∧
    decode 0b01010010_1111_1111_0000_0000_00000000#32 = .command (.getb 15 15) := by decide

/-- The illegal words of table B9, by reason. -/
theorem test_decode_illegal :
    ([0x00000000#32, 0xFFFFFFFF#32, 0x0F000000#32, 0x14000000#32, 0x24000000#32, 0x34000000#32, 0x43000000#32,
      0x53000000#32].all fun w => decide (decode w = .illegal .unassignedOp)) = true ∧
    ([0x10201001#32, 0x10201800#32, 0x13010001#32, 0x200001A5#32, 0x20100000#32, 0x21010000#32, 0x30310008#32,
      0x31500001#32, 0x32000100#32, 0x41401201#32, 0x42501901#32, 0x50010000#32, 0x51001000#32,
      0x52000001#32].all fun w => decide (decode w = .illegal .reservedBit)) = true := by decide

/-- The words of the rules' own examples, encoded. -/
theorem test_encode_examples :
    [encode (.bundle 0 1), encode (.perm 3 4#16), encode (.sets 15 0x8000#16), encode (.getb 1 8),
      encode (.therms 4 0 1 2), encode (.copy 2 1)]
      = [0x13010000#32, 0x30300004#32, 0x50F08000#32, 0x52180000#32, 0x41401200#32, 0x33210000#32] := by decide

/-! ### One step of each command -/

/-- B1.1, and R26: the count is alone in `RES`. -/
theorem test_popc8 : [(cmd 0x20000000#32 State.reset).res, (cmd 0x20000080#32 State.reset).res,
    (cmd 0x200000A5#32 State.reset).res, (cmd 0x200000FF#32 State.reset).res] = [0#8, 1#8, 4#8, 8#8] := by decide

/-- B1.2: `A`, `E`, `ones`. -/
theorem test_popc : [(cmd 0x21000000#32 startAB).res, (cmd 0x21100000#32 startAB).res,
    (cmd 0x21000000#32 (withHvs [(0, BitVec.twoPow 128 127)])).res,
    (cmd 0x21000000#32 (withHvs [(0, BitVec.allOnes 128)])).res] = [0x40#8, 0x24#8, 0x01#8, 0x80#8] := by decide

/-- B1.2: an uninitialised register, and R206: nothing but the fault registers changes. -/
theorem test_popc_uninit : cmd 0x21000000#32 State.reset
    = { State.reset with err := true, ecause := 2#8, ecmd := 0x21000000#32 } := by decide

/-- B2: `bind h2, h0, h1`. -/
theorem test_bind : (cmd 0x10201000#32 startAB).hv 2 = bytesHv
    [0xFE, 0x23, 0xBA, 0x67, 0x86, 0x5B, 0x98, 0x45, 0x90, 0x33, 0x54, 0x76, 0x98, 0xBA, 0xDC, 0x7F] := by decide

/-- B2, aliased: a source is also the destination, `bind h1, h0, h1`. -/
theorem test_bind_alias : (cmd 0x10101000#32 startAB).hv 1 = bytesHv
    [0xFE, 0x23, 0xBA, 0x67, 0x86, 0x5B, 0x98, 0x45, 0x90, 0x33, 0x54, 0x76, 0x98, 0xBA, 0xDC, 0x7F] ∧
    (cmd 0x10101000#32 startAB).hv 0 = vecA := by decide

/-- B2: `or h2, h1, h0`. -/
theorem test_or : (cmd 0x11210000#32 startAB).hv 2 = bytesHv
    [0xFF, 0x23, 0xFF, 0x67, 0x8F, 0xFB, 0xDD, 0xEF, 0x90, 0x33, 0x54, 0x76, 0x98, 0xBA, 0xDC, 0xFF] := by decide

/-- B2: `and h2, h0, h1`. -/
theorem test_and : (cmd 0x12201000#32 startAB).hv 2 = bytesHv
    [0x01, 0x00, 0x45, 0x00, 0x09, 0xA0, 0x45, 0xAA, 0x00, 0x00, 0x00, 0x00, 0x00, 0x00, 0x00, 0x80] := by decide

/-- B2: `bundle h1, h0`, and `H[0]` unchanged. -/
theorem test_bundle : (cmd 0x13100000#32 startAB).hv 1 = bytesHv
    [0xFF, 0x23, 0xFF, 0x67, 0x8F, 0xFB, 0xDD, 0xEF, 0x90, 0x33, 0x54, 0x76, 0x98, 0xBA, 0xDC, 0xFF] ∧
    (cmd 0x13100000#32 startAB).hv 0 = vecA := by decide

/-- B2, faults: with the source initialised and the accumulator not. -/
theorem test_bundle_uninit : (cmd 0x13010000#32 (withHvs [(1, vecB)])).ecause = 2#8 := by decide

/-- B3. -/
theorem test_hamm : (cmd 0x22010000#32 startAB).res = 0x44#8 ∧ (cmd 0x22000000#32 startAB).res = 0x00#8 := by decide

/-- B3. -/
theorem test_sim : (cmd 0x23010000#32 startAB).res = 0x3C#8 ∧ (cmd 0x23000000#32 startAB).res = 0x80#8 := by decide

/-- B4.1: `perm h0, 9`. -/
theorem test_perm_9 : (cmd 0x30000009#32 startAB).hv 0 = bytesHv
    [0xFD, 0x03, 0x46, 0x8A, 0xCE, 0x12, 0x57, 0x9B, 0xDF, 0x21, 0x64, 0xA8, 0xEC, 0x30, 0x75, 0xB9] := by decide

/-- B4.1: `perm h0, 65535` is the rotation by 127, `perm h0, 128` none. -/
theorem test_perm_edges : (cmd 0x3000FFFF#32 startAB).hv 0 = bytesHv
    [0x80, 0x91, 0xA2, 0xB3, 0xC4, 0xD5, 0xE6, 0x77, 0x08, 0x19, 0x2A, 0x3B, 0x4C, 0x5D, 0x6E, 0xFF] ∧
    (cmd 0x30000080#32 startAB).hv 0 = vecA := by decide

/-- B5: `clear h5` after reset. -/
theorem test_clear : (cmd 0x31500000#32 State.reset).hv 5 = 0#128 ∧
    (cmd 0x31500000#32 State.reset).readWindow .init = 0x00000020#32 := by decide

/-- B5: `fill h15, 0x01` after reset. -/
theorem test_fill : (cmd 0x32F00001#32 State.reset).hv 15 = bytesHv (List.replicate 16 1) ∧
    (cmd 0x32F00001#32 State.reset).readWindow .init = 0x00008000#32 := by decide

/-- B5: `copy h2, h1`. -/
theorem test_copy : (cmd 0x33210000#32 startAB).hv 2 = vecB ∧ (cmd 0x33210000#32 startAB).hvInit 2 = true := by decide

/-- B5: `copy h0, h0` on an uninitialised register faults; on `A` it changes nothing. -/
theorem test_copy_self : window (cmd 0x33000000#32 State.reset) = [1#32, 2#32, 0x33000000#32, 0#32, 0#32] ∧
    cmd 0x33000000#32 startAB = startAB := by decide

/-- B6.1: readings 9 of 10, 1023 of 1024, 65534 of 65535. -/
theorem test_therm :
    (cmd 0x40201000#32 (withScalars State.reset [(0, 9#16), (1, 10#16)])).hv 2
      = bytesHv (List.replicate 14 0xFF ++ [0x07, 0x00]) ∧
    (cmd 0x40201000#32 (withScalars State.reset [(0, 1023#16), (1, 1024#16)])).hv 2
      = bytesHv (List.replicate 15 0xFF ++ [0x7F]) ∧
    (cmd 0x40201000#32 (withScalars State.reset [(0, 65534#16), (1, 65535#16)])).hv 2
      = bytesHv (List.replicate 15 0xFF ++ [0x7F]) := by decide

/-- B6.5: `ZERO_MAX`, and `s0` is checked before the value of `s1`. -/
theorem test_therm_faults :
    (cmd 0x40401000#32 (withScalars State.reset [(0, 512#16), (1, 0#16)])).ecause = 4#8 ∧
    (cmd 0x40401000#32 (withScalars State.reset [(1, 0#16)])).ecause = 3#8 ∧
    (cmd 0x40401000#32 (withScalars State.reset [(1, 0#16)])).hvInit 4 = false := by decide

/-- B6.4: -50 in [-100, 100], and -1 in the full range. -/
theorem test_therms :
    (cmd 0x41201200#32 (withScalars State.reset [(0, 0xFFCE#16), (1, 0xFF9C#16), (2, 0x0064#16)])).hv 2
      = bytesHv (List.replicate 4 0xFF) ∧
    (cmd 0x41201200#32 (withScalars State.reset [(0, 0xFFFF#16), (1, 0x8000#16), (2, 0x7FFF#16)])).hv 2
      = bytesHv (List.replicate 7 0xFF ++ [0x7F]) := by decide

/-- B6.5: `BAD_RANGE` wins over `BELOW_MIN`. -/
theorem test_therms_faults :
    (cmd 0x41401200#32 (withScalars State.reset [(0, 0xFFFB#16), (1, 10#16), (2, 3#16)])).ecause = 5#8 ∧
    (cmd 0x41401200#32 (withScalars State.reset [(0, 0xFFFB#16), (1, 0#16), (2, 3#16)])).ecause = 6#8 ∧
    (cmd 0x41401200#32 (withScalars State.reset [(0, 0x8000#16), (1, 0x7FFF#16), (2, 0x8000#16)])).ecause = 5#8 := by
  decide

/-- B7, third line: reading 256 of 1024, accumulator `A`, basis `B`. -/
theorem test_encch : (cmd 0x42002100#32 (withScalars startAB [(0, 256#16), (2, 1024#16)])).hv 0 = bytesHv
    [0x01, 0xFF, 0x45, 0xFF, 0x8F, 0xFB, 0xDD, 0xEF, 0x90, 0x33, 0x54, 0x76, 0x98, 0xBA, 0xDC, 0xFF] := by decide

/-- B7, fault order. -/
theorem test_encch_faults :
    [(cmd 0x42501900#32 State.reset).ecause, (cmd 0x42501900#32 (withHvs [(5, 0#128)])).ecause,
      (cmd 0x42501900#32 (withScalars (withHvs [(5, 0#128)]) [(0, 1#16), (1, 0#16)])).ecause,
      (cmd 0x42501900#32 (withScalars (withHvs [(5, 0#128), (9, 0#128)]) [(0, 1#16), (1, 0#16)])).ecause]
      = [2#8, 3#8, 2#8, 4#8] := by decide

/-- B8: `sets s15, 0x8000` after reset. -/
theorem test_sets : (cmd 0x50F08000#32 State.reset).scalar 15 = 0x8000#16 ∧
    (cmd 0x50F08000#32 State.reset).readWindow .init = 0x80000000#32 := by decide

/-- B8: `setb h0, 15, 0x00` on `A`. -/
theorem test_setb : (cmd 0x510F0000#32 startAB).hv 0 = bytesHv
    [0x01, 0x23, 0x45, 0x67, 0x89, 0xAB, 0xCD, 0xEF, 0x10, 0x32, 0x54, 0x76, 0x98, 0xBA, 0xDC, 0x00] := by decide

/-- B8: a register must be made whole first. -/
theorem test_setb_uninit : window (cmd 0x51000001#32 State.reset) = [1#32, 2#32, 0x51000001#32, 0#32, 0#32] := by decide

/-- B8: byte 0 and byte 15 of `A`, byte 8 of `B`. -/
theorem test_getb : [(cmd 0x52000000#32 startAB).res, (cmd 0x520F0000#32 startAB).res, (cmd 0x52180000#32 startAB).res]
    = [0x01#8, 0xFE#8, 0x80#8] := by decide

/-! ### The host's moves, faults and reset -/

/-- B10, step 0. -/
theorem test_reset_window : State.reset.readWindow .config = 0x01101080#32 ∧
    window State.reset = [0#32, 0#32, 0#32, 0#32, 0#32] := by decide

/-- The first moves of B10: two commands and one that faults. -/
def faultMoves : List HostMove :=
  [.write .cmd 0x320000F0#32, .write .cmd 0x21000000#32, .write .cmd 0x22010000#32]

/-- B10, step 3. -/
theorem test_fault_entry : window (moves faultMoves State.reset)
    = [1#32, 2#32, 0x22010000#32, 0x40#32, 0x00000001#32] := by decide

/-- B10, steps 4 to 7: discarded, discarded, ignored, nothing. -/
theorem test_faulted_state : window (moves (faultMoves ++ [.write .cmd 0x3210000F#32, .write .cmd 0#32,
    .write .status 0#32, .write .ctrl 0#32]) State.reset) = [1#32, 2#32, 0x22010000#32, 0x40#32, 0x00000001#32] := by decide

/-- B10, steps 8, 10 and 11. -/
theorem test_soft_reset :
    window (moves (faultMoves ++ [.write .ctrl 0x00000001#32]) State.reset) = window State.reset ∧
    window (moves (faultMoves ++ [.write .ctrl 0xFFFFFFFF#32]) State.reset) = window State.reset ∧
    (moves [.read .cmd, .read .ctrl, .read .config] State.reset).seen = [0#32, 0#32, 0x01101080#32] := by decide

/-- B10, step 9: after a reset the register is uninitialised again. -/
theorem test_reset_clears_init : window (moves (faultMoves ++ [.hardReset, .write .cmd 0x21000000#32]) State.reset)
    = [1#32, 2#32, 0x21000000#32, 0#32, 0#32] := by decide

/-- B9: `ILLEGAL_CMD` comes before every other check. -/
theorem test_illegal_first : window (cmd 0x10201001#32 State.reset) = [1#32, 1#32, 0x10201001#32, 0#32, 0#32] := by decide

/-- A table row's word is fetched and run by the very next step (log 15). -/
theorem test_withFetchWord : stateOf (step (State.reset.withFetchWord 32 0x200000FF)) = { State.reset with res := 8#8 } ∧
    decodeTableWord 32 0x200000FF = some (.popc8 0xFF#8) ∧ decodeTableWord 32 0x14000000 = none := by decide

/-! ### The assembler (rules R71 to R75) -/

/-- R71: case, blanks, comments, hexadecimal and negative immediates; the words of 95_test_vectors.md. -/
theorem test_assemble :
    assembleLine "  POPC8 0xA5 ; four bits".toList = some [.popc8 0xA5#8] ∧
    assembleLine "sets s0, -5".toList = some [.sets 0 0xFFFB#16] ∧ assembleLine "; nothing".toList = some [] ∧
    assembleLine "popc s0".toList = none ∧ assembleLine "popc h0, h1".toList = none ∧
    assembleLine "jump h0".toList = none := by decide

/-- R73, R74, R75: the pseudo-instructions' commands (program P3, lines 6 to 8). -/
theorem test_assemble_pseudo :
    (assembleLine "ENCODE_CHANNELS h5, s2, (s0, h8), (s1, h9)".toList).map (·.map encode)
      = some [0x31500000#32, 0x42502800#32, 0x42512900#32] ∧
    (assembleLine "encode_channels h5, s2".toList).map (·.map encode) = some [0x31500000#32] ∧
    (assembleLine "ones h3".toList).map (·.map encode) = some [0x323000FF#32] ∧
    (assembleLine "ldhv h0, 1, 2, 3, 4, 5, 6, 7, 8, 9, 10, 11, 12, 13, 14, 15, 0xFF".toList).map List.length = some 17 := by
  decide

/-! ### Witnesses: concrete states and operands that meet the hypotheses of each obligation, clause by clause -/

/-- A faulted block: `hamm h0, h1` with `h1` uninitialised (B10, step 3). -/
def haltedState : State := moves faultMoves State.reset

/-- A block with `H[0] = F0×16`, `H[1] = 3C×16`, `H[4] = 0`, `H[5] = FF×16`, and all 16 hypervector flags 1. -/
def patterns : State :=
  { withHvs [(0, fillHv 0xF0#8), (1, fillHv 0x3C#8), (4, 0#128), (5, onesHv)] with hinit := 0xFFFF#16 }

/-- `patterns` with readings 512, 256 and 0, bounds 1024 and 0, and a signed range, all 16 scalar flags 1. -/
def readings : State :=
  { withScalars patterns [(0, 512#16), (1, 256#16), (2, 1024#16), (3, 0#16), (4, 0xFFCE#16), (5, 0xFF9C#16),
      (6, 0x0064#16), (7, 0x8000#16), (8, 0x7FFF#16), (9, 2#16), (10, 1#16), (11, 1023#16)] with sinit := 0xFFFF#16 }

/-- DecodeOfEncode has no hypothesis; EncodeOfDecode: a legal word at the top of every field. -/
theorem witness_EncodeOfDecode : decode 0x10FFF000#32 = .command (.bind 15 15 15) := by decide

/-- DecodeFollowsOpcodeTable: a row's word, an unassigned `op`, a reserved bit. -/
theorem witness_DecodeFollowsOpcodeTable :
    (∃ row ∈ specRows, 0x10201000#32 &&& row.mask = row.mtch) ∧
    (∀ row ∈ specRows, 0x14000000#32 &&& 0xFF000000#32 ≠ row.mtch) ∧
    (∃ row ∈ specRows, 0x10201001#32 &&& 0xFF000000#32 = row.mtch ∧ 0x10201001#32 &&& row.mask ≠ row.mtch) := by
  refine ⟨⟨_, .head _, by decide⟩, ?_, _, .head _, by decide, by decide⟩
  simp [specRows]

/-- IllegalWordsFault. -/
theorem witness_IllegalWordsFault : (∀ row ∈ specRows, 0xFFFFFFFF#32 &&& row.mask ≠ row.mtch) ∧
    (State.reset.issue (.write .cmd 0xFFFFFFFF#32)).host = .write .cmd 0xFFFFFFFF#32 :: [] ∧
    (State.reset.issue (.write .cmd 0xFFFFFFFF#32)).err = false := by
  refine ⟨?_, rfl, rfl⟩
  simp [specRows]

/-- StepRunsDecodedCommand, both clauses. -/
theorem witness_StepRunsDecodedCommand :
    (State.reset.issue (.write .cmd 0x31500000#32)).host = .write .cmd 0x31500000#32 :: [] ∧
    (State.reset.issue (.write .cmd 0x31500000#32)).err = false ∧ decode 0x31500000#32 = .command (.clear 5) ∧
    (State.reset.issue (.write .cmd (encode (.clear 5)))).host = .write .cmd (encode (.clear 5)) :: [] := by decide

/-- IdleBlockKeepsItsState. -/
theorem witness_IdleBlockKeepsItsState : State.reset.host = [] := rfl

/-- CommandStepOrder: faulted; illegal; first and fourth register not ready; a scalar not ready; a value fault; no fault. -/
theorem witness_CommandStepOrder :
    haltedState.err = true ∧ State.reset.err = false ∧ decode 0x10201001#32 = .illegal .reservedBit ∧
    (readsOf (.encch 5 0 1 9) = [] ++ .hv 5 :: [.scalar 0, .scalar 1, .hv 9] ∧ State.reset.hvInit 5 = false) ∧
    (readsOf (.encch 5 0 1 9) = [.hv 5] ++ .scalar 0 :: [.scalar 1, .hv 9] ∧
      (RegRead.hv 5).ready patterns = true ∧ patterns.scalarInit 0 = false) ∧
    (let s := withScalars (withHvs [(5, 0#128)]) [(0, 1#16), (1, 0#16)]
     readsOf (.encch 5 0 1 9) = [.hv 5, .scalar 0, .scalar 1] ++ .hv 9 :: [] ∧
      (∀ r ∈ [RegRead.hv 5, .scalar 0, .scalar 1], r.ready s = true) ∧ s.hvInit 9 = false) ∧
    ((∀ r ∈ readsOf (.encch 5 0 3 9), r.ready readings = true) ∧ valueFaultOf (.encch 5 0 3 9) readings = some 4#8) ∧
    ((∀ r ∈ readsOf (.encch 5 0 2 9), r.ready readings = true) ∧ valueFaultOf (.encch 5 0 2 9) readings = none) := by decide +kernel

/-- HostMovesOtherThanCommands: a read, two reads, a read-only register, `CTRL` with bit 0 clear and set. -/
theorem witness_HostMovesOtherThanCommands :
    (State.reset.issue (.read .res)).host = .read .res :: [] ∧
    ((State.reset.issue (.read .res)).issue (.read .res)).host = .read .res :: .read .res :: [] ∧
    (WinReg.config ≠ .cmd ∧ WinReg.config ≠ .ctrl ∧
      (State.reset.issue (.write .config 7#32)).host = .write .config 7#32 :: []) ∧
    ((0xFFFFFFFE#32).getLsbD 0 = false ∧
      (State.reset.issue (.write .ctrl 0xFFFFFFFE#32)).host = .write .ctrl 0xFFFFFFFE#32 :: []) ∧
    ((0xFFFFFFFF#32).getLsbD 0 = true ∧
      (haltedState.issue (.write .ctrl 0xFFFFFFFF#32)).host = .write .ctrl 0xFFFFFFFF#32 :: []) ∧
    (State.reset.issue (.write .cmd 0#32)).host = .write .cmd 0#32 :: [] := by decide

/-- ResetStateAsSpecified and SoftResetEqualsHardReset: both resets, from a faulted block. -/
theorem witness_resets : HostMove.hardReset.resets = true ∧ (HostMove.write .ctrl 0x00000001#32).resets = true ∧
    (haltedState.issue .hardReset).host = .hardReset :: [] ∧
    (haltedState.issue (.write .ctrl 0x00000001#32)).host = .write .ctrl 0x00000001#32 :: [] ∧
    (0x00000001#32).getLsbD 0 = true ∧ (0xFFFFFFFF#32).getLsbD 0 = true ∧
    ((haltedState.issue (.write .ctrl 0x00000001#32)).err = true ∧
      step (haltedState.issue (.write .ctrl 0x00000001#32)) = .next State.reset ∧ State.reset.err = false) := by
  simp only [eq_next_iff]
  decide +kernel

/-- WindowReadValues: the first and the last read-only register. -/
theorem witness_WindowReadValues : (State.reset.issue (.write .status 0#32)).host = .write .status 0#32 :: [] ∧
    (State.reset.issue (.write .init 0#32)).host = .write .init 0#32 :: [] := by decide

/-- FaultedBlockDiscardsCommands. -/
theorem witness_FaultedBlockDiscardsCommands : haltedState.err = true ∧
    (haltedState.issue (.write .cmd 0x3210000F#32)).err = true ∧
    (haltedState.issue (.write .cmd 0x3210000F#32)).host = .write .cmd 0x3210000F#32 :: [] ∧
    (haltedState.issue (.read .status)).err = true ∧ (haltedState.issue (.read .status)).host = .read .status :: [] := by
  decide

/-- OnlyResetLeavesTheFaultedState: a move that does not reset, one that does, a list of moves that do not. -/
theorem witness_OnlyResetLeavesTheFaultedState :
    ((haltedState.issue (.write .cmd 0#32)).err = true ∧ (haltedState.issue (.write .cmd 0#32)).host = .write .cmd 0#32 :: [] ∧
      step (haltedState.issue (.write .cmd 0#32)) = .next haltedState ∧ (HostMove.write .cmd 0#32).resets = false) ∧
    ((haltedState.issue .hardReset).err = true ∧ (haltedState.issue .hardReset).host = .hardReset :: [] ∧
      step (haltedState.issue .hardReset) = .next haltedState.blockReset ∧ HostMove.hardReset.resets = true) ∧
    ∀ m ∈ [HostMove.write .cmd 0#32, .write .ctrl 0xFFFFFFFE#32, .read .res], m.resets = false := by
  simp only [eq_next_iff]
  decide +kernel

/-- FaultsArePrecise: `popc h0` after reset. -/
theorem witness_FaultsArePrecise :
    (State.reset.issue (.write .cmd 0x21000000#32)).host = .write .cmd 0x21000000#32 :: [] ∧
    (State.reset.issue (.write .cmd 0x21000000#32)).err = false ∧
    step (State.reset.issue (.write .cmd 0x21000000#32)) = .next (faulted 2#8 0x21000000#32 State.reset) ∧
    (faulted 2#8 0x21000000#32 State.reset).err = true := by
  simp only [eq_next_iff]
  decide +kernel

/-- CausesAsListed: a fault of each cause 2 to 6. -/
theorem witness_CausesAsListed : State.reset.err = false ∧ readings.err = false ∧
    exec (.popc 0) State.reset = .next (faulted 2#8 0x21000000#32 State.reset) ∧
    exec (.therm 2 0 1) State.reset = .next (faulted 3#8 0x40201000#32 State.reset) ∧
    exec (.therm 2 0 3) readings = .next (faulted 4#8 0x40203000#32 readings) ∧
    exec (.therms 4 0 0 0) readings = .next (faulted 5#8 0x41400000#32 readings) ∧
    exec (.therms 4 5 3 6) readings = .next (faulted 6#8 0x41453600#32 readings) := by
  simp only [eq_next_iff]
  decide +kernel

/-- UnreadableContentsMatterNowhere: two different states that agree on what can be read, and their steps. -/
theorem witness_UnreadableContentsMatterNowhere :
    AgreeOnReadable (State.reset.issue (.write .cmd 0x21000000#32))
      { State.reset.issue (.write .cmd 0x21000000#32) with hvmem := [(0, 0x5A#8)] } ∧
    State.reset.hvmem ≠ [(0, 0x5A#8)] ∧
    step (State.reset.issue (.write .cmd 0x21000000#32)) = .next (faulted 2#8 0x21000000#32 State.reset) ∧
    Host.Core.run Sys2Proof.core 1 (State.reset.issue (.write .cmd 0x21000000#32))
      = .next (faulted 2#8 0x21000000#32 State.reset) := by
  refine ⟨⟨by decide, fun _ _ => rfl, rfl, rfl, rfl, rfl, rfl, rfl, rfl, rfl⟩, by decide, (eq_next_iff _ _).mpr (by decide +kernel),
    (eq_next_iff _ _).mpr (by decide +kernel)⟩

/-- InvariantKeptByEveryStep: in a block that is not faulted and in one that is. -/
theorem witness_InvariantKeptByEveryStep : (State.reset.issue (.write .cmd 0x0F000000#32)).Inv ∧
    step (State.reset.issue (.write .cmd 0x0F000000#32)) = .next (faulted 1#8 0x0F000000#32 State.reset) ∧
    (faulted 1#8 0x0F000000#32 State.reset).Inv ∧
    step (faulted 1#8 0x0F000000#32 State.reset) = .next (faulted 1#8 0x0F000000#32 State.reset) :=
  ⟨⟨by decide, by decide, by decide, by decide⟩, (eq_next_iff _ _).mpr (by decide),
    ⟨by decide, by decide, by decide, by decide⟩, (eq_next_iff _ _).mpr (by decide)⟩

/-- RegistersKeepTheirValues: a step that changes `H[15]`, and moves that do not name it. -/
theorem witness_RegistersKeepTheirValues :
    (step (State.reset.issue (.write .cmd 0x32F000FF#32)) = .next (cmd 0x32F000FF#32 State.reset) ∧
      (cmd 0x32F000FF#32 State.reset).hv 15 ≠ State.reset.hv 15) ∧
    ∀ m ∈ [HostMove.write .cmd 0x31500000#32, .read .init], m.resets = false ∧
      ∀ w i, m = .write .cmd w → decode w = .command i → destHvOf i ≠ some 15 := by
  refine ⟨⟨(eq_next_iff _ _).mpr (by decide +kernel), by decide +kernel⟩, ?_⟩
  intro m hm
  simp only [List.mem_cons, List.not_mem_nil, or_false] at hm
  rcases hm with rfl | rfl
  · refine ⟨rfl, ?_⟩
    intro w i h hd
    cases h
    have hw : decode 0x31500000#32 = .command (.clear 5) := by decide
    rw [hw] at hd
    cases hd
    decide
  · exact ⟨rfl, fun w i h => by cases h⟩

/-- InitFlagsRiseOnWriteAndFallOnReset: a write of each kind of register, and a reset. -/
theorem witness_InitFlags :
    (step (State.reset.issue (.write .cmd 0x31F00000#32)) = .next (cmd 0x31F00000#32 State.reset) ∧
      (HostMove.write .cmd 0x31F00000#32).resets = false ∧ (cmd 0x31F00000#32 State.reset).hvInit 15 = true) ∧
    (step (State.reset.issue (.write .cmd 0x50F00000#32)) = .next (cmd 0x50F00000#32 State.reset) ∧
      (cmd 0x50F00000#32 State.reset).scalarInit 15 = true) ∧
    (step (readings.issue .hardReset) = .next State.reset ∧ HostMove.hardReset.resets = true ∧
      readings.hvInit 15 = true) := by
  simp only [eq_next_iff]
  decide +kernel

/-- ResWrittenOnlyByResultCommands: a step that changes `RES`, and the four counting commands ready. -/
theorem witness_ResWritten :
    (step (State.reset.issue (.write .cmd 0x200000FF#32)) = .next { State.reset with res := 8#8 } ∧ 8#8 ≠ State.reset.res) ∧
    (writesRes (.popc 5) = true ∧ firstFaultOf (.popc 5) patterns = none ∧
      exec (.popc 5) patterns = .next { patterns with res := 0x80#8 }) ∧
    (writesRes (.sim 0 1) = true ∧ firstFaultOf (.sim 0 1) patterns = none ∧
      exec (.sim 0 1) patterns = .next { patterns with res := 64#8 }) ∧
    ((haltedState.issue .hardReset).res = 0x40#8 ∧ HostMove.hardReset.resets = true ∧
      (haltedState.issue .hardReset).host = .hardReset :: []) := by
  simp only [eq_next_iff]
  decide +kernel

/-- ScalarsWrittenOnlyBySets. -/
theorem witness_ScalarsWrittenOnlyBySets :
    step (State.reset.issue (.write .cmd 0x50F08000#32)) = .next (cmd 0x50F08000#32 State.reset) ∧
    (cmd 0x50F08000#32 State.reset).scalar 15 ≠ State.reset.scalar 15 := by
  simp only [eq_next_iff]
  decide +kernel

/-- StoreLayout and BitOrderInTheStore: the last byte of the last register, the last bit, an initialised register. -/
theorem witness_store : (15 < 16) ∧ (16 * (15 : Fin 16).val + 15 = 255) ∧ (127 < 128) ∧ patterns.hvInit 15 = true := by
  decide

/-- ReservedBitsRejected, in all 18 rules: a word with the row's `op` and a reserved bit set, written to a block that is
not faulted (B9 where the table has one, else bit 0 or bit 12 of the command's own word). -/
theorem witness_ReservedBitsRejected :
    ([(0x10201001#32, 0x10000000#32, 0xFF000FFF#32), (0x11ABC001#32, 0x11000000#32, 0xFF000FFF#32),
      (0x12345001#32, 0x12000000#32, 0xFF000FFF#32), (0x13010001#32, 0x13000000#32, 0xFF00FFFF#32),
      (0x200001A5#32, 0x20000000#32, 0xFFFFFF00#32), (0x21010000#32, 0x21000000#32, 0xFF0FFFFF#32),
      (0x22EF0001#32, 0x22000000#32, 0xFF00FFFF#32), (0x23010001#32, 0x23000000#32, 0xFF00FFFF#32),
      (0x30310008#32, 0x30000000#32, 0xFF0F0000#32)] ++
     [(0x31500001#32, 0x31000000#32, 0xFF0FFFFF#32), (0x32000100#32, 0x32000000#32, 0xFF0FFF00#32),
      (0x33720001#32, 0x33000000#32, 0xFF00FFFF#32), (0x40201001#32, 0x40000000#32, 0xFF000FFF#32),
      (0x41401201#32, 0x41000000#32, 0xFF0000FF#32), (0x42501901#32, 0x42000000#32, 0xFF0000FF#32),
      (0x50010000#32, 0x50000000#32, 0xFF0F0000#32), (0x51001000#32, 0x51000000#32, 0xFF00FF00#32),
      (0x52000001#32, 0x52000000#32, 0xFF00FFFF#32)]).all (fun p : Word × Word × Word =>
        decide (p.1 &&& 0xFF000000#32 = p.2.1) && decide (p.1 &&& p.2.2 ≠ p.2.1)
          && decide ((State.reset.issue (.write .cmd p.1)).host = [.write .cmd p.1])
          && !(State.reset.issue (.write .cmd p.1)).err) = true := by decide +kernel

/-- PopcountOfAByte: the bit positions at the ends. -/
theorem witness_PopcountOfAByte : (0 < 8) ∧ (7 < 8) := by decide

/-- PopcountOfAVector: not ready; ready; zero; ones; `F0 0F` then zeros. -/
theorem witness_PopcountOfAVector : State.reset.hvInit 15 = false ∧ patterns.hvInit 15 = true ∧
    patterns.hv 4 = 0#128 ∧ patterns.hv 5 = onesHv ∧
    (let s := withHvs [(0, bytesHv [0xF0, 0x0F])]
     s.hvInit 0 = true ∧ hvByte (s.hv 0) 0 = 0xF0#8 ∧ hvByte (s.hv 0) 1 = 0x0F#8 ∧
      ∀ j, j < 16 → 2 ≤ j → hvByte (s.hv 0) j = 0#8) := by decide +kernel

/-- BindIsXor, OrIsUnion, AndIsIntersection, HammCountsDifferingBits, SimIsDimensionMinusDistance, DistanceLaws: first
source not ready; second not ready; both ready; equal sources; a zero, an all-ones and a complement source; the patterns of
the rules' examples. -/
theorem witness_two_sources : State.reset.hvInit 0 = false ∧
    ((withHvs [(0, vecA)]).hvInit 0 = true ∧ (withHvs [(0, vecA)]).hvInit 1 = false) ∧
    (patterns.hvInit 0 = true ∧ patterns.hvInit 1 = true) ∧ patterns.hv 4 = 0#128 ∧ patterns.hv 5 = onesHv ∧
    patterns.hv 5 = ~~~(patterns.hv 4) ∧ (2 : HReg) ≠ 1 ∧
    (∀ j, j < 16 → hvByte (patterns.hv 0) j = 0xF0#8) ∧ (∀ j, j < 16 → hvByte (patterns.hv 1) j = 0x3C#8) := by decide +kernel

/-- BundleAccumulates: accumulator not ready; source not ready; both ready; the example's patterns; two distinct sources. -/
theorem witness_BundleAccumulates : State.reset.hvInit 0 = false ∧
    ((withHvs [(0, vecA)]).hvInit 0 = true ∧ (withHvs [(0, vecA)]).hvInit 1 = false) ∧
    (let s := withHvs [(0, fillHv 0xF0#8), (1, fillHv 0x0F#8), (2, vecA)]
     s.hvInit 0 = true ∧ s.hvInit 1 = true ∧ s.hvInit 2 = true ∧ (0 : HReg) ≠ 1 ∧ (0 : HReg) ≠ 2 ∧
      (∀ j, j < 16 → hvByte (s.hv 0) j = 0xF0#8) ∧ ∀ j, j < 16 → hvByte (s.hv 1) j = 0x0F#8) := by decide +kernel

/-- PermRotatesInPlace, RotationBitNumberAndByteForms, PermutationProperties: not ready; shifts 0, 128, 65535, a multiple of
8; `E` by 1; zero; ones; `F` by 8 and by 4; a periodic vector. -/
theorem witness_PermRotatesInPlace : State.reset.hvInit 3 = false ∧ patterns.hvInit 3 = true ∧
    (128#16).toNat % 128 = 0 ∧ (65408#16).toNat % 128 = 0 ∧ (120#16).toNat = 8 * 15 ∧
    (withHvs [(3, BitVec.twoPow 128 127)]).hv 3 = BitVec.twoPow 128 127 ∧ patterns.hv 4 = 0#128 ∧ patterns.hv 5 = onesHv ∧
    (let s := withHvs [(3, bytesHv [0xFF])]
     s.hvInit 3 = true ∧ hvByte (s.hv 3) 0 = 0xFF#8 ∧ ∀ j, j < 16 → 1 ≤ j → hvByte (s.hv 3) j = 0#8) ∧
    ((8#16).toNat % 8 = 0 ∧ ∀ j, j < 16 → hvByte (patterns.hv 0) j = 0xF0#8) ∧
    (127 = 65535 % 128 ∧ 15 = 127 / 8 ∧ 7 = 127 % 8) := by decide +kernel

/-- ClearMakesTheZeroVector, FillSetsEveryByte and CopyCopies: their operands and states. -/
theorem witness_moves : ((cmd 0x31500000#32 patterns).hvInit 1 = true ∧ (cmd 0x31500000#32 patterns).hvInit 5 = true) ∧
    State.reset.hvInit 15 = false ∧ patterns.hvInit 0 = true ∧ Memory.wf patterns.hvmem = true ∧ (7 : HReg) ≠ 2 ∧
    ∀ j, j < 16 → hvByte ((withHvs [(2, fillHv 0xCC#8)]).hv 2) j = 0xCC#8 := by decide +kernel

/-- ThermEncodesAReading: each check failing; reading 0; at, below and above the bound; bound 2; one register for both;
the scenario 512 of 1024. -/
theorem witness_ThermEncodesAReading : State.reset.scalarInit 0 = false ∧
    ((withScalars State.reset [(0, 512#16)]).scalarInit 0 = true ∧
      (withScalars State.reset [(0, 512#16)]).scalarInit 1 = false) ∧
    (readings.scalarInit 0 = true ∧ readings.scalarInit 3 = true ∧ (readings.scalar 3).toNat = 0) ∧
    (readings.scalarInit 2 = true ∧ (readings.scalar 2).toNat ≠ 0) ∧
    (readings.scalar 2).toNat ≤ (readings.scalar 2).toNat ∧ (readings.scalar 10).toNat + 1 = (readings.scalar 9).toNat ∧
    (readings.scalar 11).toNat + 1 = (readings.scalar 2).toNat ∧ (readings.scalar 9).toNat = 2 ∧
    ((readings.scalar 0).toNat = 512 ∧ (readings.scalar 2).toNat = 1024) := by decide +kernel

/-- ThermsEncodesASignedReading: each check failing; at the lower and the upper end; the full range; the scenario. -/
theorem witness_ThermsEncodesASignedReading : State.reset.scalarInit 0 = false ∧
    ((withScalars State.reset [(0, 0#16)]).scalarInit 0 = true ∧
      (withScalars State.reset [(0, 0#16)]).scalarInit 1 = false) ∧
    (let s := withScalars State.reset [(0, 0#16), (1, 0#16)]
     s.scalarInit 0 = true ∧ s.scalarInit 1 = true ∧ s.scalarInit 2 = false) ∧
    (readings.scalarInit 4 = true ∧ readings.scalarInit 5 = true ∧ readings.scalarInit 6 = true) ∧
    sint16 (readings.scalar 0) - sint16 (readings.scalar 0) ≤ 0 ∧
    (0 < sint16 (readings.scalar 6) - sint16 (readings.scalar 3) ∧ sint16 (readings.scalar 4) < sint16 (readings.scalar 3)) ∧
    (0 < sint16 (readings.scalar 8) - sint16 (readings.scalar 7) ∧ sint16 (readings.scalar 7) ≤ sint16 (readings.scalar 7)) ∧
    (sint16 (readings.scalar 7) = -32768 ∧ sint16 (readings.scalar 8) = 32767) ∧
    (sint16 (readings.scalar 4) = -50 ∧ sint16 (readings.scalar 5) = -100 ∧ sint16 (readings.scalar 6) = 100) := by decide +kernel

/-- EncchEncodesOneChannel: each check failing in turn; ready; readings 0 and at the bound; a scratch register; the
scenario 256 of 1024 with `AA×16` into `zero`. -/
theorem witness_EncchEncodesOneChannel : State.reset.hvInit 5 = false ∧
    ((withHvs [(5, 0#128)]).hvInit 5 = true ∧ (withHvs [(5, 0#128)]).scalarInit 0 = false) ∧
    (let s := withScalars (withHvs [(5, 0#128)]) [(0, 1#16)]
     s.hvInit 5 = true ∧ s.scalarInit 0 = true ∧ s.scalarInit 2 = false) ∧
    (let s := withScalars (withHvs [(5, 0#128)]) [(0, 1#16), (2, 0#16)]
     s.hvInit 5 = true ∧ s.scalarInit 0 = true ∧ s.scalarInit 2 = true ∧ s.hvInit 8 = false) ∧
    (readings.hvInit 5 = true ∧ readings.scalarInit 0 = true ∧ readings.scalarInit 3 = true ∧ readings.hvInit 8 = true ∧
      (readings.scalar 3).toNat = 0 ∧ (readings.scalar 2).toNat ≠ 0 ∧
      (readings.scalar 2).toNat ≤ (readings.scalar 2).toNat) ∧
    ((1 : HReg) ≠ 5 ∧ (1 : HReg) ≠ 8) ∧
    (let s := withScalars (withHvs [(5, 0#128), (8, fillHv 0xAA#8)]) [(0, 256#16), (2, 1024#16)]
     s.hvInit 5 = true ∧ s.scalarInit 0 = true ∧ s.scalarInit 2 = true ∧ s.hvInit 8 = true ∧ s.hv 5 = 0#128 ∧
      (∀ j, j < 16 → hvByte (s.hv 8) j = 0xAA#8) ∧ (s.scalar 0).toNat = 256 ∧ (s.scalar 2).toNat = 1024) := by decide +kernel

/-- SetbWritesOneByte and GetbReadsOneByte: not ready; ready at byte 15; the worked examples; a block that is not faulted. -/
theorem witness_byte_access : State.reset.hvInit 0 = false ∧ patterns.hvInit 15 = true ∧ patterns.err = false ∧
    ((withHvs [(0, 0#128)]).hvInit 0 = true ∧ (withHvs [(0, 0#128)]).hv 0 = 0#128) ∧
    ((withHvs [(0, bytesHv (List.replicate 15 0 ++ [0xA5]))]).hvInit 0 = true ∧
      hvByte ((withHvs [(0, bytesHv (List.replicate 15 0 ++ [0xA5]))]).hv 0) 15 = 0xA5#8) := by decide +kernel

/-- LevelsAreTruncatedQuotients, ThermometerCodes, ComparatorFormOfTheEncoder, ThermometerProperties: the ends of the
ranges. -/
theorem witness_levels : (65535 ≤ 65535 ∧ 1 ≤ 65535 ∧ 1 ≤ 1) ∧ (65534 < 65535 ∧ 65535 ≤ 65535) ∧ (127 < 128 ∧ 127 ≤ 127) ∧
    (15 < 127 / 8 + 1 ∧ 127 % 8 ≠ 0 ∧ 128 ≤ 128 ∧ (0 / 8 = 0 ∧ 0 % 8 = 0)) := by decide

/-- EncodeChannelsComputes and ChannelOrderDoesNotMatter: two ready channels, in either order; a channel that is not ready
after one that is. -/
theorem witness_channels :
    Pseudo.wf (.encodeChannels 5 [⟨0, 2, 8⟩, ⟨1, 2, 9⟩]) = true ∧ readings.err = false ∧
    [Channel.mk 0 2 8, ⟨1, 2, 9⟩].Perm [⟨1, 2, 9⟩, ⟨0, 2, 8⟩] ∧
    (∀ c ∈ [Channel.mk 0 2 8, ⟨1, 2, 9⟩], channelReady readings c) ∧
    ((∀ c ∈ [Channel.mk 0 2 8], channelReady readings c) ∧ ¬ channelReady readings ⟨1, 3, 9⟩ ∧
      [Channel.mk 0 2 8, ⟨1, 3, 9⟩] = [⟨0, 2, 8⟩] ++ ⟨1, 3, 9⟩ :: []) ∧
    (let t := stateOf (runMoves readings (issueAll (pseudoCommands (.encodeChannels 5 [⟨0, 2, 8⟩, ⟨1, 2, 9⟩]))))
     runMoves readings (issueAll (pseudoCommands (.encodeChannels 5 [⟨0, 2, 8⟩, ⟨1, 2, 9⟩]))) = .next t ∧
      t.err = false) := by
  refine ⟨by decide, by decide, List.Perm.swap _ _ _, ?_, ⟨?_, ?_, rfl⟩, ?_⟩
  · unfold channelReady; decide
  · unfold channelReady; decide
  · unfold channelReady; decide
  · simp only [eq_next_iff]
    decide +kernel

/-- LoadVectorLoads and OnesMakesTheComplementReachable. -/
theorem witness_pseudo : ((List.range 16).map fun j => BitVec.ofNat 8 j).length = 16 ∧ readings.err = false ∧
    (patterns.err = false ∧ (cmd (encode (.fill 5 0xFF#8)) patterns).hvInit 0 = true ∧
      (cmd (encode (.fill 5 0xFF#8)) patterns).hvInit 5 = true) := by decide +kernel

end Sys2Proof.Tests
end

section
/-!
SUPPORT. What one step can do to the registers, said once: nothing, a reset, or the result of a completed command. The claims
of spec/10_state.md on the lifetime of `H`, `HINIT`, `S`, `SINIT` and `RES` (rules R22 to R26) follow from `step_registers`.
-/

namespace Sys2Proof.Machine

/-- `t` holds in every register and every register flag what `s` holds; nothing is said of the fault registers and
the host's side. -/
structure SameRegisters (s t : State) : Prop where
  hv : ∀ k, t.hv k = s.hv k
  hvInit : ∀ k, t.hvInit k = s.hvInit k
  scalar : ∀ k, t.scalar k = s.scalar k
  scalarInit : ∀ k, t.scalarInit k = s.scalarInit k
  res : t.res = s.res

theorem SameBlock.sameRegisters {s t : State} (h : SameBlock s t) : SameRegisters s t where
  hv k := (h.registers.1 k).1
  hvInit k := (h.registers.1 k).2
  scalar k := (h.registers.2 k).1
  scalarInit k := (h.registers.2 k).2
  res := h.res

/-- The host's pending moves are no register. -/
theorem sameRegisters_withHost (s : State) (ms : List HostMove) : SameRegisters s { s with host := ms } where
  hv := State.withHost_hv s ms
  hvInit := State.withHost_hvInit s ms
  scalar := State.withHost_scalar s ms
  scalarInit := State.withHost_scalarInit s ms
  res := by rfl

/-- Fault entry writes no register (R206). -/
theorem sameRegisters_faulted (c : Byte) (w : Word) (s : State) (ms : List HostMove) :
    SameRegisters s (faulted c w { s with host := ms }) := by
  constructor <;> simp

/-! ### One step -/

/-- Performing a move is the step of a block that has it pending. -/
theorem step_issue (s : State) (m : HostMove) : step (s.issue m) = performMove m s := step_cons (State.issue_host s m)

/-- A step whose move resets the block (R220, R221). -/
theorem step_of_resets {s : State} {m : HostMove} {rest : List HostMove} (hm : m.resets = true)
    (hh : s.host = m :: rest) : step s = .next (State.blockReset { s with host := rest }) := by
  rw [step_cons hh]
  cases m with
  | hardReset => rfl
  | read r => cases hm
  | write r w =>
    cases r with
    | ctrl =>
      have hw : w.getLsbD 0 = true := hm
      simp only [performMove, writeWindow, hw, if_true]
    | cmd | status | res | ecause | ecmd | config | init => cases hm

/-- A step whose move is a command that meets no fault leaves the registers of that command's result. -/
theorem step_completes {s t : State} {w : Word} {i : Instr} {rest : List HostMove} (hh : s.host = .write .cmd w :: rest)
    (he : s.err = false) (hd : decode w = .command i) (hf : firstFaultOf i s = none) (h : step s = .next t) :
    SameRegisters (resultOf i s) t := by
  rw [step_cmd hh, issueCommand_of_command (by exact he) hd, nextOf_withHost, nextOf_of_ready hf] at h
  cases h
  exact sameRegisters_withHost _ _

/-- All that a step can do to the registers: nothing, a reset, or the result of a command that meets no fault. -/
theorem step_registers {s t : State} (h : step s = .next t) :
    SameRegisters s t ∨ ∃ m rest, s.host = m :: rest ∧
      (m.resets = true ∨ ∃ w i, m = .write .cmd w ∧ s.err = false ∧ decode w = .command i ∧
        firstFaultOf i s = none ∧ SameRegisters (resultOf i s) t) := by
  obtain ⟨-, rfl⟩ | ⟨m, rest, hh, ⟨hr, -⟩ | ⟨-, hb, -⟩ | ⟨w, rfl, he, hcmd⟩⟩ := step_cases h
  · exact .inl (sameRegisters_withHost t t.host)
  · exact .inr ⟨m, rest, hh, .inl hr⟩
  · exact .inl hb.sameRegisters
  · obtain ⟨why, -, rfl⟩ | ⟨i, c, -, -, rfl⟩ | ⟨i, hd, hf, -⟩ := hcmd
    · exact .inl (sameRegisters_faulted _ _ _ _)
    · exact .inl (sameRegisters_faulted _ _ _ _)
    · rw [firstFaultOf_withHost] at hf
      exact .inr ⟨_, rest, hh, .inr ⟨w, i, rfl, he, hd, hf, step_completes hh he hd hf h⟩⟩

/-- The same for a move that does not reset. -/
theorem step_registers_of_not_resets {s t : State} {m : HostMove} {rest : List HostMove} (hm : m.resets = false)
    (hh : s.host = m :: rest) (h : step s = .next t) :
    SameRegisters s t ∨ ∃ w i, m = .write .cmd w ∧ s.err = false ∧ decode w = .command i ∧
      firstFaultOf i s = none ∧ SameRegisters (resultOf i s) t := by
  obtain hsame | ⟨m', rest', hh', hr | hcmd⟩ := step_registers h
  · exact .inl hsame
  · cases hh.symm.trans hh'
    exact absurd (hm.symm.trans hr) Bool.false_ne_true
  · cases hh.symm.trans hh'
    exact .inr hcmd

/-! ### What a command writes -/

/-- `HINIT` after a command that completes: set for its destination, as before elsewhere (R23). -/
theorem resultOf_hvInit_iff {i : Instr} {s : State} (k : HReg) (hf : firstFaultOf i s = none) :
    (resultOf i s).hvInit k = true ↔ s.hvInit k = true ∨ destHvOf i = some k := by
  by_cases hk : destHvOf i = some k
  · simp [hk, resultOf_hvInit_dest hk hf]
  · simp [hk, (resultOf_hv_of_ne i s k hk).2]

/-- Only `SETS` names a scalar register as destination (R24). -/
theorem destScalarOf_eq_some_iff {i : Instr} {k : SReg} : destScalarOf i = some k ↔ ∃ v, i = .sets k v := by
  constructor
  · intro h
    cases i with
    | sets sd v =>
      cases h
      exact ⟨v, rfl⟩
    | _ => cases h
  · rintro ⟨v, rfl⟩
    rfl

/-- `SETS` reads no register and has no value check, so it meets no fault (R170). -/
theorem firstFaultOf_of_destScalar {i : Instr} {k : SReg} (h : destScalarOf i = some k) (s : State) :
    firstFaultOf i s = none := by
  obtain ⟨v, rfl⟩ := destScalarOf_eq_some_iff.mp h
  rfl

/-- A count of at most 128 is at most 128 in `RES`. -/
theorem toNat_byte_le {n : Nat} (h : n ≤ 128) : (BitVec.ofNat 8 n).toNat ≤ 128 := by
  rw [BitVec.toNat_ofNat]
  exact (Nat.mod_le _ _).trans h

/-- The result-producing commands other than `GETB` leave a count in `[0, 128]` (R26). -/
theorem resultOf_res_le {i : Instr} (s : State) (hg : ∀ ha idx, i ≠ .getb ha idx) (hw : writesRes i = true) :
    (resultOf i s).res.toNat ≤ 128 := by
  cases i with
  | popc8 b => exact toNat_byte_le ((popcount8_le b).trans (by decide))
  | popc ha => exact toNat_byte_le (popcount_le _)
  | hamm ha hb => exact toNat_byte_le (popcount_le _)
  | sim ha hb => exact toNat_byte_le (Nat.sub_le _ _)
  | getb ha idx => exact absurd rfl (hg ha idx)
  | _ => cases hw

/-! ### The lifetime of a register -/

/-- A step that changes `H[k]` or `HINIT[k]` resets, or completes a command with destination `H[k]` (R22, R23). -/
theorem step_of_hv_changed {s t : State} {k : HReg} (h : step s = .next t)
    (hne : t.hv k ≠ s.hv k ∨ t.hvInit k ≠ s.hvInit k) :
    ∃ m rest, s.host = m :: rest ∧ (m.resets = true ∨
      ∃ w i, m = .write .cmd w ∧ s.err = false ∧ decode w = .command i ∧ destHvOf i = some k ∧
        firstFaultOf i s = none) := by
  obtain hsame | ⟨m, rest, hh, hr | ⟨w, i, hm, he, hd, hf, hres⟩⟩ := step_registers h
  · simp [hsame.hv, hsame.hvInit] at hne
  · exact ⟨m, rest, hh, .inl hr⟩
  · refine ⟨m, rest, hh, .inr ⟨w, i, hm, he, hd, ?_, hf⟩⟩
    by_contra hk
    obtain ⟨hv, hi⟩ := resultOf_hv_of_ne i s k hk
    simp [hres.hv, hres.hvInit, hv, hi] at hne

/-- A move that neither resets nor names `H[k]` as destination keeps `H[k]` and `HINIT[k]`. -/
theorem performMove_keeps_hv {s t : State} {m : HostMove} {k : HReg} (h : performMove m s = .next t)
    (hm : m.resets = false) (hw : ∀ w i, m = .write .cmd w → decode w = .command i → destHvOf i ≠ some k) :
    t.hv k = s.hv k ∧ t.hvInit k = s.hvInit k := by
  by_contra hne
  rw [not_and_or, ← State.issue_hv s m, ← State.issue_hvInit s m] at hne
  obtain ⟨m', rest, hh, hr | ⟨w, i, rfl, -, hd, hk, -⟩⟩ := step_of_hv_changed ((step_issue s m).trans h) hne
  · cases hh
    exact Bool.false_ne_true (hm.symm.trans hr)
  · cases hh
    exact hw w i rfl hd hk

/-- A flag that only the commands in `writes` set is 1 after a move that does not reset exactly when it was 1 before or
the move completed such a command. -/
theorem step_flag_iff {s t : State} {m : HostMove} {rest : List HostMove} {flag : State → Bool} {writes : Instr → Prop}
    (hsame : ∀ {u v}, SameRegisters u v → flag v = flag u)
    (hwrites : ∀ i, firstFaultOf i s = none → (flag (resultOf i s) = true ↔ flag s = true ∨ writes i))
    (hh : s.host = m :: rest) (hm : m.resets = false) (h : step s = .next t) :
    flag t = true ↔ flag s = true ∨ ∃ w i, m = .write .cmd w ∧ s.err = false ∧ decode w = .command i ∧
      writes i ∧ firstFaultOf i s = none := by
  constructor
  · intro ht
    obtain hst | ⟨w, i, hw, he, hd, hf, hres⟩ := step_registers_of_not_resets hm hh h
    · exact .inl (hsame hst ▸ ht)
    · rw [hsame hres, hwrites i hf] at ht
      exact ht.imp_right fun hk => ⟨w, i, hw, he, hd, hk, hf⟩
  · rintro (hs | ⟨w, i, rfl, he, hd, hk, hf⟩)
    · obtain hst | ⟨w, i, -, -, -, hf, hres⟩ := step_registers_of_not_resets hm hh h
      · exact (hsame hst).trans hs
      · exact (hsame hres).trans ((hwrites i hf).mpr (.inl hs))
    · exact (hsame (step_completes hh he hd hf h)).trans ((hwrites i hf).mpr (.inr hk))

/-- A run of moves none of which resets or names `H[k]` keeps `H[k]` and `HINIT[k]` (R22). -/
theorem runMoves_keeps_hv (k : HReg) (ms : List HostMove) (s : State)
    (hms : ∀ m ∈ ms, m.resets = false ∧ ∀ w i, m = .write .cmd w → decode w = .command i → destHvOf i ≠ some k) :
    ∃ t, runMoves s ms = .next t ∧ t.hv k = s.hv k ∧ t.hvInit k = s.hvInit k := by
  induction ms generalizing s with
  | nil => exact ⟨s, rfl, rfl, rfl⟩
  | cons m ms ih =>
    obtain ⟨hm, hmoves⟩ := List.forall_mem_cons.mp hms
    obtain ⟨u, hu⟩ := performMove_next m s
    obtain ⟨hv, hi⟩ := performMove_keeps_hv hu hm.1 hm.2
    obtain ⟨t, ht, htv, hti⟩ := ih u hmoves
    exact ⟨t, by rw [runMoves, hu]; exact ht, htv.trans hv, hti.trans hi⟩

/-! ### The claims -/

/-- Settles O22: every change of `H[k]` is a reset or a completed command that names it, so runs of other moves keep it. -/
theorem registersKeepTheirValues : Obligations.RegistersKeepTheirValues :=
  ⟨fun _ _ _ h hne => step_of_hv_changed h hne, fun s k ms hms => runMoves_keeps_hv k ms s hms⟩

/-- Settles O23: `step_flag_iff` for each kind of flag; `SETS` meets no fault, so its clause names none. -/
theorem initFlagsRiseOnWriteAndFallOnReset : Obligations.InitFlagsRiseOnWriteAndFallOnReset := by
  intro s t m rest k hh h
  refine ⟨fun hr => ?_, fun hm => ⟨?_, ?_⟩⟩
  · rw [step_of_resets hr hh] at h
    cases h
    exact ⟨State.blockReset_hvInit _ k, State.blockReset_scalarInit _ k⟩
  · exact step_flag_iff (flag := fun u => u.hvInit k) (writes := fun i => destHvOf i = some k)
      (fun huv => huv.hvInit k) (fun _ hf => resultOf_hvInit_iff k hf) hh hm h
  · rw [step_flag_iff (flag := fun u => u.scalarInit k) (writes := fun i => destScalarOf i = some k)
      (fun huv => huv.scalarInit k) (fun i _ => by simp [resultOf_scalarInit, or_comm]) hh hm h]
    simp only [and_iff_left_of_imp fun hk => firstFaultOf_of_destScalar hk s]

/-- Settles O24: a command that does not write `RES` keeps it, the counts are bounded, and reset leaves 0. -/
theorem resWrittenOnlyByResultCommands : Obligations.ResWrittenOnlyByResultCommands := by
  refine ⟨fun s t h hne => ?_, fun s m rest hm hh => ⟨_, step_of_resets hm hh, State.blockReset_res _⟩,
    fun i s t hg hw hf h => ?_, rfl, rfl, fun _ => rfl⟩
  · obtain hsame | ⟨m, rest, hh, hr | ⟨w, i, hm, he, hd, hf, hres⟩⟩ := step_registers h
    · exact absurd hsame.res hne
    · exact ⟨m, rest, hh, .inl hr⟩
    · refine ⟨m, rest, hh, .inr ⟨w, i, hm, he, hd, ?_, hf⟩⟩
      by_contra hw
      exact hne (hres.res.trans (resultOf_res_of_not i s (Bool.not_eq_true _ ▸ hw)))
  · rw [exec_of_ready hf] at h
    cases h
    exact resultOf_res_le s hg hw

/-- Settles O25: a completed command that does not name `S[k]` keeps its value and flag, and one that does is `SETS`. -/
theorem scalarsWrittenOnlyBySets : Obligations.ScalarsWrittenOnlyBySets := by
  intro s t k h hne
  obtain hsame | ⟨m, rest, hh, hr | ⟨w, i, hm, he, hd, -, hres⟩⟩ := step_registers h
  · simp [hsame.scalar, hsame.scalarInit] at hne
  · exact ⟨m, rest, hh, .inl hr⟩
  · have hk : destScalarOf i = some k := by
      by_contra hk
      simp [hres.scalar, hres.scalarInit, resultOf_scalar_of_ne i s k hk, resultOf_scalarInit, hk] at hne
    obtain ⟨v, rfl⟩ := destScalarOf_eq_some_iff.mp hk
    refine ⟨m, rest, hh, .inr ⟨w, v, hm, he, hd, ?_⟩⟩
    rw [hres.scalar, resultOf, State.scalar_writeScalar_same]

end Sys2Proof.Machine
end

section
/-!
SUPPORT. What a read of the host window returns, and that a write of a read-only register is ignored: spec/10_state.md rules
R31 to R33; a block with no move pending: the model's log 2.
-/

namespace Sys2Proof.Machine

/-- `STATUS` reads `ERR` in bit 0 and 0 elsewhere (R28, R33). -/
theorem State.statusWord_toNat (s : State) : s.statusWord.toNat = if s.err then 1 else 0 := by
  unfold State.statusWord
  cases s.err <;> rfl

/-- Bit `k` of `INIT` is `HINIT[k]` (R32). -/
theorem State.initWord_hvInit (s : State) (k : HReg) : s.initWord.getLsbD k.val = s.hvInit k := by
  unfold State.initWord State.hvInit
  rw [BitVec.getLsbD_append, if_pos k.isLt]

/-- Bit `16+k` of `INIT` is `SINIT[k]` (R32). -/
theorem State.initWord_scalarInit (s : State) (k : SReg) : s.initWord.getLsbD (16 + k.val) = s.scalarInit k := by
  unfold State.initWord State.scalarInit
  rw [BitVec.getLsbD_append, if_neg (by omega), Nat.add_sub_cancel_left]

/-- `CONFIG` is a constant: `D`, `NHV`, `NS` and the version (R31). -/
theorem State.readWindow_config (s : State) : s.readWindow .config = 0x01101080#32 := by
  change Config.configWord = _
  decide

/-- A write of a window register other than `CMD` and `CTRL` is ignored (R33, R46). -/
theorem writeWindow_readOnly {r : WinReg} (hr : r = .status ∨ r = .res ∨ r = .ecause ∨ r = .ecmd ∨ r = .config ∨ r = .init)
    (w : Word) (s : State) : writeWindow r w s = .next s := by
  obtain rfl | rfl | rfl | rfl | rfl | rfl := hr <;> rfl

/-- Settles O13: offsets, values read, values right after reset, and the ignored writes. -/
theorem windowReadValues : Obligations.WindowReadValues := by
  refine ⟨by decide, fun s => ?_, fun r => ?_, fun s r w rest hr hh => ?_⟩
  · exact ⟨rfl, rfl, s.statusWord_toNat, BitVec.toNat_setWidth_of_le (by decide),
      BitVec.toNat_setWidth_of_le (by decide), rfl, congrArg BitVec.toNat s.readWindow_config, s.readWindow_config,
      fun k => ⟨s.initWord_hvInit k, s.initWord_scalarInit k⟩⟩
  · cases r <;> decide
  · rw [step_cons hh]
    exact writeWindow_readOnly hr w _

/-- Settles O7: a step takes a pending move, and there is none. -/
theorem idleBlockKeepsItsState : Obligations.IdleBlockKeepsItsState := fun _ h => step_nil h

end Sys2Proof.Machine
end

section
/-!
SUPPORT. What every move keeps: the store in canonical form and the fault registers consistent (spec/20_memory.md rules R40,
R41; spec/10_state.md rules R29, R30; spec/60_exceptions.md rules R200, R206). A fault latches the word of its command, so
the proof needs that the word of a command is legal.
-/

namespace Sys2Proof

/-- The word of a command lies in the row of its format: its fields give back its operands, and its reserved bits are 0
(R62, R65). -/
theorem opcodeRow_encode (i : Instr) :
    ∃ f, opcodeRow (encode i) (fieldOp (encode i)).toNat = some (f, i) ∧
      encode i &&& f.mask = matchOf (fieldOp (encode i)) := by
  cases i with
  | bind | or | and | therm => exact ⟨.abc, by simp [encode, opcodeRow], by simp [encode]⟩
  | bundle | hamm | sim | copy | getb => exact ⟨.ab, by simp [encode, opcodeRow], by simp [encode]⟩
  | popc | clear => exact ⟨.a, by simp [encode, opcodeRow], by simp [encode]⟩
  | perm | sets => exact ⟨.ai16, by simp [encode, opcodeRow], by simp [encode]⟩
  | fill => exact ⟨.ai8, by simp [encode, opcodeRow], by simp [encode]⟩
  | setb => exact ⟨.abi8, by simp [encode, opcodeRow], by simp [encode]⟩
  | popc8 => exact ⟨.i8, by simp [encode, opcodeRow], by simp [encode]⟩
  | therms | encch => exact ⟨.abce, by simp [encode, opcodeRow], by simp [encode]⟩

/-- The word of a command decodes to it (R66). -/
theorem decode_encode (i : Instr) : decode (encode i) = .command i := by
  obtain ⟨f, hrow, hmask⟩ := opcodeRow_encode i
  unfold decode
  rw [hrow]
  exact if_pos hmask

end Sys2Proof

namespace Sys2Proof.Machine

/-- The invariant speaks of the block alone. -/
theorem SameBlock.inv {s t : State} (h : SameBlock s t) (hs : s.Inv) : t.Inv where
  mem := h.hvmem ▸ hs.mem
  quiet he := by
    rw [h.ecause, h.ecmd]
    exact hs.quiet (h.err ▸ he)
  cause he := by
    rw [h.ecause]
    exact hs.cause (h.err ▸ he)
  legal he := by
    rw [h.ecause, h.ecmd]
    exact hs.legal (h.err ▸ he)

/-- The host's pending moves are no part of the block. -/
theorem sameBlock_withHost (s : State) (ms : List HostMove) : SameBlock s { s with host := ms } := by
  constructor <;> rfl

/-- Reset leaves an empty store and no latched fault (R222). -/
theorem State.blockReset_inv (s : State) : s.blockReset.Inv where
  mem := by simp
  quiet _ := by simp
  cause he := by simp at he
  legal he := by simp at he

/-- Fault entry keeps the store and latches a word that is illegal exactly when the cause is `ILLEGAL_CMD` (R206). -/
theorem faulted_inv {s : State} {c : Byte} {w : Word} (hs : s.Inv) (hc : 1 ≤ c.toNat ∧ c.toNat ≤ 6)
    (hw : c = 1#8 ↔ (decode w).instr? = none) : (faulted c w s).Inv where
  mem := by simpa using hs.mem
  quiet he := by simp at he
  cause _ := by simpa using hc
  legal _ := by simpa using hw

/-- An illegal word raises cause 1 (R67, R201). -/
theorem faulted_inv_of_illegal {s : State} {w : Word} {why : Illegal} (hs : s.Inv) (hd : decode w = .illegal why) :
    (faulted 1#8 w s).Inv :=
  faulted_inv hs (by decide) (iff_of_true rfl (by rw [hd]; rfl))

/-- A command raises one of the other causes, and latches its own word, which is legal (R200, R206). -/
theorem faulted_inv_of_command {s : State} {i : Instr} {c : Byte} (hs : s.Inv) (hf : firstFaultOf i s = some c) :
    (faulted c (encode i) s).Inv := by
  obtain ⟨hlow, hhigh⟩ := firstFaultOf_range hf
  refine faulted_inv hs ⟨by omega, hhigh⟩ (iff_of_false ?_ ?_)
  · rintro rfl
    exact absurd hlow (by decide)
  · rw [decode_encode]
    exact Option.some_ne_none i

/-- The result of a command keeps the canonical form and writes no fault register. -/
theorem resultOf_inv (i : Instr) {s : State} (hs : s.Inv) : (resultOf i s).Inv := by
  obtain ⟨herr, hcause, hcmd, -, -⟩ := resultOf_quiet i s
  constructor
  · exact resultOf_wf i hs.mem
  · rw [herr, hcause, hcmd]
    exact hs.quiet
  · rw [herr, hcause]
    exact hs.cause
  · rw [herr, hcause, hcmd]
    exact hs.legal

/-- Settles O20: by `step_cases`, a step changes nothing in the block, resets it, enters a fault or completes a command. -/
theorem invariantKeptByEveryStep : Obligations.InvariantKeptByEveryStep := by
  intro s t hs h
  obtain ⟨-, rfl⟩ | ⟨m, rest, -, hmove⟩ := step_cases h
  · exact hs
  have hrest : State.Inv { s with host := rest } := (sameBlock_withHost s rest).inv hs
  obtain ⟨-, rfl⟩ | ⟨-, hsame, -⟩ | ⟨w, -, -, hcmd⟩ := hmove
  · exact State.blockReset_inv _
  · exact hsame.inv hs
  · obtain ⟨why, hd, rfl⟩ | ⟨i, c, -, hf, rfl⟩ | ⟨i, -, -, rfl⟩ := hcmd
    · exact faulted_inv_of_illegal hrest hd
    · exact faulted_inv_of_command hrest hf
    · exact resultOf_inv i hrest

end Sys2Proof.Machine
end

section
/-!
SUPPORT. The host window on the bus and the host's moves other than commands: spec/20_memory.md rules R43, R46 to R48,
spec/10_state.md rules R33, R35.
-/

namespace Sys2Proof.Machine

/-- Every register's offset is aligned and below `0x20` (R33). -/
theorem WinReg.offset_aligned_lt (r : WinReg) : r.offset % 4 = 0 ∧ r.offset < 0x20 := by
  cases r <;> decide

/-- The register at an offset is the one whose offset it is: no two registers share one (R33). -/
theorem winRegAt_eq_some_iff {o : Nat} {r : WinReg} : winRegAt o = some r ↔ o = r.offset := by
  constructor
  · intro h
    have hr := List.find?_some h
    simpa using Eq.symm (of_decide_eq_true hr)
  · rintro rfl
    cases r <;> decide

/-- The register at a bus address is the one whose address it is (R47). -/
theorem winRegAtAddress_eq_some_iff {x : Nat} {r : WinReg} : winRegAtAddress x = some r ↔ x = r.address := by
  unfold winRegAtAddress WinReg.address
  split
  · rw [winRegAt_eq_some_iff]
    omega
  · exact iff_of_false nofun (by omega)

/-- A word is the little-endian sum of its four bytes (R43). -/
theorem word_bytes_sum (w : Word) :
    (w.extractLsb' (8 * 0) 8).toNat + (w.extractLsb' (8 * 1) 8).toNat * 2 ^ 8
      + (w.extractLsb' (8 * 2) 8).toNat * 2 ^ 16 + (w.extractLsb' (8 * 3) 8).toNat * 2 ^ 24 = w.toNat := by
  have := w.isLt
  simp only [BitVec.extractLsb'_toNat, Nat.shiftRight_eq_div_pow]
  omega

/-- Settles O14: each address is `HOSTBASE`, a multiple of 32, plus an offset that is a multiple of 4 below 32. -/
theorem windowAddressesAndByteOrder : Obligations.WindowAddressesAndByteOrder := by
  have hbase : Config.hostBase % 32 = 0 := Nat.mul_mod_right 32 _
  refine ⟨hbase, fun r => ⟨rfl, ?_⟩, fun _ _ => winRegAtAddress_eq_some_iff, fun s r => word_bytes_sum _⟩
  have := r.offset_aligned_lt
  unfold WinReg.address
  omega

/-- After a reset the block is as R222 says. -/
theorem State.blockReset_isReset (s : State) : s.blockReset.IsReset where
  hvInit := s.blockReset_hvInit
  scalarInit := s.blockReset_scalarInit
  res := s.blockReset_res
  err := s.blockReset_err
  ecause := s.blockReset_ecause
  ecmd := s.blockReset_ecmd
  config := s.blockReset.readWindow_config
  init := by simp [State.readWindow, State.initWord]
  faultO := s.blockReset_err

/-- What a window read returns depends on nothing of the host's side. -/
theorem State.readWindow_withHostSide (s : State) (r : WinReg) (ms : List HostMove) (vs : List Word) :
    State.readWindow { s with host := ms, seen := vs } r = s.readWindow r := by
  cases r <;> rfl

/-- A step whose move is a read: the host has seen the register's value, and the block is as before (R46). -/
theorem step_read {s : State} {r : WinReg} {rest : List HostMove} (hh : s.host = .read r :: rest) :
    step s = .next { s with host := rest, seen := s.seen ++ [s.readWindow r] } := by
  rw [step_cons hh, performMove, s.readWindow_withHostSide r rest s.seen]

/-- A write of `CTRL` with bit 0 clear does nothing (R35). -/
theorem writeWindow_ctrl_of_clear {w : Word} (hw : w.getLsbD 0 = false) (s : State) :
    writeWindow .ctrl w s = .next s := by
  simp only [writeWindow, hw, Bool.false_eq_true, if_false]

/-- Settles O9: a read by `step_read`; a write of `CTRL` by its bit 0; the read-only registers ignore writes. -/
theorem hostMovesOtherThanCommands : Obligations.HostMovesOtherThanCommands := by
  intro s rest
  refine ⟨fun r hh => step_read hh, fun r hh => ⟨_, step_read hh, ?_⟩, fun r w hcmd hctrl hh => ?_,
    fun w hw hh => ?_, fun w hw hh => ?_, rfl, fun w hh => step_cmd hh⟩
  · rw [step_read rfl]
    simp only [State.readWindow_withHostSide]
  · have hreadOnly : r = .status ∨ r = .res ∨ r = .ecause ∨ r = .ecmd ∨ r = .config ∨ r = .init := by
      cases r <;> simp_all
    exact (step_cons hh).trans (writeWindow_readOnly hreadOnly w _)
  · exact (step_cons hh).trans (writeWindow_ctrl_of_clear hw _)
  · have hm : (HostMove.write .ctrl w).resets = true := hw
    exact ⟨_, step_of_resets hm hh, State.blockReset_isReset _, State.blockReset_host _, State.blockReset_seen _⟩

end Sys2Proof.Machine
end

section
/-!
SUPPORT. The hypervector store byte by byte and bit by bit: spec/20_memory.md rules R41, R42, and the byte accesses of
spec/47_host_access.md rules R171, R172 on an initialised register.
-/

namespace Sys2Proof.Machine

/-- The sum of R41 over a range of byte indices. -/
theorem bytesVal_eq_sum (f : Nat → Byte) (n : Nat) :
    bytesVal f n = ∑ i ∈ Finset.range n, (f i).toNat * 2 ^ (8 * i) := by
  induction n with
  | zero => rfl
  | succ n ih => rw [bytesVal, Finset.sum_range_succ, ih]

/-- The number of a vector made of bytes (R7, R41). -/
theorem hvOfBytes_toNat (f : Nat → Byte) :
    (hvOfBytes f).toNat = ∑ i ∈ Finset.range 16, (f i).toNat * 2 ^ (8 * i) := by
  rw [hvOfBytes, BitVec.toNat_ofNat, Nat.mod_eq_of_lt (bytesVal_lt f 16), bytesVal_eq_sum]

/-- Byte `j` of a register that was written whole (R41). -/
theorem State.memRead_writeHv_byte (s : State) (k : HReg) (v : Hv) {j : Nat} (hj : j < 16) :
    (s.writeHv k v).memRead (hvAddr k + j) = hvByte v j := by
  rw [State.memRead_writeHv, if_pos ⟨by omega, by omega⟩, Nat.add_sub_cancel_left]

/-- Settles O26: the byte view and the whole-register view of the store agree. -/
theorem storeLayout : Obligations.StoreLayout := by
  intro s k j hj
  refine ⟨(s.hvByte_hv k j hj).symm, fun v => ⟨?_, fun i hi hne => ?_, fun l hl => ?_, s.memWrite_frame _ v⟩,
    hvOfBytes_toNat _, fun v => ⟨s.memRead_writeHv_byte k v hj, s.hv_writeHv_same k v, (s.writeHv_frame k v).memory⟩⟩
  · exact (s.hvByte_hv_memWrite k j v j hj hj).trans (if_pos rfl)
  · exact (s.hvByte_hv_memWrite k j v i hj hi).trans (if_neg hne)
  · exact s.hv_memWrite_of_ne hl j hj v

/-- Bit `i` of `H[k]` in the store (R42). -/
theorem State.hv_getLsbD (s : State) (k : HReg) {i : Nat} (hi : i < 128) :
    (s.hv k).getLsbD i = (s.memRead (hvAddr k + i / 8)).getLsbD (i % 8) :=
  hvOfBytes_getLsbD _ _ hi

/-- The mask of bit `t` of byte `j` tests bit `8j + t` of the vector (R42). -/
theorem hvByte_and_twoPow (v : Hv) (j t : Nat) (ht : t < 8) :
    (hvByte v j &&& BitVec.twoPow 8 t != 0#8) = v.getLsbD (8 * j + t) := by
  have hpow : BitVec.twoPow 8 t ≠ 0#8 := by
    interval_cases t <;> decide
  rw [BitVec.and_twoPow, hvByte_getLsbD _ _ _ ht]
  cases v.getLsbD (8 * j + t) <;> simp [hpow]

/-- A command whose registers are all initialised and whose value check passes meets no fault (R76). -/
theorem firstFaultOf_eq_none {i : Instr} {s : State} (hr : ∀ r ∈ readsOf i, r.ready s = true)
    (hv : valueFaultOf i s = none) : firstFaultOf i s = none := by
  have hfind : (readsOf i).find? (fun r => !r.ready s) = none := by simpa using hr
  unfold firstFaultOf
  rw [hfind]
  exact hv

/-- `GETB` on an initialised register delivers the byte of the store (R172). -/
theorem exec_getb_of_init {s : State} {ha : HReg} (h : s.hvInit ha = true) (idx : ByteIdx) :
    exec (.getb ha idx) s = .next (s.writeRes (s.memRead (byteAddr ha idx))) :=
  exec_of_ready (firstFaultOf_eq_none (by simpa [readsOf, RegRead.ready] using h) rfl)

/-- `SETB` on an initialised register writes the byte of the store (R171). -/
theorem exec_setb_of_init {s : State} {hd : HReg} (h : s.hvInit hd = true) (idx : ByteIdx) (byte : Byte) :
    exec (.setb hd idx byte) s = .next (s.memWrite (byteAddr hd idx) byte) :=
  exec_of_ready (firstFaultOf_eq_none (by simpa [readsOf, RegRead.ready] using h) rfl)

/-- The bits of a register after one of its bytes was written (R42). -/
theorem State.hv_memWrite_getLsbD (s : State) (k : HReg) (idx : ByteIdx) (v : Byte) {i : Nat} (hi : i < 128) :
    ((s.memWrite (byteAddr k idx) v).hv k).getLsbD i =
      if i / 8 = idx.val then v.getLsbD (i % 8) else (s.hv k).getLsbD i := by
  rw [State.hv_getLsbD _ _ hi, State.hv_getLsbD _ _ hi, State.memRead_memWrite, byteAddr]
  by_cases h : i / 8 = idx.val
  · rw [if_pos (by omega), if_pos h]
  · rw [if_neg (by omega), if_neg h]

/-- Settles O27: bit `i` lies in byte `i div 8` at place `i mod 8`, for masks and for the byte accesses too. -/
theorem bitOrderInTheStore : Obligations.BitOrderInTheStore := by
  refine ⟨fun s k i hi => s.hv_getLsbD k hi, fun v => ⟨?_, ?_, ?_, ?_⟩, fun s k v idx => ?_, fun s k idx byte h => ?_⟩
  · exact (hvByte_and_twoPow v 0 0 (by decide)).symm
  · exact (hvByte_and_twoPow v 0 7 (by decide)).symm
  · exact (hvByte_and_twoPow v 1 0 (by decide)).symm
  · exact (hvByte_and_twoPow v 15 7 (by decide)).symm
  · refine ⟨_, exec_getb_of_init (by simp) idx, fun b hb => ?_⟩
    rw [State.writeRes_res, byteAddr, State.memRead_writeHv_byte _ _ _ idx.isLt, hvByte_getLsbD _ _ _ hb]
  · exact ⟨_, exec_setb_of_init h idx byte, fun i hi => s.hv_memWrite_getLsbD k idx byte hi⟩

end Sys2Proof.Machine
end

section
/-!
SUPPORT. The decoder and the table of spec/30_encoding.md: a legal word is laid out from its fields (rules R61, R62), and the
model's opcode rows are the rows R65 prints (rule R66), so decoding is a search of that table.
-/

namespace Sys2Proof

/-! ### A legal word is the word of its command -/

/-- When a word decodes to a command: its opcode's row makes the command, and its reserved bits are 0 (R66). -/
theorem decode_eq_command_iff {w : Word} {i : Instr} :
    decode w = .command i ↔
      ∃ f, opcodeRow w (fieldOp w).toNat = some (f, i) ∧ w &&& f.mask = matchOf (fieldOp w) := by
  unfold decode
  constructor
  · intro h
    split at h
    · cases h
    · rename_i f j hrow
      split at h
      · rename_i hmask
        cases h
        exact ⟨f, hrow, hmask⟩
      · cases h
  · rintro ⟨f, hrow, hmask⟩
    rw [hrow]
    exact if_pos hmask

/-- A word laid out again from the fields its format has, reserved fields 0 (R62). -/
def Format.layout (w : Word) : Format → Word
  | .abc => wordOf (fieldOp w) (fieldA w) (fieldB w) (fieldC w) 0#4 0#8
  | .ab => wordOf (fieldOp w) (fieldA w) (fieldB w) 0#4 0#4 0#8
  | .a => wordOf (fieldOp w) (fieldA w) 0#4 0#4 0#4 0#8
  | .ai16 => wordOf16 (fieldOp w) (fieldA w) (fieldI16 w)
  | .ai8 => wordOf (fieldOp w) (fieldA w) 0#4 0#4 0#4 (fieldI8 w)
  | .abi8 => wordOf (fieldOp w) (fieldA w) (fieldB w) 0#4 0#4 (fieldI8 w)
  | .i8 => wordOf (fieldOp w) 0#4 0#4 0#4 0#4 (fieldI8 w)
  | .abce => wordOf (fieldOp w) (fieldA w) (fieldB w) (fieldC w) (fieldE w) 0#8

/-- A word whose reserved bits are 0 is its own layout. -/
theorem Format.layout_of_mask {f : Format} {w : Word} (h : w &&& f.mask = matchOf (fieldOp w)) : f.layout w = w := by
  cases f with
  | abc => exact (eq_of_mask_abc h).symm
  | ab => exact (eq_of_mask_ab h).symm
  | a => exact (eq_of_mask_a h).symm
  | ai16 => exact (eq_of_mask_ai16 h).symm
  | ai8 => exact (eq_of_mask_ai8 h).symm
  | abi8 => exact (eq_of_mask_abi8 h).symm
  | i8 => exact (eq_of_mask_i8 h).symm
  | abce => exact (eq_of_mask_abce h).symm

/-- The command a row makes of a word has that word's layout as its own word: `encode` and `opcodeRow` put every operand
into the same field. -/
theorem encode_of_opcodeRow {w : Word} {n : Nat} {f : Format} {i : Instr} (hop : fieldOp w = BitVec.ofNat 8 n)
    (h : opcodeRow w n = some (f, i)) : encode i = f.layout w := by
  unfold opcodeRow at h
  split at h <;> cases h <;> simp [encode, Format.layout, hop]

/-- A legal word is the word of the command it decodes to (R62, R66). -/
theorem encode_of_decode {w : Word} {i : Instr} (h : decode w = .command i) : encode i = w := by
  obtain ⟨f, hrow, hmask⟩ := decode_eq_command_iff.mp h
  rw [encode_of_opcodeRow (by simp) hrow, Format.layout_of_mask hmask]

/-- Settles O2: the fields of a command's word give back its operands, and its reserved bits are 0. -/
theorem decodeOfEncode : Obligations.DecodeOfEncode := decode_encode

/-- Settles O3: a word whose reserved bits are 0 is laid out from the fields its command is made of. -/
theorem encodeOfDecode : Obligations.EncodeOfDecode := fun _ _ h => encode_of_decode h

end Sys2Proof
end

section
/-!
SUPPORT. The opcode rows of the decoder are the rows spec/30_encoding.md prints in rule R65, with the fields of rule R61, so
decoding is the total function of that table (rules R66, R67).
-/

namespace Sys2Proof

open Machine

/-! ### Fields as numbers and as bits -/

/-- Bits of a word as a number are the slice the decoder takes (R61). -/
theorem bitsOf_eq (w : Word) (lo n : Nat) : bitsOf w lo n = (w.extractLsb' lo n).toNat := by
  rw [bitsOf, BitVec.extractLsb'_toNat, Nat.shiftRight_eq_div_pow]

theorem regField_eq (w : Word) (lo : Nat) : regField w lo = regOf (w.extractLsb' lo 4) :=
  Fin.ext (bitsOf_eq w lo 4)

theorem imm8Field_eq (w : Word) : imm8Field w = fieldI8 w := by
  rw [imm8Field, bitsOf_eq, BitVec.ofNat_toNat, BitVec.setWidth_eq, fieldI8]

theorem imm16Field_eq (w : Word) : imm16Field w = fieldI16 w := by
  rw [imm16Field, bitsOf_eq, BitVec.ofNat_toNat, BitVec.setWidth_eq, fieldI16]

/-! ### Matches -/

@[simp] theorem fieldOp_matchOf (op : Byte) : fieldOp (matchOf op) = op := by
  apply BitVec.eq_of_getLsbD_eq
  intro i hi
  rw [fieldOp_getLsbD, matchOf, BitVec.getLsbD_append]
  simp [hi]

/-- The `op` of a word in place, all other bits 0. -/
theorem matchOf_fieldOp (w : Word) : matchOf (fieldOp w) = w &&& 0xFF000000#32 := by
  have hmask : 0xFF000000#32 = BitVec.allOnes 8 ++ 0#24 := by decide
  apply BitVec.eq_of_getLsbD_eq
  intro i hi
  rw [matchOf, hmask, BitVec.getLsbD_and, BitVec.getLsbD_append, BitVec.getLsbD_append, fieldOp_getLsbD,
    BitVec.getLsbD_allOnes]
  by_cases h : i < 24
  · simp [h]
  · simp [h, show 24 + (i - 24) = i by omega, Bool.and_comm]

/-- The match of a row of R65 is an `op`, and its mask covers `op`. -/
theorem specRows_match {row : SpecRow} (h : row ∈ specRows) :
    row.mtch = matchOf (fieldOp row.mtch) ∧ row.mask &&& 0xFF000000#32 = 0xFF000000#32 := by
  revert row
  simp only [specRows, List.forall_mem_cons]
  decide

/-- A word has a row's `op` exactly when its bits [31:24] are the row's match. -/
theorem op_eq_match_iff {row : SpecRow} (h : row ∈ specRows) (w : Word) :
    w &&& 0xFF000000#32 = row.mtch ↔ fieldOp w = fieldOp row.mtch := by
  rw [← matchOf_fieldOp, (specRows_match h).1, fieldOp_matchOf]
  exact ⟨fun e => by simpa using congrArg fieldOp e, fun e => by rw [e]⟩

/-- A word that matches a row has the row's `op`. -/
theorem op_of_match {row : SpecRow} (h : row ∈ specRows) {w : Word} (hw : w &&& row.mask = row.mtch) :
    w &&& 0xFF000000#32 = row.mtch := by
  obtain ⟨hop, hmask⟩ := specRows_match h
  calc w &&& 0xFF000000#32
    _ = (w &&& row.mask) &&& 0xFF000000#32 := by rw [BitVec.and_assoc, hmask]
    _ = row.mtch := by rw [hw, ← matchOf_fieldOp, ← hop]

/-! ### The rows -/

/-- The decoder's row for the `op` of a row of R65 has its mask, and makes its command. -/
theorem opcodeRow_of_mem {row : SpecRow} (h : row ∈ specRows) (w : Word) :
    ∃ f : Format, row.mask = f.mask ∧ opcodeRow w (fieldOp row.mtch).toNat = some (f, row.build w) := by
  unfold specRows at h
  simp only [regField_eq, imm8Field_eq, imm16Field_eq] at h
  fin_cases h <;> exact ⟨_, rfl, rfl⟩

/-- The decoder has no row beyond those of R65. -/
theorem mem_of_opcodeRow {w : Word} {n : Nat} {p : Format × Instr} (h : opcodeRow w n = some p) :
    ∃ row ∈ specRows, (fieldOp row.mtch).toNat = n := by
  unfold opcodeRow at h
  split at h <;> cases h <;> decide

/-! ### Decoding by the table -/

/-- A word with a row's `op` is that row's command, or illegal by a reserved bit (R66). -/
theorem decode_of_row {row : SpecRow} (h : row ∈ specRows) {w : Word} (hop : w &&& 0xFF000000#32 = row.mtch) :
    decode w = if w &&& row.mask = row.mtch then .command (row.build w) else .illegal .reservedBit := by
  obtain ⟨f, hmask, hrow⟩ := opcodeRow_of_mem h w
  rw [← (op_eq_match_iff h w).mp hop] at hrow
  unfold decode
  rw [hrow, hmask, ← hop, matchOf_fieldOp]

/-- A word with no row's `op` is illegal by that name (R66). -/
theorem decode_of_no_row {w : Word} (h : ∀ row ∈ specRows, w &&& 0xFF000000#32 ≠ row.mtch) :
    decode w = .illegal .unassignedOp := by
  have hnone : opcodeRow w (fieldOp w).toNat = none := by
    by_contra hne
    obtain ⟨p, hp⟩ := Option.ne_none_iff_exists'.mp hne
    obtain ⟨row, hmem, hop⟩ := mem_of_opcodeRow hp
    exact h row hmem ((op_eq_match_iff hmem w).mpr (BitVec.eq_of_toNat_eq hop.symm))
  unfold decode
  rw [hnone]

/-- A word that matches a row of R65 is that row's command (R66). -/
theorem decode_of_match {row : SpecRow} (h : row ∈ specRows) {w : Word} (hw : w &&& row.mask = row.mtch) :
    decode w = .command (row.build w) := by
  rw [decode_of_row h (op_of_match h hw), if_pos hw]

/-- A word that matches no row is illegal (R66, R67). -/
theorem decode_of_no_match {w : Word} (h : ∀ row ∈ specRows, w &&& row.mask ≠ row.mtch) :
    ∃ why, decode w = .illegal why := by
  by_cases hop : ∃ row ∈ specRows, w &&& 0xFF000000#32 = row.mtch
  · obtain ⟨row, hmem, hrow⟩ := hop
    exact ⟨_, by rw [decode_of_row hmem hrow, if_neg (h row hmem)]⟩
  · push Not at hop
    exact ⟨_, decode_of_no_row hop⟩

/-- Settles O4: a word with a row's `op` is decided by the row's mask, and one with no row's `op` is unassigned. -/
theorem decodeFollowsOpcodeTable : Obligations.DecodeFollowsOpcodeTable := by
  refine ⟨fun w => ⟨fun row hmem hw => decode_of_match hmem hw, decode_of_no_row, ?_⟩, rfl, by simp [specRows]⟩
  rintro ⟨row, hmem, hop, hw⟩
  rw [decode_of_row hmem hop, if_neg hw]

/-- Settles O1: the words of table B9, decoded by evaluation. -/
theorem specWordsDecode : Obligations.SpecWordsDecode := by
  unfold Obligations.SpecWordsDecode
  decide

end Sys2Proof
end

section
/-!
SUPPORT. A write of `CMD` in the order of spec/30_encoding.md rule R76: discard, decoding, initialisation checks in field order
(spec/60_exceptions.md rule R208), value check, result.
-/

namespace Sys2Proof.Machine

/-! ### The first fault of a command -/

/-- A register that is not ready, after registers that are, gives the fault of its class (R76 step 3, R208). -/
theorem firstFaultOf_of_uninit {i : Instr} {s : State} {pre post : List RegRead} {r : RegRead}
    (hreads : readsOf i = pre ++ r :: post) (hpre : ∀ x ∈ pre, x.ready s = true) (hr : r.ready s = false) :
    firstFaultOf i s = some r.cause.code := by
  have hfind : (readsOf i).find? (fun x => !x.ready s) = some r := by
    rw [hreads, List.find?_append, List.find?_eq_none.mpr (by simpa using hpre)]
    simp [hr]
  unfold firstFaultOf
  rw [hfind]
  cases r <;> rfl

/-- A command whose registers are all ready has its value check alone (R76 step 4). -/
theorem firstFaultOf_of_reads_ready {i : Instr} {s : State} (hr : ∀ r ∈ readsOf i, r.ready s = true) :
    firstFaultOf i s = valueFaultOf i s := by
  have hfind : (readsOf i).find? (fun r => !r.ready s) = none := by simpa using hr
  unfold firstFaultOf
  rw [hfind]

/-! ### The step that writes `CMD` -/

section
variable {s : State} {w : Word} {rest : List HostMove} (hh : s.host = .write .cmd w :: rest)
include hh

/-- A faulted block takes the move and nothing else (R207). -/
theorem step_cmd_of_err (he : s.err = true) : step s = .next { s with host := rest } := by
  rw [step_cmd hh, issueCommand_of_err w (by exact he)]

/-- An illegal word is the fault entry with cause 1 (R67). -/
theorem step_cmd_of_illegal (he : s.err = false) {why : Illegal} (hd : decode w = .illegal why) :
    step s = .next (faulted 1#8 w { s with host := rest }) := by
  rw [step_cmd hh, issueCommand_of_illegal (by exact he) hd]

/-- A legal word is the execution of its command (R76). -/
theorem step_cmd_of_command (he : s.err = false) {i : Instr} (hd : decode w = .command i) :
    step s = exec i { s with host := rest } := by
  rw [step_cmd hh, issueCommand_of_command (by exact he) hd, exec_eq]

/-- A command's first fault latches the word that was written: a command has one word (R206, log 8). -/
theorem step_cmd_of_fault (he : s.err = false) {i : Instr} (hd : decode w = .command i) {c : Byte}
    (hf : firstFaultOf i s = some c) : step s = .next (faulted c w { s with host := rest }) := by
  rw [step_cmd_of_command hh he hd, exec_of_fault ((firstFaultOf_withHost i s rest).trans hf), encode_of_decode hd]

/-- A command with no fault completes, the block not faulted (R76 step 5). -/
theorem step_cmd_of_ready (he : s.err = false) {i : Instr} (hd : decode w = .command i)
    (hf : firstFaultOf i s = none) : ∃ t, step s = .next t ∧ t.err = false ∧ t.host = rest := by
  obtain ⟨herr, -, -, hhost, -⟩ := resultOf_quiet i { s with host := rest }
  refine ⟨resultOf i { s with host := rest }, ?_, herr.trans he, hhost⟩
  rw [step_cmd_of_command hh he hd, exec_of_ready ((firstFaultOf_withHost i s rest).trans hf)]

end

/-- Settles O8: each clause is one of the cases of the step that writes `CMD`, the fault found by `firstFaultOf`. -/
theorem commandStepOrder : Obligations.CommandStepOrder := by
  intro s w rest hh
  refine ⟨step_cmd_of_err hh, fun he =>
    ⟨fun why => step_cmd_of_illegal hh he, fun i hd => ⟨?_, ?_, fun hready => ⟨?_, ?_⟩⟩⟩⟩
  · exact fun pre k post hreads hpre hk => step_cmd_of_fault hh he hd (firstFaultOf_of_uninit hreads hpre hk)
  · exact fun pre k post hreads hpre hk => step_cmd_of_fault hh he hd (firstFaultOf_of_uninit hreads hpre hk)
  · exact fun c hc => step_cmd_of_fault hh he hd ((firstFaultOf_of_reads_ready hready).trans hc)
  · exact fun hnone => step_cmd_of_ready hh he hd ((firstFaultOf_of_reads_ready hready).trans hnone)

/-- Settles O5: a word that matches no row is illegal, and 18 of the 256 values of `op` are assigned. -/
theorem illegalWordsFault : Obligations.IllegalWordsFault := by
  refine ⟨fun w s rest hw hh he => ?_, by decide +kernel, by simp [specRows], fun w => ?_⟩
  · obtain ⟨why, hd⟩ := decode_of_no_match hw
    exact step_cmd_of_illegal hh he hd
  · by_cases hmatch : ∃ row ∈ specRows, w &&& row.mask = row.mtch
    · obtain ⟨row, hmem, hw⟩ := hmatch
      exact .inl ⟨row, hmem, decode_of_match hmem hw⟩
    · push Not at hmatch
      exact .inr ⟨hmatch, decode_of_no_match hmatch⟩

/-- Settles O6: `step_cmd_of_command`, and the word of a command decodes to it. -/
theorem stepRunsDecodedCommand : Obligations.StepRunsDecodedCommand :=
  ⟨fun _ _ _ _ hh he hd => step_cmd_of_command hh he hd,
    fun _ _ i hh he => step_cmd_of_command hh he (decode_encode i)⟩

end Sys2Proof.Machine
end

section
/-!
SUPPORT. The runs of the pseudo-instructions `LDHV` and `ONES` (spec/30_encoding.md rules R74, R75) and the assembler's
examples (rule R71).
-/

namespace Sys2Proof.Machine

/-- A run that begins with the word of a command that meets no fault. -/
theorem runMoves_issueAll_cons {s : State} {i : Instr} (he : s.err = false) (hf : firstFaultOf i s = none)
    (is : List Instr) : runMoves s (issueAll (i :: is)) = runMoves (resultOf i s) (issueAll is) := by
  rw [← nextOf_of_ready hf]
  exact runMoves_cmd he (decode_encode i) (issueAll is)

/-! ### Loading a vector byte by byte -/

/-- Nothing changed is at most one register changed, where that register is initialised. -/
theorem OnlyHvChanged.of_init {k : HReg} {s : State} (h : s.hvInit k = true) : OnlyHvChanged k s s where
  init := h
  memory _ _ := rfl
  others _ _ := ⟨rfl, rfl⟩
  scalars := rfl
  sinit := rfl
  res := rfl
  err := rfl
  ecause := rfl
  ecmd := rfl
  host := rfl
  seen := rfl

/-- `SETB`s on an initialised register write the bytes they name and change nothing else, in any order (R171). -/
theorem runMoves_setb {hd : HReg} (b : ByteIdx → Byte) (js : List ByteIdx) {s : State} (he : s.err = false)
    (hi : s.hvInit hd = true) :
    ∃ t, runMoves s (issueAll (js.map fun j => .setb hd j (b j))) = .next t ∧ OnlyHvChanged hd s t ∧
      ∀ j : ByteIdx, hvByte (t.hv hd) j.val = if j ∈ js then b j else hvByte (s.hv hd) j.val := by
  induction js generalizing s with
  | nil => exact ⟨s, rfl, OnlyHvChanged.of_init hi, by simp⟩
  | cons k js ih =>
    have hframe := State.memWrite_onlyHv hi k (b k)
    obtain ⟨t, hrun, honly, hbytes⟩ := ih (hframe.err.trans he) hframe.init
    refine ⟨t, ?_, hframe.trans honly, fun j => ?_⟩
    · have hready : firstFaultOf (.setb hd k (b k)) s = none :=
        firstFaultOf_eq_none (by simpa [readsOf, RegRead.ready] using hi) rfl
      rw [List.map_cons, runMoves_issueAll_cons he hready]
      exact hrun
    · rw [hbytes, byteAddr, State.hvByte_hv_memWrite _ _ _ _ _ k.isLt j.isLt]
      by_cases hj : j = k
      · simp [hj]
      · simp [hj, Fin.val_ne_of_ne hj]

/-- `CLEAR` and then `SETB` of at least the bytes that are not zero loads the vector of those bytes (R74). -/
theorem runMoves_clear_setb (hd : HReg) (b : ByteIdx → Byte) (js : List ByteIdx) (hjs : ∀ j, j ∉ js → b j = 0#8)
    {s : State} (he : s.err = false) :
    ∃ t, runMoves s (issueAll (.clear hd :: js.map fun j => .setb hd j (b j))) = .next t ∧ OnlyHvChanged hd s t ∧
      ∀ j : ByteIdx, hvByte (t.hv hd) j.val = b j := by
  have hframe := s.writeHv_frame hd 0#128
  obtain ⟨t, hrun, honly, hbytes⟩ := runMoves_setb b js (hframe.err.trans he) hframe.init
  refine ⟨t, ?_, hframe.trans honly, fun j => ?_⟩
  · rw [runMoves_issueAll_cons he (i := .clear hd) rfl]
    exact hrun
  · rw [hbytes, State.hv_writeHv_same, hvByte_zero]
    split
    · rfl
    · next hj => exact (hjs j hj).symm

/-- The `SETB`s of sixteen bytes, byte `j` named by its place in the list (R74). -/
theorem setBytes_eq_map (hd : HReg) {bytes : List Byte} (hlen : bytes.length = 16) :
    setBytes hd bytes = (List.finRange 16).map fun j => .setb hd j (bytes.getD j.val 0#8) := by
  apply List.ext_getElem
  · simp [setBytes, hlen]
  · intro n _ hn
    replace hn : n < bytes.length := by simpa [hlen] using hn
    simp [setBytes, hn]

/-- Settles O55: both expansions write every byte that is not zero into a cleared register. -/
theorem loadVectorLoads : Obligations.LoadVectorLoads := by
  intro hd bytes s hlen he
  have hexpand : pseudoCommands (.ldhv hd bytes)
      = .clear hd :: (List.finRange 16).map (fun j => .setb hd j (bytes.getD j.val 0#8)) :=
    congrArg (_ :: ·) (setBytes_eq_map hd hlen)
  obtain ⟨t, ht, honly, hbytes⟩ := runMoves_clear_setb hd (fun j => bytes.getD j.val 0#8) (List.finRange 16)
    (fun j hj => absurd (List.mem_finRange j) hj) he
  obtain ⟨u, hu, honly', hbytes'⟩ := runMoves_clear_setb hd (fun j => bytes.getD j.val 0#8)
    ((List.finRange 16).filter fun j => bytes.getD j.val 0#8 != 0#8) (fun j hj => by simpa using hj) he
  refine ⟨by simp [hexpand], hexpand, t, by rw [hexpand]; exact ht, honly, fun j hj => hbytes ⟨j, hj⟩,
    u, hu, ?_, honly'⟩
  exact hv_ext_bytes fun j hj => (hbytes' ⟨j, hj⟩).trans (hbytes ⟨j, hj⟩).symm

/-! ### The all-ones vector -/

/-- Settles O56: `FILL` with `0xFF` makes the all-ones vector, and XOR with it is the complement. -/
theorem onesMakesTheComplementReachable : Obligations.OnesMakesTheComplementReachable := by
  intro ho s he
  have hones : (s.writeHv ho (fillHv 0xFF#8)).hv ho = onesHv := by
    rw [State.hv_writeHv_same, onesHv_eq_fillHv]
  have hframe := s.writeHv_frame ho (fillHv 0xFF#8)
  refine ⟨rfl, s.writeHv ho (fillHv 0xFF#8), ?_, hones, hframe, fun hd hx hinit => ?_⟩
  · exact runMoves_issueAll_cons he (i := .fill ho 0xFF#8) rfl []
  · have hready : firstFaultOf (.bind hd hx ho) (s.writeHv ho (fillHv 0xFF#8)) = none :=
      firstFaultOf_eq_none (by simpa [readsOf, RegRead.ready] using hinit) rfl
    refine ⟨_, runMoves_issueAll_cons (hframe.err.trans he) hready [], ?_⟩
    rw [resultOf, State.hv_writeHv_same, hones, onesHv, BitVec.xor_allOnes]

/-! ### The assembler -/

/-- Settles O57: the lines of R71 and R73, assembled by evaluation. -/
theorem assemblerExamples : Obligations.AssemblerExamples := by
  unfold Obligations.AssemblerExamples
  decide

end Sys2Proof.Machine
end

section
/-!
SUPPORT. The rules every command states of its own row: its reserved bits (spec/30_encoding.md rules R62, R67), the fault of
an uninitialised first operand (spec/60_exceptions.md rule R202), and a result delivered in `RES` (spec/10_state.md rule
R26).
-/

namespace Sys2Proof.Machine

/-- A word with a row's `op` and a reserved bit set is a fault with cause 1 (R62, R67). -/
theorem reservedBitsRejected_of_mem {row : SpecRow} (h : row ∈ specRows) : ReservedBitsRejected row.mtch row.mask := by
  intro w s rest hop hmask hh he
  exact step_cmd_of_illegal hh he ((decode_of_row h hop).trans (if_neg hmask))

/-- A command whose first operand is an uninitialised vector takes fault 2 with its own word, whatever else it reads
(R202, R208). -/
theorem exec_of_first_uninit {i : Instr} {s : State} {k : HReg} {rest : List RegRead} (hreads : readsOf i = .hv k :: rest)
    (h : s.hvInit k = false) : exec i s = .next (faulted 2#8 (encode i) s) :=
  exec_of_fault (firstFaultOf_of_uninit (pre := []) hreads (by simp) h)

/-- Writing `RES` changes nothing but `RES` (R26). -/
theorem State.writeRes_frame (s : State) (v : Byte) : s.writeRes v = { s with res := (s.writeRes v).res } := by rfl

end Sys2Proof.Machine
end

section
/-!
SUPPORT. Population counts: spec/40_popcount.md rules R100, R101.
-/

namespace Sys2Proof.Machine

/-! ### The count of a byte -/

/-- The rule's own term for bit `t` of a byte (R100). -/
theorem toNat_ushiftRight_and_one (b : Byte) (t : Nat) : ((b >>> t) &&& 1#8).toNat = (b.getLsbD t).toNat := by
  rw [BitVec.and_one_eq_setWidth_ofBool_getLsbD, BitVec.getLsbD_ushiftRight, Nat.add_zero]
  cases b.getLsbD t <;> rfl

/-- `popcount8(b) = Σ_{t=0..7} ((b >> t) & 1)` (R100). -/
theorem popcount8_eq_sum_shifts (b : Byte) : popcount8 b = ∑ t ∈ Finset.range 8, ((b >>> t) &&& 1#8).toNat := by
  simp only [popcount8_eq_sum, toNat_ushiftRight_and_one]

/-- A byte's count fits `RES` (R100). -/
theorem toNat_ofNat_popcount8 (b : Byte) : (BitVec.ofNat 8 (popcount8 b)).toNat = popcount8 b := by
  have := popcount8_le b
  rw [BitVec.toNat_ofNat]
  omega

/-- The word of `POPC8` (R100). -/
theorem encode_popc8 (b : Byte) : encode (.popc8 b) = 0x20000000#32 ||| b.setWidth 32 := by
  simp [encode, wordOf_eq_or]

/-- `POPC8` reads no register, so it completes in every state (R100). -/
theorem exec_popc8 (b : Byte) (s : State) : exec (.popc8 b) s = .next (s.writeRes (BitVec.ofNat 8 (popcount8 b))) :=
  exec_of_ready rfl

/-- Settles O28: `POPC8` delivers the sum of the byte's bits, which fits `RES`. -/
theorem popcountOfAByte : Obligations.PopcountOfAByte := by
  refine ⟨reservedBitsRejected_of_mem (row := ⟨_, _, fun w => .popc8 (imm8Field w)⟩) (by simp [specRows]), fun b s => ?_,
    by decide, by decide, by decide, by decide, by decide⟩
  exact ⟨encode_popc8 b, popcount8_eq_sum_shifts b, popcount8_le b, _, exec_popc8 b s, toNat_ofNat_popcount8 b,
    s.writeRes_frame _⟩

/-! ### The count of a vector -/

theorem byteCountSum_eq_sum_bytes (v : Hv) (n : Nat) :
    byteCountSum v n = ∑ j ∈ Finset.range n, popcount8 (hvByte v j) := by
  induction n with
  | zero => rfl
  | succ n ih => rw [byteCountSum, ih, Finset.sum_range_succ]

/-- The "sum of `popcount8` over every byte" (R101). -/
theorem popcount_eq_sum_bytes (v : Hv) : popcount v = ∑ j ∈ Finset.range 16, popcount8 (hvByte v j) :=
  byteCountSum_eq_sum_bytes v 16

/-- The complement of the zero vector has all 128 bits. -/
theorem popcount_onesHv : popcount onesHv = 128 := by
  have h := popcount_add_not 0#128
  rwa [(popcount_eq_zero_iff _).mpr rfl, Nat.zero_add, BitVec.not_zero] at h

/-- Only the first two bytes count where the others are zero. -/
theorem popcount_of_two_bytes {v : Hv} (h : ∀ j, 2 ≤ j → j < 16 → hvByte v j = 0#8) :
    popcount v = popcount8 (hvByte v 0) + popcount8 (hvByte v 1) := by
  have hzero : popcount8 0#8 = 0 := rfl
  have hrest : ∑ j ∈ Finset.range 14, popcount8 (hvByte v (2 + j)) = 0 := Finset.sum_eq_zero fun j hj => by
    have := Finset.mem_range.mp hj
    rw [h (2 + j) (by omega) (by omega), hzero]
  rw [popcount_eq_sum_bytes, show 16 = 2 + 14 from rfl, Finset.sum_range_add, hrest, Finset.sum_range_succ,
    Finset.sum_range_one, Nat.add_zero]

/-- The count does not depend on where the bits are: bit `i` is counted again at `(i + n) mod 128` (R101, R132). -/
theorem popcount_rotl128 (v : Hv) (n : Nat) : popcount (rotl128 v n) = popcount v := by
  rw [popcount_eq_sum, popcount_eq_sum]
  symm
  refine Finset.sum_nbij' (fun i => (i + n) % 128) (fun i => (i + (128 - n % 128)) % 128) ?_ ?_ ?_ ?_ ?_
  · exact fun i _ => Finset.mem_range.mpr (Nat.mod_lt _ (by decide))
  · exact fun i _ => Finset.mem_range.mpr (Nat.mod_lt _ (by decide))
  · intro i hi
    have := Finset.mem_range.mp hi
    omega
  · intro i hi
    have := Finset.mem_range.mp hi
    omega
  · intro i hi
    rw [rotl128_getLsbD_add v n i (Finset.mem_range.mp hi)]

/-- The word of `POPC` (R101). -/
theorem encode_popc (ha : HReg) : encode (.popc ha) = 0x21000000#32 ||| regAt ha 20 := by
  simp [encode, wordOf_eq_or, regAt_eq]

/-- `POPC` on an initialised register delivers its count (R101). -/
theorem exec_popc_of_init {s : State} {ha : HReg} (h : s.hvInit ha = true) :
    exec (.popc ha) s = .next (s.writeRes (BitVec.ofNat 8 (popcount (s.hv ha)))) :=
  exec_of_ready (firstFaultOf_eq_none (by simpa [readsOf, RegRead.ready] using h) rfl)

/-- Settles O29: `POPC` delivers the sum of the vector's bits, byte by byte or bit by bit. -/
theorem popcountOfAVector : Obligations.PopcountOfAVector := by
  refine ⟨reservedBitsRejected_of_mem (row := ⟨_, _, fun w => .popc (regField w 20)⟩) (by simp [specRows]),
    fun ha s => ⟨encode_popc ha, exec_of_first_uninit rfl, fun hinit => ?_⟩, popcount_rotl128, by decide⟩
  have hres := toNat_ofNat_popcount (s.hv ha)
  refine ⟨_, exec_popc_of_init hinit, s.writeRes_frame _, hres.trans (popcount_eq_sum_bytes _),
    hres.trans (popcount_eq_sum _), hres.trans_le (popcount_le _), fun hzero => ?_, fun hones => ?_, fun h0 h1 hrest => ?_⟩
  · rw [State.writeRes_res, (popcount_eq_zero_iff _).mpr hzero]
  · rw [State.writeRes_res, hones, popcount_onesHv]
  · rw [State.writeRes_res, popcount_of_two_bytes hrest, h0, h1]
    decide

end Sys2Proof.Machine
end

section
/-!
SUPPORT. What the commands that read two vectors share (spec/30_encoding.md rule R76 step 3, spec/60_exceptions.md rule R202),
and vectors of one repeated byte, in which the rules give their examples.
-/

namespace Sys2Proof.Machine

/-- A command that reads two vectors takes fault 2 with its own word where the second is the first one uninitialised
(R202, R208). -/
theorem exec_of_second_uninit {i : Instr} {s : State} {j k : HReg} {rest : List RegRead}
    (hreads : readsOf i = .hv j :: .hv k :: rest) (hj : s.hvInit j = true) (hk : s.hvInit k = false) :
    exec i s = .next (faulted 2#8 (encode i) s) :=
  exec_of_fault (firstFaultOf_of_uninit (pre := [.hv j]) hreads (by simpa [RegRead.ready] using hj) hk)

/-- A command that reads two initialised vectors and has no value check completes with its result (R76). -/
theorem exec_of_two_init {i : Instr} {s : State} {j k : HReg} (hreads : readsOf i = [.hv j, .hv k])
    (hvalue : valueFaultOf i s = none) (hj : s.hvInit j = true) (hk : s.hvInit k = true) :
    exec i s = .next (resultOf i s) :=
  exec_of_ready (firstFaultOf_eq_none (by simp [hreads, RegRead.ready, hj, hk]) hvalue)

/-- Writing a register leaves no initialised register uninitialised (R23). -/
theorem State.hvInit_writeHv_of_init {s : State} {j : HReg} (h : s.hvInit j = true) (k : HReg) (v : Hv) :
    (s.writeHv k v).hvInit j = true := by
  rw [State.hvInit_writeHv, h, Bool.or_true]

section
variable {v w : Hv} {b c : Byte} (hv : EveryByte v b) (hw : EveryByte w c)
include hv hw

theorem EveryByte.xor : EveryByte (v ^^^ w) (b ^^^ c) := fun j hj => by rw [hvByte_xor, hv j hj, hw j hj]
theorem EveryByte.or : EveryByte (v ||| w) (b ||| c) := fun j hj => by rw [hvByte_or, hv j hj, hw j hj]
theorem EveryByte.and : EveryByte (v &&& w) (b &&& c) := fun j hj => by rw [hvByte_and, hv j hj, hw j hj]

end

end Sys2Proof.Machine
end

section
/-!
SUPPORT. The bitwise commands: spec/41_bitwise.md rules R110 to R113.
-/

namespace Sys2Proof.Machine

/-! ### The words -/

/-- The word of `BIND` (R110). -/
theorem encode_bind (hd ha hb : HReg) :
    encode (.bind hd ha hb) = 0x10000000#32 ||| regAt hd 20 ||| regAt ha 16 ||| regAt hb 12 := by
  simp [encode, wordOf_eq_or, regAt_eq]

/-- The word of `OR` (R111). -/
theorem encode_or (hd ha hb : HReg) :
    encode (.or hd ha hb) = 0x11000000#32 ||| regAt hd 20 ||| regAt ha 16 ||| regAt hb 12 := by
  simp [encode, wordOf_eq_or, regAt_eq]

/-- The word of `AND` (R112). -/
theorem encode_and (hd ha hb : HReg) :
    encode (.and hd ha hb) = 0x12000000#32 ||| regAt hd 20 ||| regAt ha 16 ||| regAt hb 12 := by
  simp [encode, wordOf_eq_or, regAt_eq]

/-- The word of `BUNDLE` (R113). -/
theorem encode_bundle (hd ha : HReg) : encode (.bundle hd ha) = 0x13000000#32 ||| regAt hd 20 ||| regAt ha 16 := by
  simp [encode, wordOf_eq_or, regAt_eq]

/-! ### The results -/

section
variable {s : State} {j k : HReg} (hj : s.hvInit j = true) (hk : s.hvInit k = true) (hd : HReg)
include hj hk

/-- `BIND` of initialised sources (R110). -/
theorem exec_bind_of_init : exec (.bind hd j k) s = .next (s.writeHv hd (s.hv j ^^^ s.hv k)) :=
  exec_of_two_init rfl rfl hj hk

/-- `OR` of initialised sources (R111). -/
theorem exec_or_of_init : exec (.or hd j k) s = .next (s.writeHv hd (s.hv j ||| s.hv k)) :=
  exec_of_two_init rfl rfl hj hk

/-- `AND` of initialised sources (R112). -/
theorem exec_and_of_init : exec (.and hd j k) s = .next (s.writeHv hd (s.hv j &&& s.hv k)) :=
  exec_of_two_init rfl rfl hj hk

/-- `BUNDLE` of an initialised pattern into an initialised accumulator (R113). -/
theorem exec_bundle_of_init : exec (.bundle j k) s = .next (s.writeHv j (s.hv j ||| s.hv k)) :=
  exec_of_two_init rfl rfl hj hk

end

/-- Binding the result again with the register that was kept restores the other source: `(a ^ b) ^ b = a` (R110). -/
theorem exec_bind_again {s : State} {hd k : HReg} (j : HReg) (hne : hd ≠ k) (hk : s.hvInit k = true) :
    ∃ u, exec (.bind hd hd k) (s.writeHv hd (s.hv j ^^^ s.hv k)) = .next u ∧ u.hv hd = s.hv j := by
  refine ⟨_, exec_bind_of_init (by simp) (State.hvInit_writeHv_of_init hk hd _) hd, ?_⟩
  rw [State.hv_writeHv_same, State.hv_writeHv_same, State.hv_writeHv_of_ne _ hne.symm, BitVec.xor_assoc, BitVec.xor_self,
    BitVec.xor_zero]

/-- Bundling the same register again changes nothing, also where it is the accumulator itself (R113). -/
theorem exec_bundle_again {s : State} (j : HReg) {k : HReg} (hk : s.hvInit k = true) :
    ∃ u, exec (.bundle j k) (s.writeHv j (s.hv j ||| s.hv k)) = .next u ∧ u.hv j = s.hv j ||| s.hv k := by
  refine ⟨_, exec_bundle_of_init (by simp) (State.hvInit_writeHv_of_init hk j _), ?_⟩
  rw [State.hv_writeHv_same, State.hv_writeHv_same, State.hv_writeHv]
  split
  · rw [BitVec.or_self]
  · rw [BitVec.or_assoc, BitVec.or_self]

/-- Two patterns bundled one after the other: the second is not the accumulator, so the first bundle leaves it (R113). -/
theorem exec_bundle_bundle {s : State} {hd p q : HReg} (hne : hd ≠ q) (hacc : s.hvInit hd = true)
    (hp : s.hvInit p = true) (hq : s.hvInit q = true) :
    ∃ t u, exec (.bundle hd p) s = .next t ∧ exec (.bundle hd q) t = .next u ∧ u.hv hd = s.hv hd ||| s.hv p ||| s.hv q := by
  refine ⟨_, _, exec_bundle_of_init hacc hp, exec_bundle_of_init (by simp) (State.hvInit_writeHv_of_init hq hd _), ?_⟩
  rw [State.hv_writeHv_same, State.hv_writeHv_same, State.hv_writeHv_of_ne _ hne.symm]

/-! ### The statements -/

/-- Settles O30: every clause about values follows from `H[hd] = H[ha] ^ H[hb]`. -/
theorem bindIsXor : Obligations.BindIsXor := by
  refine ⟨reservedBitsRejected_of_mem (row := ⟨_, _, fun w => .bind (regField w 20) (regField w 16) (regField w 12)⟩)
    (by simp [specRows]), fun hd ha hb s => ⟨encode_bind hd ha hb, exec_of_first_uninit rfl, exec_of_second_uninit rfl,
    fun hinita hinitb => ⟨_, exec_bind_of_init hinita hinitb hd, s.writeHv_frame hd _, ?_⟩⟩, by decide⟩
  rw [State.hv_writeHv_same]
  refine ⟨rfl, fun i _ => BitVec.getLsbD_xor, fun heq => ?_, fun hzero => ?_, fun hones => ?_,
    fun hne => exec_bind_again ha hne hinitb, EveryByte.xor⟩
  · rw [heq, BitVec.xor_self]
  · rw [hzero, BitVec.xor_zero]
  · rw [hones, onesHv, BitVec.xor_allOnes]

/-- Settles O31: every clause about values follows from `H[hd] = H[ha] | H[hb]`. -/
theorem orIsUnion : Obligations.OrIsUnion := by
  refine ⟨reservedBitsRejected_of_mem (row := ⟨_, _, fun w => .or (regField w 20) (regField w 16) (regField w 12)⟩)
    (by simp [specRows]), fun hd ha hb s => ⟨encode_or hd ha hb, exec_of_first_uninit rfl, exec_of_second_uninit rfl,
    fun hinita hinitb => ⟨_, exec_or_of_init hinita hinitb hd, s.writeHv_frame hd _, ?_⟩⟩, by decide⟩
  rw [State.hv_writeHv_same]
  refine ⟨rfl, fun i _ => BitVec.getLsbD_or, fun hzero => ?_, fun hones => ?_, fun heq => ?_, fun heq => ?_, EveryByte.or⟩
  · rw [hzero, BitVec.or_zero]
  · rw [hones, onesHv, BitVec.or_allOnes]
  · rw [heq, BitVec.or_self]
  · subst heq
    exact ⟨_, exec_bundle_of_init hinita hinitb, State.hv_writeHv_same ..⟩

/-- Settles O32: every clause about values follows from `H[hd] = H[ha] & H[hb]`. -/
theorem andIsIntersection : Obligations.AndIsIntersection := by
  refine ⟨reservedBitsRejected_of_mem (row := ⟨_, _, fun w => .and (regField w 20) (regField w 16) (regField w 12)⟩)
    (by simp [specRows]), fun hd ha hb s => ⟨encode_and hd ha hb, exec_of_first_uninit rfl, exec_of_second_uninit rfl,
    fun hinita hinitb => ⟨_, exec_and_of_init hinita hinitb hd, s.writeHv_frame hd _, ?_⟩⟩, by decide⟩
  rw [State.hv_writeHv_same]
  refine ⟨rfl, fun i _ => BitVec.getLsbD_and, ⟨_, exec_and_of_init hinitb hinita hd, ?_⟩, fun heq => ?_, fun hzero => ?_,
    fun hones => ?_, EveryByte.and⟩
  · rw [State.hv_writeHv_same, BitVec.and_comm]
  · rw [heq, BitVec.and_self]
  · rw [hzero, BitVec.and_zero]
  · rw [hones, onesHv, BitVec.and_allOnes]

/-- Settles O33: every clause about values follows from `H[hd] = H[hd] | H[ha]`; the order of two patterns does not matter
because OR is associative and commutative. -/
theorem bundleAccumulates : Obligations.BundleAccumulates := by
  refine ⟨reservedBitsRejected_of_mem (row := ⟨_, _, fun w => .bundle (regField w 20) (regField w 16)⟩)
    (by simp [specRows]), fun hd ha s => ⟨encode_bundle hd ha, exec_of_first_uninit rfl, exec_of_second_uninit rfl,
    fun hinitd hinita => ⟨_, exec_bundle_of_init hinitd hinita, s.writeHv_frame hd _, ?_⟩⟩,
    fun hd p q s hnep hneq hinitd hinitp hinitq => ?_, by decide⟩
  · rw [State.hv_writeHv_same]
    have hkeeps (i : Nat) (_ : i < 128) (hi : (s.hv hd).getLsbD i = true) : (s.hv hd ||| s.hv ha).getLsbD i = true := by
      rw [BitVec.getLsbD_or, hi, Bool.true_or]
    refine ⟨rfl, hkeeps, popcount_mono hkeeps, fun heq => ?_, exec_bundle_again hd hinita, EveryByte.or⟩
    rw [← heq, BitVec.or_self]
  · obtain ⟨t1, t2, ht1, ht2, ht⟩ := exec_bundle_bundle hneq hinitd hinitp hinitq
    obtain ⟨u1, u2, hu1, hu2, hu⟩ := exec_bundle_bundle hnep hinitd hinitq hinitp
    refine ⟨t1, t2, u1, u2, ht1, ht2, hu1, hu2, ?_⟩
    rw [ht, hu, BitVec.or_assoc, BitVec.or_comm (s.hv p), ← BitVec.or_assoc]

end Sys2Proof.Machine
end

section
/-!
SUPPORT. Distance and similarity: spec/42_distance.md rules R120, R121, R122.
-/

namespace Sys2Proof.Machine

/-! ### The distance of two vectors -/

/-- The distance of two vectors is at most `D`, so the subtraction of `SIM` never goes below 0 (R121). -/
theorem hamming_le (a b : Hv) : hamming a b ≤ 128 := popcount_le _

theorem hamming_comm (a b : Hv) : hamming a b = hamming b a := by rw [hamming, hamming, BitVec.xor_comm]

/-- "zero iff `a == b`" (R120). -/
theorem hamming_eq_zero_iff {a b : Hv} : hamming a b = 0 ↔ a = b := by
  rw [hamming, popcount_eq_zero_iff, BitVec.xor_eq_zero_iff]

theorem hamming_self (a : Hv) : hamming a a = 0 := hamming_eq_zero_iff.mpr rfl

/-- The positions where `a` agrees with `b` are those where it differs from the complement of `b`. -/
theorem hamming_add_hamming_not (a b : Hv) : hamming a b + hamming a (~~~b) = 128 := by
  rw [hamming, hamming, ← BitVec.not_xor_right]
  exact popcount_add_not _

/-- "maximal (`D`) iff `a` and `b` are bit-complements" (R120): the distance to the other vector's complement is then 0. -/
theorem hamming_eq_dim_iff {a b : Hv} : hamming a b = 128 ↔ b = ~~~a := by
  have hsum := hamming_add_hamming_not a b
  calc hamming a b = 128 ↔ hamming a (~~~b) = 0 := by omega
    _ ↔ a = ~~~b := hamming_eq_zero_iff
    _ ↔ b = ~~~a := BitVec.not_eq_comm.symm.trans eq_comm

/-- The distance to the zero vector is the count of the other operand (R120). -/
theorem hamming_zero_right (a : Hv) : hamming a 0#128 = popcount a := by rw [hamming, BitVec.xor_zero]

/-- Two vectors of one repeated byte each differ as often in each of their sixteen bytes. -/
theorem hamming_of_everyByte {v w : Hv} {b c : Byte} (hv : EveryByte v b) (hw : EveryByte w c) :
    hamming v w = 16 * popcount8 (b ^^^ c) := by
  have hbytes := hv.xor hw
  rw [hamming, popcount_eq_sum_bytes, Finset.sum_const_nat fun j hj => by rw [hbytes j (Finset.mem_range.mp hj)],
    Finset.card_range]

/-- The distance of the example's patterns (R120, R121). -/
theorem hamming_example {v w : Hv} (hv : EveryByte v 0xF0#8) (hw : EveryByte w 0x3C#8) : hamming v w = 64 :=
  (hamming_of_everyByte hv hw).trans (by decide)

/-! ### The commands -/

/-- A number of at most 128 fits `RES`. -/
theorem toNat_ofNat_of_le_dim {n : Nat} (h : n ≤ 128) : (BitVec.ofNat 8 n).toNat = n :=
  Nat.mod_eq_of_lt (by omega)

/-- `RES` tells apart the numbers of at most 128. -/
theorem ofNat_eq_ofNat_iff_of_le_dim {m n : Nat} (hm : m ≤ 128) (hn : n ≤ 128) :
    BitVec.ofNat 8 m = BitVec.ofNat 8 n ↔ m = n := by
  rw [BitVec.toNat_eq, toNat_ofNat_of_le_dim hm, toNat_ofNat_of_le_dim hn]

/-- The word of `HAMM` (R120). -/
theorem encode_hamm (ha hb : HReg) : encode (.hamm ha hb) = 0x22000000#32 ||| regAt ha 20 ||| regAt hb 16 := by
  simp [encode, wordOf_eq_or, regAt_eq]

/-- The word of `SIM` (R121). -/
theorem encode_sim (ha hb : HReg) : encode (.sim ha hb) = 0x23000000#32 ||| regAt ha 20 ||| regAt hb 16 := by
  simp [encode, wordOf_eq_or, regAt_eq]

section
variable {s : State} {j k : HReg} (hj : s.hvInit j = true) (hk : s.hvInit k = true)
include hj hk

/-- `HAMM` of initialised operands (R120). -/
theorem exec_hamm_of_init : exec (.hamm j k) s = .next (s.writeRes (BitVec.ofNat 8 (hamming (s.hv j) (s.hv k)))) :=
  exec_of_two_init rfl rfl hj hk

/-- `SIM` of initialised operands (R121). -/
theorem exec_sim_of_init : exec (.sim j k) s = .next (s.writeRes (BitVec.ofNat 8 (128 - hamming (s.hv j) (s.hv k)))) :=
  exec_of_two_init rfl rfl hj hk

end

/-! ### The statements -/

/-- Settles O34: `RES` holds the distance, which is symmetric, 0 for equal vectors alone and 128 for complements alone. -/
theorem hammCountsDifferingBits : Obligations.HammCountsDifferingBits := by
  refine ⟨reservedBitsRejected_of_mem (row := ⟨_, _, fun w => .hamm (regField w 20) (regField w 16)⟩)
    (by simp [specRows]), fun ha hb s => ⟨encode_hamm ha hb, exec_of_first_uninit rfl, exec_of_second_uninit rfl,
    fun hinita hinitb => ⟨_, exec_hamm_of_init hinita hinitb, s.writeRes_frame _, ?_⟩⟩, by decide⟩
  have hle := hamming_le (s.hv ha) (s.hv hb)
  have hres := toNat_ofNat_of_le_dim hle
  simp only [State.writeRes_res]
  refine ⟨hres, hres.trans_le hle, ⟨_, exec_hamm_of_init hinitb hinita, ?_⟩, ?_, fun heq => ?_, ?_, fun hzero => ?_,
    fun hv hw => ?_⟩
  · rw [State.writeRes_res, hamming_comm]
  · exact (ofNat_eq_ofNat_iff_of_le_dim hle (by decide)).trans hamming_eq_zero_iff
  · rw [heq, hamming_self]
  · exact (ofNat_eq_ofNat_iff_of_le_dim hle (by decide)).trans hamming_eq_dim_iff
  · rw [hres, hzero, hamming_zero_right]
  · rw [hamming_example hv hw]

/-- Settles O35: `RES` holds 128 minus the distance, so every clause follows from the distance's. -/
theorem simIsDimensionMinusDistance : Obligations.SimIsDimensionMinusDistance := by
  refine ⟨reservedBitsRejected_of_mem (row := ⟨_, _, fun w => .sim (regField w 20) (regField w 16)⟩)
    (by simp [specRows]), fun ha hb s => ⟨encode_sim ha hb, exec_of_first_uninit rfl, exec_of_second_uninit rfl,
    fun hinita hinitb => ⟨_, exec_sim_of_init hinita hinitb, s.writeRes_frame _, ?_⟩⟩, by decide⟩
  have hle := Nat.sub_le 128 (hamming (s.hv ha) (s.hv hb))
  have hres := toNat_ofNat_of_le_dim hle
  simp only [State.writeRes_res]
  refine ⟨hres, hres.trans_le hle, ⟨_, exec_sim_of_init hinitb hinita, ?_⟩, hamming_le _ _, fun heq => ?_,
    fun hnot => ?_, fun hv hw => ?_⟩
  · rw [State.writeRes_res, hamming_comm]
  · rw [heq, hamming_self]
  · rw [hamming_eq_dim_iff.mpr hnot]
  · rw [hamming_example hv hw]

/-- Settles O52: `HAMM` and `SIM` deliver numbers that fit `RES`, so the laws are those of the distance. -/
theorem distanceLaws : Obligations.DistanceLaws := by
  intro ha hb s hinita hinitb
  refine ⟨_, _, _, _, exec_hamm_of_init hinita hinitb, exec_hamm_of_init hinitb hinita, exec_sim_of_init hinita hinitb,
    exec_hamm_of_init hinita hinita, ?_⟩
  have hle := hamming_le (s.hv ha) (s.hv hb)
  simp only [State.writeRes_res, toNat_ofNat_of_le_dim hle, toNat_ofNat_of_le_dim (Nat.sub_le 128 _)]
  refine ⟨by rw [hamming_comm], by rw [hamming_self], Nat.sub_add_cancel hle, hamming_eq_dim_iff.mpr, fun hzero => ?_,
    hamming_eq_dim_iff.mp⟩
  exact hamming_eq_zero_iff.mp ((ofNat_eq_ofNat_iff_of_le_dim hle (by decide)).mp hzero)

end Sys2Proof.Machine
end

section
/-!
SUPPORT. Circular permutation: spec/43_permute.md rules R130, R131, R132.
-/

namespace Sys2Proof.Machine

/-! ### The forms of a rotation -/

/-- "`w = v` for `n = 0`" (R130). -/
theorem rotl128_of_mod_eq_zero {n : Nat} (h : n % 128 = 0) (v : Hv) : rotl128 v n = v := if_pos h

/-- The number form (R130). -/
theorem rotl128_toNat {n : Nat} (h : 0 < n % 128) (v : Hv) :
    (rotl128 v n).toNat = ((v.toNat <<< (n % 128)) ||| (v.toNat >>> (128 - n % 128))) % 2 ^ 128 := by
  have hright : v.toNat >>> (128 - n % 128) < 2 ^ 128 := (Nat.shiftRight_le _ _).trans_lt v.isLt
  rw [rotl128, if_neg h.ne', BitVec.toNat_or, BitVec.toNat_shiftLeft, BitVec.toNat_ushiftRight, Nat.or_mod_two_pow,
    Nat.mod_eq_of_lt hright]

/-- The byte form, for a whole number of bytes too: bit `t` of byte `j` comes from the byte `q` places below where
`t ≥ r`, and else from the top `r` bits of the byte below that one (R130). -/
theorem hvByte_rotl128 (v : Hv) (n : Nat) {j : Nat} (hj : j < 16) :
    hvByte (rotl128 v n) j = (hvByte v ((j + 16 - n % 128 / 8) % 16) <<< (n % 128 % 8)) |||
      (hvByte v ((j + 32 - n % 128 / 8 - 1) % 16) >>> (8 - n % 128 % 8)) := by
  apply BitVec.eq_of_getLsbD_eq
  intro t ht
  rw [hvByte_getLsbD _ _ _ ht, rotl128_getLsbD _ _ _ (by omega), BitVec.getLsbD_or, BitVec.getLsbD_shiftLeft,
    BitVec.getLsbD_ushiftRight]
  by_cases hr : t < n % 128 % 8
  · have hsrc : (8 * j + t + (128 - n % 128)) % 128
        = 8 * ((j + 32 - n % 128 / 8 - 1) % 16) + (8 - n % 128 % 8 + t) := by omega
    rw [hvByte_getLsbD v ((j + 32 - n % 128 / 8 - 1) % 16) _ (by omega), hsrc]
    simp only [hr, decide_true, Bool.not_true, Bool.and_false, Bool.false_and, Bool.false_or]
  · have hsrc : (8 * j + t + (128 - n % 128)) % 128 = 8 * ((j + 16 - n % 128 / 8) % 16) + (t - n % 128 % 8) := by omega
    have hbelow : (hvByte v ((j + 32 - n % 128 / 8 - 1) % 16)).getLsbD (8 - n % 128 % 8 + t) = false :=
      BitVec.getLsbD_of_ge _ _ (by omega)
    rw [hbelow, hvByte_getLsbD v _ _ (by omega), hsrc]
    simp only [hr, ht, decide_true, decide_false, Bool.not_false, Bool.true_and, Bool.or_false]

/-- A rotation by whole bytes moves bytes (R130). -/
theorem hvByte_rotl128_of_whole_bytes {n : Nat} (h : n % 128 % 8 = 0) (v : Hv) {j : Nat} (hj : j < 16) :
    hvByte (rotl128 v n) j = hvByte v ((j + 16 - n % 128 / 8) % 16) := by
  rw [hvByte_rotl128 v n hj, h, BitVec.shiftLeft_zero, BitVec.ushiftRight_eq_zero (by decide), BitVec.or_zero]

/-- Settles O46: the bit, number and byte forms describe one function. -/
theorem rotationBitNumberAndByteForms : Obligations.RotationBitNumberAndByteForms := by
  rintro v s _ _ _ rfl rfl rfl
  refine ⟨fun i hi => ?_, fun hpos => rotl128_toNat hpos v, fun hzero => rotl128_of_mod_eq_zero hzero v,
    fun hr j hj => hvByte_rotl128_of_whole_bytes hr v hj, fun _ j hj => hvByte_rotl128 v s hj⟩
  rw [Nat.add_mod_mod]
  exact rotl128_getLsbD_add v s i hi

/-! ### Rotations one after another, and vectors they leave alone -/

/-- Two rotations add their shifts (R131). -/
theorem rotl128_rotl128 (v : Hv) (m n : Nat) : rotl128 (rotl128 v m) n = rotl128 v ((m + n) % 128) := by
  apply BitVec.eq_of_getLsbD_eq
  intro i hi
  rw [rotl128_getLsbD _ _ _ hi, rotl128_getLsbD _ _ _ (Nat.mod_lt _ (by decide)), rotl128_getLsbD _ _ _ hi]
  congr 1
  omega

/-- A rotation is undone by the rotation over the rest of the circle (R131). -/
theorem rotl128_undo (v : Hv) (n : Nat) : rotl128 (rotl128 v n) ((128 - n % 128) % 128) = v := by
  rw [rotl128_rotl128]
  exact rotl128_of_mod_eq_zero (by omega) v

/-- A vector of sixteen equal bytes is unchanged by a rotation of whole bytes (R132). -/
theorem rotl128_of_everyByte {v : Hv} {b : Byte} (hv : EveryByte v b) {n : Nat} (hn : n % 8 = 0) : rotl128 v n = v := by
  refine hv_ext_bytes fun j hj => ?_
  rw [hvByte_rotl128_of_whole_bytes (by omega) v hj, hv _ (Nat.mod_lt _ (by decide)), hv j hj]

theorem rotl128_zero (n : Nat) : rotl128 0#128 n = 0#128 :=
  (popcount_eq_zero_iff _).mp ((popcount_rotl128 _ n).trans ((popcount_eq_zero_iff _).mpr rfl))

theorem rotl128_onesHv (n : Nat) : rotl128 onesHv n = onesHv := by
  apply BitVec.eq_of_getLsbD_eq
  intro i hi
  rw [rotl128_getLsbD _ _ _ hi, onesHv_getLsbD, onesHv_getLsbD, decide_eq_true (Nat.mod_lt _ (by decide)),
    decide_eq_true hi]

/-! ### The rule's examples -/

section
variable {v : Hv} (hfirst : hvByte v 0 = 0xFF#8) (hrest : ∀ j, 1 ≤ j → j < 16 → hvByte v j = 0#8)
include hfirst hrest

/-- `FF 00 .. 00` rotated by 8 is `00 FF 00 .. 00` (R131). -/
theorem rotl128_first_byte_by_8 : hvByte (rotl128 v 8) 1 = 0xFF#8 ∧
    ∀ j, j < 16 → j ≠ 1 → hvByte (rotl128 v 8) j = 0#8 := by
  refine ⟨(hvByte_rotl128_of_whole_bytes rfl v (by decide)).trans hfirst, fun j hj hne => ?_⟩
  rw [hvByte_rotl128_of_whole_bytes rfl v hj]
  exact hrest _ (by omega) (by omega)

/-- `FF 00 .. 00` rotated by 4 is `F0 0F 00 .. 00` (R131). -/
theorem rotl128_first_byte_by_4 : hvByte (rotl128 v 4) 0 = 0xF0#8 ∧ hvByte (rotl128 v 4) 1 = 0x0F#8 ∧
    ∀ j, 2 ≤ j → j < 16 → hvByte (rotl128 v 4) j = 0#8 := by
  refine ⟨?_, ?_, fun j hlo hj => ?_⟩
  · rw [hvByte_rotl128 v 4 (by decide), hrest ((0 + 32 - 4 % 128 / 8 - 1) % 16) (by decide) (by decide), hfirst]
    decide
  · rw [hvByte_rotl128 v 4 (by decide), hrest ((1 + 16 - 4 % 128 / 8) % 16) (by decide) (by decide), hfirst]
    decide
  · rw [hvByte_rotl128 v 4 hj, hrest ((j + 16 - 4 % 128 / 8) % 16) (by omega) (by omega),
      hrest ((j + 32 - 4 % 128 / 8 - 1) % 16) (by omega) (by omega)]
    decide

end

/-! ### The command -/

/-- The word of `PERM` (R131). -/
theorem encode_perm (hd : HReg) (shift : BitVec 16) :
    encode (.perm hd shift) = 0x30000000#32 ||| regAt hd 20 ||| shift.setWidth 32 := by
  simp [encode, wordOf16_eq_or, regAt_eq]

/-- `PERM` of an initialised register completes for every shift (R131). -/
theorem exec_perm_of_init {s : State} {hd : HReg} (h : s.hvInit hd = true) (shift : BitVec 16) :
    exec (.perm hd shift) s = .next (s.writeHv hd (rotl128 (s.hv hd) shift.toNat)) :=
  exec_of_ready (firstFaultOf_eq_none (by simpa [readsOf, RegRead.ready] using h) rfl)

/-- `PERM` after the register was written whole rotates what was written. -/
theorem exec_perm_writeHv (s : State) (hd : HReg) (v : Hv) (shift : BitVec 16) :
    ∃ u, exec (.perm hd shift) (s.writeHv hd v) = .next u ∧ u.hv hd = rotl128 v shift.toNat :=
  ⟨_, exec_perm_of_init (by simp) shift, by rw [State.hv_writeHv_same, State.hv_writeHv_same]⟩

/-- Settles O36: every clause about values follows from `H[hd] = rotl128(H[hd], shift)`. -/
theorem permRotatesInPlace : Obligations.PermRotatesInPlace := by
  refine ⟨reservedBitsRejected_of_mem (row := ⟨_, _, fun w => .perm (regField w 20) (imm16Field w)⟩)
    (by simp [specRows]), fun hd shift s => ⟨encode_perm hd shift, exec_of_first_uninit rfl,
    fun hinit => ⟨_, exec_perm_of_init hinit shift, s.writeHv_frame hd _, ?_⟩⟩, by decide, by decide⟩
  rw [State.hv_writeHv_same]
  refine ⟨rfl, rotl128_getLsbD_add _ _, fun hmod => rotl128_of_mod_eq_zero hmod _, ?_, fun q hq j hj => ?_, ?_,
    fun hzero => ?_, fun hones => ?_, fun shift' => ?_, ?_, fun hfirst hrest => ⟨?_, ?_⟩⟩
  · rintro rfl i hi
    exact rotl128_getLsbD _ _ _ hi
  · rw [hvByte_rotl128_of_whole_bytes (by omega) _ (Nat.mod_lt _ (by decide))]
    congr 1
    omega
  · rintro htop rfl
    rw [htop]
    decide
  · rw [hzero, rotl128_zero]
  · rw [hones, rotl128_onesHv]
  · rw [← rotl128_rotl128]
    exact exec_perm_writeHv s hd _ shift'
  · obtain ⟨u, hu, hv⟩ := exec_perm_writeHv s hd (rotl128 (s.hv hd) shift.toNat)
      (BitVec.ofNat 16 ((128 - shift.toNat % 128) % 128))
    refine ⟨u, hu, hv.trans ?_⟩
    rw [BitVec.toNat_ofNat, Nat.mod_eq_of_lt (by omega), rotl128_undo]
  · rintro rfl
    exact rotl128_first_byte_by_8 hfirst hrest
  · rintro rfl
    exact rotl128_first_byte_by_4 hfirst hrest

/-- Settles O47: the count is kept because a rotation only moves bits. -/
theorem permutationProperties : Obligations.PermutationProperties := by
  refine ⟨fun hd shift s hinit => ?_, popcount_rotl128⟩
  refine ⟨_, _, _, exec_perm_of_init hinit shift, exec_popc_of_init (by simp), exec_popc_of_init hinit, ?_⟩
  rw [State.hv_writeHv_same, State.writeRes_res, State.writeRes_res, popcount_rotl128]
  refine ⟨rfl, ?_, fun b hb hmod => rotl128_of_everyByte hb hmod⟩
  rintro (rfl | rfl) <;> exact rotl128_of_mod_eq_zero rfl _

end Sys2Proof.Machine
end

section
/-!
SUPPORT. Whole-vector moves: spec/44_move.md rules R140, R141, R142.
-/

namespace Sys2Proof.Machine

/-! ### The words -/

/-- The word of `CLEAR` (R140). -/
theorem encode_clear (hd : HReg) : encode (.clear hd) = 0x31000000#32 ||| regAt hd 20 := by
  simp [encode, wordOf_eq_or, regAt_eq]

/-- The word of `FILL` (R141). -/
theorem encode_fill (hd : HReg) (value : Byte) :
    encode (.fill hd value) = 0x32000000#32 ||| regAt hd 20 ||| value.setWidth 32 := by
  simp [encode, wordOf_eq_or, regAt_eq]

/-- The word of `COPY` (R142). -/
theorem encode_copy (hd ha : HReg) : encode (.copy hd ha) = 0x33000000#32 ||| regAt hd 20 ||| regAt ha 16 := by
  simp [encode, wordOf_eq_or, regAt_eq]

/-! ### The results -/

/-- `CLEAR` reads no register, so it completes in every state (R140). -/
theorem exec_clear (hd : HReg) (s : State) : exec (.clear hd) s = .next (s.writeHv hd 0#128) := exec_of_ready rfl

/-- `FILL` reads no register, so it completes in every state (R141). -/
theorem exec_fill (hd : HReg) (value : Byte) (s : State) :
    exec (.fill hd value) s = .next (s.writeHv hd (fillHv value)) := exec_of_ready rfl

/-- `COPY` of an initialised source (R142). -/
theorem exec_copy_of_init {s : State} {ha : HReg} (h : s.hvInit ha = true) (hd : HReg) :
    exec (.copy hd ha) s = .next (s.writeHv hd (s.hv ha)) :=
  exec_of_ready (firstFaultOf_eq_none (by simpa [readsOf, RegRead.ready] using h) rfl)

/-- A `FILL` of one register leaves the others (R141). -/
theorem exec_fill_keeps_hv (s : State) {j k : HReg} (hne : j ≠ k) (value : Byte) :
    ∃ u, exec (.fill k value) s = .next u ∧ u.hv j = s.hv j :=
  ⟨_, exec_fill k value s, State.hv_writeHv_of_ne s hne _⟩

/-- Writing back what an initialised register holds changes nothing: every byte of the store reads as before, and the
canonical form makes such stores equal (R142). -/
theorem State.writeHv_hv_self {s : State} {k : HReg} (hinit : s.hvInit k = true) (hwf : Memory.wf s.hvmem = true) :
    s.writeHv k (s.hv k) = s := by
  have hread (a : Nat) : (s.writeHv k (s.hv k)).memRead a = s.memRead a := by
    rw [State.memRead_writeHv]
    split
    · next ha => rw [State.hvByte_hv s k _ (by omega), Nat.add_sub_cancel' ha.1]
    · rfl
  have hmem : (s.writeHv k (s.hv k)).hvmem = s.hvmem := Memory.ext_of_wf (s.wf_writeHv k _ hwf) hwf hread
  have hflags : setFlag s.hinit k = s.hinit := setFlag_of_set hinit
  rw [State.writeHv_hvmem] at hmem
  rw [State.writeHv, hmem, hflags]

/-! ### The zero vector as an operand -/

section
variable {t : State} {hx hz : HReg} (hx_init : t.hvInit hx = true) (hz_init : t.hvInit hz = true)
  (hz_zero : t.hv hz = 0#128)
include hx_init hz_init hz_zero

/-- The zero vector is the identity of `BIND` on either side (R140). -/
theorem exec_bind_zero (he : HReg) :
    (∃ u, exec (.bind he hx hz) t = .next u ∧ u.hv he = t.hv hx) ∧
      ∃ u, exec (.bind he hz hx) t = .next u ∧ u.hv he = t.hv hx := by
  refine ⟨⟨_, exec_bind_of_init hx_init hz_init he, ?_⟩, ⟨_, exec_bind_of_init hz_init hx_init he, ?_⟩⟩
  · rw [State.hv_writeHv_same, hz_zero, BitVec.xor_zero]
  · rw [State.hv_writeHv_same, hz_zero, BitVec.zero_xor]

/-- The zero vector is the identity of `OR` on either side (R140). -/
theorem exec_or_zero (he : HReg) :
    (∃ u, exec (.or he hx hz) t = .next u ∧ u.hv he = t.hv hx) ∧
      ∃ u, exec (.or he hz hx) t = .next u ∧ u.hv he = t.hv hx := by
  refine ⟨⟨_, exec_or_of_init hx_init hz_init he, ?_⟩, ⟨_, exec_or_of_init hz_init hx_init he, ?_⟩⟩
  · rw [State.hv_writeHv_same, hz_zero, BitVec.or_zero]
  · rw [State.hv_writeHv_same, hz_zero, BitVec.zero_or]

/-- The zero vector is the identity of `BUNDLE`, as the pattern and as the accumulator (R140). -/
theorem exec_bundle_zero :
    (∃ u, exec (.bundle hx hz) t = .next u ∧ u.hv hx = t.hv hx) ∧
      ∃ u, exec (.bundle hz hx) t = .next u ∧ u.hv hz = t.hv hx := by
  refine ⟨⟨_, exec_bundle_of_init hx_init hz_init, ?_⟩, ⟨_, exec_bundle_of_init hz_init hx_init, ?_⟩⟩
  · rw [State.hv_writeHv_same, hz_zero, BitVec.or_zero]
  · rw [State.hv_writeHv_same, hz_zero, BitVec.zero_or]

end

/-! ### Filled vectors -/

theorem fillHv_zero : fillHv 0x00#8 = 0#128 := ((everyByte_iff _ _).mp fun j _ => hvByte_zero j).symm

/-- "`val(H[hd]) = uint(i8) * (2^128 - 1) / 255`": the geometric sum of the byte's places (R141). -/
theorem fillHv_toNat (b : Byte) : (fillHv b).toNat = b.toNat * ((2 ^ 128 - 1) / 255) := by
  have hplaces : ∑ i ∈ Finset.range 16, 2 ^ (8 * i) = (2 ^ 128 - 1) / 255 := by decide
  rw [fillHv, hvOfBytes_toNat, ← Finset.mul_sum, hplaces]

/-- "`popcount` of the result is `16 * popcount8(value)`" (R141). -/
theorem popcount_fillHv (b : Byte) : popcount (fillHv b) = 16 * popcount8 b := by
  rw [← hamming_zero_right, hamming_of_everyByte (hvByte_fillHv b) fun j _ => hvByte_zero j, BitVec.xor_zero]

/-! ### The statements -/

/-- Settles O37: `CLEAR` writes the zero vector, the identity of XOR and OR. -/
theorem clearMakesTheZeroVector : Obligations.ClearMakesTheZeroVector := by
  refine ⟨reservedBitsRejected_of_mem (row := ⟨_, _, fun w => .clear (regField w 20)⟩) (by simp [specRows]),
    fun hd s => ⟨encode_clear hd, _, exec_clear hd s, s.writeHv_frame hd _, ?_⟩, by decide⟩
  have hzero : (s.writeHv hd 0#128).hv hd = 0#128 := s.hv_writeHv_same hd _
  have hinit : (s.writeHv hd 0#128).hvInit hd = true := (s.writeHv_frame hd _).init
  refine ⟨hzero, fun j _ => by rw [hzero, hvByte_zero], (State.initWord_hvInit _ hd).trans hinit, fun hx he hxinit => ?_⟩
  obtain ⟨hbind, hbind'⟩ := exec_bind_zero hxinit hinit hzero he
  obtain ⟨hor, hor'⟩ := exec_or_zero hxinit hinit hzero he
  exact ⟨hbind, hbind', hor, hor', exec_bundle_zero hxinit hinit hzero⟩

/-- Settles O38: every clause about values is one about the vector whose sixteen bytes are the immediate. -/
theorem fillSetsEveryByte : Obligations.FillSetsEveryByte := by
  refine ⟨reservedBitsRejected_of_mem (row := ⟨_, _, fun w => .fill (regField w 20) (imm8Field w)⟩) (by simp [specRows]),
    fun hd value s => ⟨encode_fill hd value, ⟨_, exec_fill hd value s, s.writeHv_frame hd _, ?_⟩, ?_⟩, by decide⟩
  · rw [State.hv_writeHv_same]
    refine ⟨hvByte_fillHv value, fillHv_toNat value, ?_, popcount_fillHv value, ?_⟩
    · rintro rfl
      exact onesHv_eq_fillHv.symm
    · rintro rfl
      exact (popcount_fillHv _).trans (by decide)
  · rw [exec_fill, exec_clear, fillHv_zero]

/-- Settles O39: `COPY` writes the source's value; the registers share no byte of the store, so a later `FILL` of one
leaves the other. -/
theorem copyCopies : Obligations.CopyCopies := by
  refine ⟨reservedBitsRejected_of_mem (row := ⟨_, _, fun w => .copy (regField w 20) (regField w 16)⟩)
    (by simp [specRows]), fun hd ha s => ⟨encode_copy hd ha, exec_of_first_uninit rfl,
    fun hinit => ⟨_, exec_copy_of_init hinit hd, s.writeHv_frame hd _, ?_⟩⟩, by decide⟩
  have hdest : (s.writeHv hd (s.hv ha)).hv hd = s.hv ha := s.hv_writeHv_same hd _
  have hsource : (s.writeHv hd (s.hv ha)).hv ha = s.hv ha := by rw [State.hv_writeHv, ite_self]
  refine ⟨hdest, hsource, ?_, fun hne v => ⟨?_, ?_⟩, fun hcc => hdest.symm ▸ hcc⟩
  · rintro rfl hwf
    exact State.writeHv_hv_self hinit hwf
  · obtain ⟨u, hu, hkept⟩ := exec_fill_keeps_hv (s.writeHv hd (s.hv ha)) hne v
    exact ⟨u, hu, hkept.trans hdest⟩
  · obtain ⟨u, hu, hkept⟩ := exec_fill_keeps_hv (s.writeHv hd (s.hv ha)) hne.symm v
    exact ⟨u, hu, hkept.trans hsource⟩

end Sys2Proof.Machine
end

section
/-!
SUPPORT. Levels and thermometer codes: spec/45_thermometer.md rules R150, R151, R152, R154, R156.
-/

namespace Sys2Proof.Machine

/-! ### Levels -/

/-- A reading at or above the bound is saturated (R150). -/
theorem level_of_le {x m : Nat} (h : m ≤ x) : level x m = 128 := if_pos h

/-- Below the bound the level is the truncated quotient (R150, R156). -/
theorem level_of_lt {x m : Nat} (h : x < m) : level x m = x * 128 / m := if_neg (Nat.not_le.mpr h)

/-- Reading 0 is level 0 under every bound that is not 0 (R154). -/
theorem level_zero {m : Nat} (hm : 0 < m) : level 0 m = 0 := by rw [level_of_lt hm, Nat.zero_mul, Nat.zero_div]

/-- "a reading reaches level `L` … exactly when `x * 128 ≥ L * m`" (R156); at level 128 that is `x ≥ m`. -/
theorem le_level_iff {x m l : Nat} (hm : 0 < m) (hl : l ≤ 128) : l ≤ level x m ↔ l * m ≤ x * 128 := by
  cases l with
  | zero => simp
  | succ i => exact lt_level_iff x m i hm hl

/-- Only readings at or above the bound are saturated (R150). -/
theorem level_eq_dim_iff {x m : Nat} (hm : 0 < m) : level x m = 128 ↔ m ≤ x := by
  have hle := level_le x m
  have hreach := le_level_iff (x := x) hm (le_refl 128)
  omega

/-- Levels rise with the reading (R154): a threshold that `x` passes, `y` passes. -/
theorem level_mono {x y m : Nat} (hm : 0 < m) (h : x ≤ y) : level x m ≤ level y m :=
  (le_level_iff hm (level_le x m)).mpr <|
    ((le_level_iff hm (level_le x m)).mp le_rfl).trans (Nat.mul_le_mul_right 128 h)

/-- One below the bound, level 127 is reached from bound 128 on (R153). -/
theorem level_pred_eq_127_iff {x m : Nat} (h : x + 1 = m) : level x m = 127 ↔ 128 ≤ m := by
  have hlt := level_lt x m (by omega)
  have hreach := le_level_iff (x := x) (m := m) (l := 127) (by omega) (by decide)
  omega

/-- Under bound 2 there are three levels (R153). -/
theorem level_two (x : Nat) : level x 2 = 0 ∨ level x 2 = 64 ∨ level x 2 = 128 := by
  match x with
  | 0 => decide
  | 1 => decide
  | x + 2 => exact .inr (.inr (level_of_le (by omega)))

/-- Settles O48: below the bound the level is a quotient, and every threshold clause is `le_level_iff` at one level. -/
theorem levelsAreTruncatedQuotients : Obligations.LevelsAreTruncatedQuotients := by
  intro x m _ hm hmax
  refine ⟨level_of_le, fun hlt => ?_, level_le x m, fun l hl => le_level_iff hm (by omega), ?_, level_eq_dim_iff hm⟩
  · have hlevel := level_lt x m hlt
    exact ⟨level_of_lt hlt, by omega, by omega, by omega⟩
  · rw [le_level_iff hm (by decide), Nat.one_mul]

/-! ### Thermometer codes -/

theorem therm_zero : therm 0 = 0#128 := rfl

theorem therm_dim : therm 128 = onesHv := by decide

/-- "`val(therm(L)) = 2^L - 1`" (R151). -/
theorem therm_toNat {l : Nat} (hl : l ≤ 128) : (therm l).toNat = 2 ^ l - 1 := by
  have hpow : 2 ^ l ≤ 2 ^ 128 := Nat.pow_le_pow_right (by decide) hl
  rw [therm, BitVec.toNat_ofNat, Nat.mod_eq_of_lt (by omega)]

/-- "`popcount(therm(L)) = L`" (R151): the bits that are 1 are those below `L`. -/
theorem popcount_therm {l : Nat} (hl : l ≤ 128) : popcount (therm l) = l := by
  have hbelow : {i ∈ Finset.range 128 | i < l} = Finset.range l := by
    ext i
    simp only [Finset.mem_filter, Finset.mem_range]
    omega
  calc popcount (therm l)
    _ = ∑ i ∈ Finset.range 128, if i < l then 1 else 0 := by
      rw [popcount_eq_sum]
      refine Finset.sum_congr rfl fun i hi => ?_
      rw [therm_getLsbD l i (Finset.mem_range.mp hi)]
      exact apply_ite Bool.toNat (i < l) true false
    _ = l := by rw [← Finset.card_filter, hbelow, Finset.card_range]

/-- Byte `j` is the code of the bits left above the bytes below it, cut to 8 bits (R151). -/
theorem hvByte_therm (l : Nat) {j : Nat} (hj : j < 16) : hvByte (therm l) j = BitVec.ofNat 8 (2 ^ (l - 8 * j) - 1) := by
  apply BitVec.eq_of_getLsbD_eq
  intro t ht
  rw [hvByte_getLsbD _ _ _ ht, therm_getLsbD _ _ (by omega), BitVec.getLsbD_ofNat, Nat.testBit_two_pow_sub_one]
  simp only [ht, decide_true, Bool.true_and, decide_eq_decide]
  omega

/-- A byte all of whose bits lie below `L` is `0xFF` (R151). -/
theorem hvByte_therm_of_le {l j : Nat} (hj : j < 16) (h : 8 * (j + 1) ≤ l) : hvByte (therm l) j = 0xFF#8 := by
  rw [← hvByte_allOnes j hj]
  apply BitVec.eq_of_getLsbD_eq
  intro t ht
  rw [hvByte_getLsbD _ _ _ ht, hvByte_getLsbD _ _ _ ht, therm_getLsbD _ _ (by omega), BitVec.getLsbD_allOnes,
    decide_eq_decide]
  omega

/-- A byte all of whose bits lie at `L` or above is 0 (R151). -/
theorem hvByte_therm_of_ge {l j : Nat} (hj : j < 16) (h : l ≤ 8 * j) : hvByte (therm l) j = 0x00#8 := by
  rw [hvByte_therm l hj, Nat.sub_eq_zero_of_le h, Nat.pow_zero, Nat.sub_self]

/-- A code of whole bytes: `0xFF` below, 0 above (R151). -/
theorem hvByte_therm_whole_bytes {k : Nat} (hk : k ≤ 16) :
    (∀ j, j < k → hvByte (therm (8 * k)) j = 0xFF#8) ∧ ∀ j, k ≤ j → j < 16 → hvByte (therm (8 * k)) j = 0x00#8 :=
  ⟨fun _ hj => hvByte_therm_of_le (by omega) (by omega), fun _ hj hj16 => hvByte_therm_of_ge hj16 (by omega)⟩

/-- Settles O49: the bits below `L` are 1, and the number, the count and the bytes follow. -/
theorem thermometerCodes : Obligations.ThermometerCodes := by
  refine ⟨fun l hl => ⟨therm_getLsbD l, therm_toNat hl, popcount_therm hl, fun j hj => ?_, fun hmod => ?_,
    fun j hj habove => ?_⟩, therm_zero, therm_dim⟩
  · exact hvByte_therm_of_le (by omega) (by omega)
  · rw [hvByte_therm l (by omega), show l - 8 * (l / 8) = l % 8 by omega]
  · exact hvByte_therm_of_ge hj (by omega)

/-- Settles O50: bit `i` of a code says that level `i + 1` is reached. -/
theorem comparatorFormOfTheEncoder : Obligations.ComparatorFormOfTheEncoder := by
  intro x m i _ hm hmax hi
  refine ⟨?_, ?_⟩
  · rw [therm_getLsbD _ _ hi, decide_eq_true_iff, lt_level_iff x m i hm hi]
  · calc (i + 1) * m ≤ 128 * 65535 := Nat.mul_le_mul (by omega) hmax
      _ < 2 ^ 23 := by decide

/-! ### The codes of readings -/

/-- Reading 0 gives the zero vector (R154). -/
theorem therm_level_zero {m : Nat} (hm : 0 < m) : therm (level 0 m) = 0#128 := by rw [level_zero hm, therm_zero]

/-- A reading at or above the bound gives all ones (R154). -/
theorem therm_level_of_le {x m : Nat} (h : m ≤ x) : therm (level x m) = onesHv := by rw [level_of_le h, therm_dim]

/-- The code of a reading counts its level (R151). -/
theorem popcount_therm_level (x m : Nat) : popcount (therm (level x m)) = level x m := popcount_therm (level_le x m)

/-- Where every bit of `v` is a bit of `w`, the distance is what `w` has beyond `v`. -/
theorem hamming_add_popcount_of_subset {v w : Hv} (h : ∀ i, i < 128 → v.getLsbD i = true → w.getLsbD i = true) :
    hamming v w + popcount v = popcount w := by
  rw [hamming, popcount_eq_sum, popcount_eq_sum, popcount_eq_sum, ← Finset.sum_add_distrib]
  refine Finset.sum_congr rfl fun i hi => ?_
  have hsub := h i (Finset.mem_range.mp hi)
  rw [BitVec.getLsbD_xor]
  cases hv : v.getLsbD i
  · simp
  · simp [hsub hv]

/-- The lower of two codes lies within the higher, so their distance is the difference of the levels (R154). -/
theorem hamming_therm_of_le {k l : Nat} (hkl : k ≤ l) (hl : l ≤ 128) : hamming (therm k) (therm l) = l - k := by
  have hsum : hamming (therm k) (therm l) + popcount (therm k) = popcount (therm l) :=
    hamming_add_popcount_of_subset fun i hi hbit => by
      rw [therm_getLsbD _ _ hi, decide_eq_true_iff] at hbit ⊢
      omega
  rw [popcount_therm hl, popcount_therm (hkl.trans hl)] at hsum
  omega

/-- "`hamming(therm(L1), therm(L2)) = |L1 - L2|` exactly" (R154). -/
theorem hamming_therm {k l : Nat} (hk : k ≤ 128) (hl : l ≤ 128) :
    (hamming (therm k) (therm l) : Int) = |(k : Int) - (l : Int)| := by
  rcases Nat.le_total k l with hkl | hlk
  · rw [hamming_therm_of_le hkl hl, abs_of_nonpos (by omega)]
    omega
  · rw [hamming_comm, hamming_therm_of_le hlk hk, abs_of_nonneg (by omega)]
    omega

/-- Settles O51: a code's count is its level, levels rise with the reading, and codes lie within one another. -/
theorem thermometerProperties : Obligations.ThermometerProperties := by
  have h500 : level 500 1024 = 62 := by decide
  have h510 : level 510 1024 = 63 := by decide
  have hdist : hamming (therm (level 500 1024)) (therm (level 510 1024)) = 1 := by
    rw [h500, h510, hamming_therm_of_le (by decide) (by decide)]
  refine ⟨fun m x y hm => ⟨fun hxy => ?_, therm_level_zero hm, therm_level_of_le le_rfl, therm_level_of_le⟩,
    fun _ _ => hamming_therm, h500, h510, hdist, hdist.trans_lt (by decide)⟩
  rw [popcount_therm_level, popcount_therm_level]
  exact level_mono hm hxy.le

end Sys2Proof.Machine
end

section
/-!
SUPPORT. The encoder commands `THERM` and `THERMS`: spec/45_thermometer.md rules R153, R155.
-/

namespace Sys2Proof.Machine

/-! ### Scalar operands and value checks -/

/-- A command whose first register that is not ready is a scalar takes fault 3 with its own word (R203, R208). -/
theorem exec_of_uninit_scalar {i : Instr} {s : State} {pre post : List RegRead} {k : SReg}
    (hreads : readsOf i = pre ++ .scalar k :: post) (hpre : ∀ r ∈ pre, r.ready s = true) (hk : s.scalarInit k = false) :
    exec i s = .next (faulted 3#8 (encode i) s) :=
  exec_of_fault (firstFaultOf_of_uninit hreads hpre hk)

section
variable {i : Instr} {s : State} (hready : ∀ r ∈ readsOf i, r.ready s = true)
include hready

/-- A command whose registers are ready and whose value check fails takes that check's fault (R76 step 4). -/
theorem exec_of_value_fault {c : Byte} (hvalue : valueFaultOf i s = some c) : exec i s = .next (faulted c (encode i) s) :=
  exec_of_fault ((firstFaultOf_of_reads_ready hready).trans hvalue)

/-- A command whose registers are ready and whose value check passes completes (R76 step 5). -/
theorem exec_of_value_ok (hvalue : valueFaultOf i s = none) : exec i s = .next (resultOf i s) :=
  exec_of_ready (firstFaultOf_eq_none hready hvalue)

end

/-! ### THERM -/

/-- The word of `THERM` (R153). -/
theorem encode_therm (hd : HReg) (sv sm : SReg) :
    encode (.therm hd sv sm) = 0x40000000#32 ||| regAt hd 20 ||| regAt sv 16 ||| regAt sm 12 := by
  simp [encode, wordOf_eq_or, regAt_eq]

section
variable {s : State} {sv sm : SReg} (hsv : s.scalarInit sv = true) (hsm : s.scalarInit sm = true) (hd : HReg)
include hsv hsm

theorem therm_reads_ready : ∀ r ∈ readsOf (.therm hd sv sm), r.ready s = true := by
  simp [readsOf, RegRead.ready, hsv, hsm]

/-- `THERM` with a zero bound takes fault 4 (R153, R204). -/
theorem exec_therm_of_zero_bound (hm : (s.scalar sm).toNat = 0) :
    exec (.therm hd sv sm) s = .next (faulted 4#8 (encode (.therm hd sv sm)) s) :=
  exec_of_value_fault (therm_reads_ready hsv hsm hd) (if_pos hm)

/-- `THERM` with initialised scalars and a bound that is not 0 writes the code of the reading (R153). -/
theorem exec_therm_of_bound (hm : (s.scalar sm).toNat ≠ 0) :
    exec (.therm hd sv sm) s = .next (s.writeHv hd (therm (level (s.scalar sv).toNat (s.scalar sm).toNat))) :=
  exec_of_value_ok (therm_reads_ready hsv hsm hd) (if_neg hm)

end

/-- Settles O40: `H[hd]` is the code of the reading, so the clauses about values are those about levels and codes. -/
theorem thermEncodesAReading : Obligations.ThermEncodesAReading := by
  refine ⟨reservedBitsRejected_of_mem (row := ⟨_, _, fun w => .therm (regField w 20) (regField w 16) (regField w 12)⟩)
    (by simp [specRows]), fun hd sv sm s => ⟨encode_therm hd sv sm, exec_of_uninit_scalar (pre := []) rfl (by simp),
    fun hsv => exec_of_uninit_scalar (pre := [.scalar sv]) rfl (by simpa [RegRead.ready] using hsv),
    fun hsv hsm => exec_therm_of_zero_bound hsv hsm hd,
    fun hsv hsm hm => ⟨_, exec_therm_of_bound hsv hsm hd hm, s.writeHv_frame hd _, ?_⟩⟩, by decide⟩
  rw [State.hv_writeHv_same, popcount_therm_level]
  have hpos := Nat.pos_of_ne_zero hm
  refine ⟨rfl, fun hx => ?_, therm_level_of_le, fun hpred => ⟨?_, level_pred_eq_127_iff hpred⟩, fun htwo => ?_,
    fun heq => ?_, fun hx hbound => ?_⟩
  · rw [hx, therm_level_zero hpos]
  · rw [level_of_lt (by omega), Nat.mul_comm, ← hpred, Nat.add_sub_cancel]
  · rw [htwo]
    exact level_two _
  · rw [heq, therm_level_of_le le_rfl]
  · rw [hx, hbound, show level 512 1024 = 64 by decide]
    exact hvByte_therm_whole_bytes (k := 8) (by decide)

/-! ### THERMS -/

/-- The word of `THERMS` (R155). -/
theorem encode_therms (hd : HReg) (sv smin smax : SReg) : encode (.therms hd sv smin smax)
    = 0x41000000#32 ||| regAt hd 20 ||| regAt sv 16 ||| regAt smin 12 ||| regAt smax 8 := by
  simp [encode, wordOf_eq_or, regAt_eq]

/-- The difference of two signed readings, where it is not negative, is a reading again (R155). -/
theorem toNat_sint16_sub_le (x y : Scalar) : (sint16 x - sint16 y).toNat ≤ 65535 := by
  have hx := sint16_range x
  have hy := sint16_range y
  omega

section
variable {s : State} {sv smin smax : SReg} (hsv : s.scalarInit sv = true) (hmin : s.scalarInit smin = true)
  (hmax : s.scalarInit smax = true) (hd : HReg)
include hsv hmin hmax

theorem therms_reads_ready : ∀ r ∈ readsOf (.therms hd sv smin smax), r.ready s = true := by
  simp [readsOf, RegRead.ready, hsv, hmin, hmax]

/-- `THERMS` with a range whose width is zero or negative takes fault 5 (R155, R205). -/
theorem exec_therms_of_bad_range (hrange : sint16 (s.scalar smax) - sint16 (s.scalar smin) ≤ 0) :
    exec (.therms hd sv smin smax) s = .next (faulted 5#8 (encode (.therms hd sv smin smax)) s) :=
  exec_of_value_fault (therms_reads_ready hsv hmin hmax hd) (if_pos hrange)

/-- `THERMS` with a reading below its range takes fault 6 (R155, R214). -/
theorem exec_therms_of_below (hrange : 0 < sint16 (s.scalar smax) - sint16 (s.scalar smin))
    (hlow : sint16 (s.scalar sv) < sint16 (s.scalar smin)) :
    exec (.therms hd sv smin smax) s = .next (faulted 6#8 (encode (.therms hd sv smin smax)) s) :=
  exec_of_value_fault (therms_reads_ready hsv hmin hmax hd) ((if_neg hrange.not_ge).trans (if_pos hlow))

/-- `THERMS` with a reading not below its range writes the code of the shifted reading (R155). -/
theorem exec_therms_of_range (hrange : 0 < sint16 (s.scalar smax) - sint16 (s.scalar smin))
    (hlow : sint16 (s.scalar smin) ≤ sint16 (s.scalar sv)) :
    exec (.therms hd sv smin smax) s = .next (s.writeHv hd (therm (level
      (sint16 (s.scalar sv) - sint16 (s.scalar smin)).toNat (sint16 (s.scalar smax) - sint16 (s.scalar smin)).toNat))) :=
  exec_of_value_ok (therms_reads_ready hsv hmin hmax hd) ((if_neg hrange.not_ge).trans (if_neg hlow.not_gt))

end

/-- Settles O41: `H[hd]` is the code of the reading shifted by the lower end, under the width of the range as bound. -/
theorem thermsEncodesASignedReading : Obligations.ThermsEncodesASignedReading := by
  refine ⟨reservedBitsRejected_of_mem
    (row := ⟨_, _, fun w => .therms (regField w 20) (regField w 16) (regField w 12) (regField w 8)⟩) (by simp [specRows]),
    ?_, by decide, by decide, by decide, by decide⟩
  rintro hd sv smin smax s _ _ _ rfl rfl rfl
  have hmin_range := sint16_range (s.scalar smin)
  have hmax_range := sint16_range (s.scalar smax)
  refine ⟨encode_therms hd sv smin smax, by omega, exec_of_uninit_scalar (pre := []) rfl (by simp),
    fun hsv => exec_of_uninit_scalar (pre := [.scalar sv]) rfl (by simpa [RegRead.ready] using hsv),
    fun hsv hmin => exec_of_uninit_scalar (pre := [.scalar sv, .scalar smin]) rfl (by simp [RegRead.ready, hsv, hmin]),
    fun hsv hmin hmax => ⟨exec_therms_of_bad_range hsv hmin hmax hd, exec_therms_of_below hsv hmin hmax hd,
      fun hrange hlow => ⟨_, exec_therms_of_range hsv hmin hmax hd hrange hlow, s.writeHv_frame hd _, ?_⟩⟩⟩
  rw [State.hv_writeHv_same]
  refine ⟨⟨_, _, Int.toNat_of_nonneg (by omega), Int.toNat_of_nonneg hrange.le, toNat_sint16_sub_le _ _, by omega,
    toNat_sint16_sub_le _ _, rfl⟩, fun hend => ?_, fun hend => therm_level_of_le (by omega), by omega,
    fun hv hlo hhi => ?_⟩
  · rw [hend, sub_self]
    exact therm_level_zero (by omega)
  · rw [hv, hlo, hhi, show level (-50 - -100 : Int).toNat (100 - -100 : Int).toNat = 32 by decide]
    exact hvByte_therm_whole_bytes (k := 4) (by decide)

end Sys2Proof.Machine
end

section
/-!
SUPPORT. One channel of the multi-channel encoder, the command `ENCCH`: spec/46_channels.md rule R160.
-/

namespace Sys2Proof.Machine

/-! ### The word and the checks -/

/-- The word of `ENCCH` (R160). -/
theorem encode_encch (hd : HReg) (sv sm : SReg) (hb : HReg) : encode (.encch hd sv sm hb)
    = 0x42000000#32 ||| regAt hd 20 ||| regAt sv 16 ||| regAt sm 12 ||| regAt hb 8 := by
  simp [encode, wordOf_eq_or, regAt_eq]

/-- A command meets no fault exactly when its registers are ready and its value check passes (R76). -/
theorem firstFaultOf_eq_none_iff {i : Instr} {s : State} :
    firstFaultOf i s = none ↔ (∀ r ∈ readsOf i, r.ready s = true) ∧ valueFaultOf i s = none := by
  refine ⟨fun hnone => ?_, fun ⟨hready, hvalue⟩ => firstFaultOf_eq_none hready hvalue⟩
  unfold firstFaultOf at hnone
  cases hfind : (readsOf i).find? fun r => !r.ready s with
  | some r =>
    rw [hfind] at hnone
    cases r <;> cases hnone
  | none =>
    rw [hfind] at hnone
    exact ⟨by simpa using hfind, hnone⟩

/-- A command whose first register that is not ready is a vector takes fault 2 with its own word (R202, R208). -/
theorem exec_of_uninit_hv {i : Instr} {s : State} {pre post : List RegRead} {k : HReg}
    (hreads : readsOf i = pre ++ .hv k :: post) (hpre : ∀ r ∈ pre, r.ready s = true) (hk : s.hvInit k = false) :
    exec i s = .next (faulted 2#8 (encode i) s) :=
  exec_of_fault (firstFaultOf_of_uninit hreads hpre hk)

/-- With an initialised accumulator, `ENCCH` meets no fault exactly when its channel is ready (R160, R223). -/
theorem firstFaultOf_encch_eq_none_iff {s : State} {hd : HReg} (hacc : s.hvInit hd = true) (c : Channel) :
    firstFaultOf (.encch hd c.sv c.sm c.hb) s = none ↔ channelReady s c := by
  rw [firstFaultOf_eq_none_iff]
  simp [readsOf, valueFaultOf, RegRead.ready, channelReady, hacc, and_assoc]

/-! ### The results -/

section
variable {s : State} {hd hb : HReg} {sv sm : SReg} (hacc : s.hvInit hd = true) (hsv : s.scalarInit sv = true)
  (hsm : s.scalarInit sm = true) (hbasis : s.hvInit hb = true)
include hacc hsv hsm hbasis

/-- `ENCCH` with a zero bound takes fault 4 (R160, R204). -/
theorem exec_encch_of_zero_bound (hm : (s.scalar sm).toNat = 0) :
    exec (.encch hd sv sm hb) s = .next (faulted 4#8 (encode (.encch hd sv sm hb)) s) :=
  exec_of_value_fault (by simp [readsOf, RegRead.ready, hacc, hsv, hsm, hbasis]) (if_pos hm)

variable (hm : (s.scalar sm).toNat ≠ 0)
include hm

/-- `ENCCH` with initialised operands and a bound that is not 0 bundles the bound code into the accumulator (R160). -/
theorem exec_encch_of_bound : exec (.encch hd sv sm hb) s = .next
    (s.writeHv hd (s.hv hd ||| (therm (level (s.scalar sv).toNat (s.scalar sm).toNat) ^^^ s.hv hb))) :=
  exec_of_ready ((firstFaultOf_encch_eq_none_iff hacc ⟨sv, sm, hb⟩).mpr ⟨hsv, hsm, hbasis, hm⟩)

/-- `THERM`, `BIND` and `BUNDLE` through a scratch register leave every other register as `ENCCH` does (R160). -/
theorem exec_therm_bind_bundle {ht : HReg} (hne : ht ≠ hd) (hne' : ht ≠ hb) :
    ∃ u1 u2 u3, exec (.therm ht sv sm) s = .next u1 ∧ exec (.bind ht ht hb) u1 = .next u2 ∧
      exec (.bundle hd ht) u2 = .next u3 ∧
      ∀ t, exec (.encch hd sv sm hb) s = .next t → (∀ k, k ≠ ht → u3.hv k = t.hv k ∧ u3.hvInit k = t.hvInit k) ∧
        u3.scalars = t.scalars ∧ u3.sinit = t.sinit ∧ u3.res = t.res ∧ u3.err = t.err := by
  refine ⟨_, _, _, exec_therm_of_bound hsv hsm ht hm,
    exec_bind_of_init (by simp) (State.hvInit_writeHv_of_init hbasis _ _) ht,
    exec_bundle_of_init (by simp [hacc]) (by simp), ?_⟩
  rw [exec_encch_of_bound hacc hsv hsm hbasis hm]
  rintro _ ⟨⟩
  refine ⟨fun k hk => ⟨?_, ?_⟩, by simp, by simp, by simp, by simp⟩
  · simp [State.hv_writeHv, hk, hne.symm, hne'.symm]
  · simp [hk.symm]

end

/-- Bundling a vector bound to the accumulator itself sets the vector's bits (R160, the form `hd = hb`). -/
theorem or_xor_self_eq_or (a v : Hv) : a ||| (v ^^^ a) = a ||| v := by
  apply BitVec.eq_of_getLsbD_eq
  intro i _
  rw [BitVec.getLsbD_or, BitVec.getLsbD_xor, BitVec.getLsbD_or]
  cases a.getLsbD i <;> simp

/-- Encoding the same channel again changes nothing, also where the basis register is the accumulator (R160). -/
theorem exec_encch_again {s t : State} {hd hb : HReg} {sv sm : SReg} (hsv : s.scalarInit sv = true)
    (hsm : s.scalarInit sm = true) (hbasis : s.hvInit hb = true) (hm : (s.scalar sm).toNat ≠ 0)
    (ht : t = s.writeHv hd (s.hv hd ||| (therm (level (s.scalar sv).toNat (s.scalar sm).toNat) ^^^ s.hv hb))) :
    ∃ u, exec (.encch hd sv sm hb) t = .next u ∧ u.hv hd = t.hv hd := by
  subst ht
  refine ⟨_, exec_encch_of_bound (by simp) (by simpa using hsv) (by simpa using hsm)
    (State.hvInit_writeHv_of_init hbasis _ _) (by simpa using hm), ?_⟩
  rw [State.hv_writeHv_same, State.writeHv_scalar, State.writeHv_scalar, State.hv_writeHv_same]
  by_cases hb_acc : hb = hd
  · subst hb_acc
    rw [State.hv_writeHv_same, or_xor_self_eq_or, or_xor_self_eq_or, BitVec.or_assoc, BitVec.or_self]
  · rw [State.hv_writeHv_of_ne _ hb_acc, BitVec.or_assoc, BitVec.or_self]

/-- Settles O42: every clause about values follows from `H[hd] = H[hd] | (therm(level(S[sv], S[sm])) ^ H[hb])`. -/
theorem encchEncodesOneChannel : Obligations.EncchEncodesOneChannel := by
  refine ⟨reservedBitsRejected_of_mem
    (row := ⟨_, _, fun w => .encch (regField w 20) (regField w 16) (regField w 12) (regField w 8)⟩) (by simp [specRows]),
    fun hd sv sm hb s => ⟨encode_encch hd sv sm hb, exec_of_first_uninit rfl,
      fun hacc => exec_of_uninit_scalar (pre := [.hv hd]) rfl (by simp [RegRead.ready, hacc]),
      fun hacc hsv => exec_of_uninit_scalar (pre := [.hv hd, .scalar sv]) rfl (by simp [RegRead.ready, hacc, hsv]),
      fun hacc hsv hsm hbasis => exec_of_uninit_hv (pre := [.hv hd, .scalar sv, .scalar sm]) rfl
        (by simp [RegRead.ready, hacc, hsv, hsm]) hbasis,
      fun hacc hsv hsm hbasis => ⟨exec_encch_of_zero_bound hacc hsv hsm hbasis, fun hm => ?_⟩⟩, by decide⟩
  have hexec := exec_encch_of_bound hacc hsv hsm hbasis hm
  refine ⟨_, hexec, s.writeHv_frame hd _, ?_⟩
  refine ⟨State.hv_writeHv_same .., fun hx => ?_, fun hsat => ?_, fun heq => ?_, fun i _ hi => ?_,
    exec_encch_again hsv hsm hbasis hm rfl, fun ht hne hne' => ?_, fun hzero haa hx hbound => ?_⟩
  · rw [State.hv_writeHv_same, hx, therm_level_zero (Nat.pos_of_ne_zero hm), BitVec.zero_xor]
  · rw [State.hv_writeHv_same, therm_level_of_le hsat, onesHv, BitVec.allOnes_xor]
  · rw [State.hv_writeHv_same, ← heq, or_xor_self_eq_or]
  · rw [State.hv_writeHv_same, BitVec.getLsbD_or, hi, Bool.true_or]
  · obtain ⟨u1, u2, u3, h1, h2, h3, hsame⟩ := exec_therm_bind_bundle hacc hsv hsm hbasis hm hne hne'
    exact ⟨u1, u2, u3, h1, h2, h3, hsame _ hexec⟩
  · rw [State.hv_writeHv_same, hzero, hx, hbound, show level 256 1024 = 32 by decide, BitVec.zero_or]
    obtain ⟨hlow, hhigh⟩ := hvByte_therm_whole_bytes (k := 4) (by decide)
    refine ⟨fun j hj => ?_, fun j hj hj16 => ?_⟩
    · rw [hvByte_xor, hlow j hj, haa j (by omega)]
      rfl
    · rw [hvByte_xor, hhigh j hj hj16, haa j hj16]
      rfl

end Sys2Proof.Machine
end

section
/-!
SUPPORT. The runs of the pseudo-instruction `ENCODE_CHANNELS`: spec/46_channels.md rules R162, R163. A channel whose basis
register is not the accumulator reads nothing that the expansion writes, so its code and its readiness are those of the
state before the run.
-/

namespace Sys2Proof.Machine

/-! ### The code of one channel and the value of a list -/

/-- `therm(level(uint(S[sv]), uint(S[sm]))) ^ H[hb]`: what a channel contributes to the bundle (R160, R162). -/
def channelCode (s : State) (c : Channel) : Hv :=
  therm (level (s.scalar c.sv).toNat (s.scalar c.sm).toNat) ^^^ s.hv c.hb

/-- The command the expansion issues for a channel (R73). -/
def channelCommand (hd : HReg) (c : Channel) : Instr := .encch hd c.sv c.sm c.hb

theorem pseudoCommands_encodeChannels (hd : HReg) (channels : List Channel) :
    pseudoCommands (.encodeChannels hd channels) = .clear hd :: channels.map (channelCommand hd) := rfl

/-- `ENCODE_CHANNELS` is well-formed when no basis register is the accumulator (R73). -/
theorem wf_encodeChannels_iff {hd : HReg} {channels : List Channel} :
    (Pseudo.encodeChannels hd channels).wf = true ↔ ∀ c ∈ channels, c.hb ≠ hd := by
  simp [Pseudo.wf]

/-- The value of a list of channels is the OR of their codes (R162). -/
theorem channelsValue_eq_foldl (s : State) (channels : List Channel) :
    channelsValue s channels = (channels.map (channelCode s)).foldl (· ||| ·) 0#128 := List.foldl_map.symm

theorem channelsValue_cons (s : State) (c : Channel) (channels : List Channel) :
    channelsValue s (c :: channels) = channelCode s c ||| channelsValue s channels := by
  rw [channelsValue_eq_foldl, channelsValue_eq_foldl, List.map_cons, List.foldl_cons, BitVec.or_comm, List.foldl_assoc]

/-- "OR-bundling is commutative/associative": the order of the channels does not matter (R163). -/
theorem channelsValue_perm (s : State) {channels channels' : List Channel} (h : channels.Perm channels') :
    channelsValue s channels = channelsValue s channels' := by
  rw [channelsValue_eq_foldl, channelsValue_eq_foldl]
  exact (h.map _).foldl_op_eq

/-! ### What writing the accumulator leaves -/

section
variable {s t : State} {hd : HReg} (h : OnlyHvChanged hd s t)
include h

theorem OnlyHvChanged.scalar_eq (k : SReg) : t.scalar k = s.scalar k := by rw [State.scalar, State.scalar, h.scalars]

theorem OnlyHvChanged.scalarInit_eq (k : SReg) : t.scalarInit k = s.scalarInit k := by
  rw [State.scalarInit, State.scalarInit, h.sinit]

theorem OnlyHvChanged.channelCode_eq {c : Channel} (hc : c.hb ≠ hd) : channelCode t c = channelCode s c := by
  rw [channelCode, channelCode, h.scalar_eq, h.scalar_eq, (h.others _ hc).1]

theorem OnlyHvChanged.channelReady_iff {c : Channel} (hc : c.hb ≠ hd) : channelReady t c ↔ channelReady s c := by
  rw [channelReady, channelReady, h.scalarInit_eq, h.scalarInit_eq, h.scalar_eq, (h.others _ hc).2]

theorem OnlyHvChanged.channelsValue_eq {channels : List Channel} (hcs : ∀ c ∈ channels, c.hb ≠ hd) :
    channelsValue t channels = channelsValue s channels := by
  rw [channelsValue_eq_foldl, channelsValue_eq_foldl, List.map_congr_left fun c hc => h.channelCode_eq (hcs c hc)]

end

/-! ### Runs -/

/-- A faulted block discards the rest of an expansion (R207). -/
theorem runMoves_issueAll_of_err {s : State} (he : s.err = true) (is : List Instr) :
    runMoves s (issueAll is) = .next s := by
  induction is with
  | nil => rfl
  | cons i is ih => exact (runMoves_cmd_of_err (encode i) he (issueAll is)).trans ih

/-- A run whose first command meets a fault ends in that fault's entry (R206, R207). -/
theorem runMoves_issueAll_of_fault {s : State} {i : Instr} {code : Byte} (he : s.err = false)
    (hf : firstFaultOf i s = some code) (is : List Instr) :
    runMoves s (issueAll (i :: is)) = .next (faulted code (encode i) s) := by
  have hcmd : runMoves s (issueAll (i :: is)) = _ := runMoves_cmd he (decode_encode i) (issueAll is)
  rw [hcmd, nextOf_of_fault hf]
  exact runMoves_issueAll_of_err (faulted_err ..) is

/-- The commands of ready channels bundle the channels' codes into the accumulator, whatever is issued after them
(R162). -/
theorem runMoves_ready_channels {hd : HReg} (channels : List Channel) (hne : ∀ c ∈ channels, c.hb ≠ hd) {s : State}
    (he : s.err = false) (hacc : s.hvInit hd = true) (hready : ∀ c ∈ channels, channelReady s c) :
    ∃ t, OnlyHvChanged hd s t ∧ t.hv hd = s.hv hd ||| channelsValue s channels ∧
      ∀ is, runMoves s (issueAll (channels.map (channelCommand hd) ++ is)) = runMoves t (issueAll is) := by
  induction channels generalizing s with
  | nil => exact ⟨s, .of_init hacc, BitVec.or_zero.symm, fun is => rfl⟩
  | cons c channels ih =>
    obtain ⟨-, hne_rest⟩ := List.forall_mem_cons.mp hne
    obtain ⟨hc, hready_rest⟩ := List.forall_mem_cons.mp hready
    have hframe := s.writeHv_frame hd (s.hv hd ||| channelCode s c)
    obtain ⟨t, honly, hvalue, hrun⟩ := ih hne_rest (hframe.err.trans he) hframe.init
      fun x hx => (hframe.channelReady_iff (hne_rest x hx)).mpr (hready_rest x hx)
    refine ⟨t, hframe.trans honly, ?_, fun is => ?_⟩
    · rw [hvalue, State.hv_writeHv_same, hframe.channelsValue_eq hne_rest, channelsValue_cons, BitVec.or_assoc]
    · exact (runMoves_issueAll_cons he ((firstFaultOf_encch_eq_none_iff hacc c).mpr hc) _).trans (hrun is)

section
variable {hd : HReg} {channels : List Channel} {s : State} (hwf : (Pseudo.encodeChannels hd channels).wf = true)
  (he : s.err = false)
include hwf he

/-- The expansion reaches every channel that follows ready ones alone, the accumulator then holding their bundle (R162). -/
theorem runMoves_encodeChannels_append {pre post : List Channel} (hsplit : channels = pre ++ post)
    (hready : ∀ c ∈ pre, channelReady s c) :
    ∃ t, OnlyHvChanged hd s t ∧ t.hv hd = channelsValue s pre ∧
      runMoves s (issueAll (pseudoCommands (.encodeChannels hd channels)))
        = runMoves t (issueAll (post.map (channelCommand hd))) := by
  have hne := wf_encodeChannels_iff.mp hwf
  have hne_pre : ∀ c ∈ pre, c.hb ≠ hd := fun c hc => hne c (hsplit ▸ List.mem_append_left post hc)
  have hframe := s.writeHv_frame hd 0#128
  obtain ⟨t, honly, hvalue, hrun⟩ := runMoves_ready_channels pre hne_pre (hframe.err.trans he) hframe.init
    fun c hc => (hframe.channelReady_iff (hne_pre c hc)).mpr (hready c hc)
  refine ⟨t, hframe.trans honly, ?_, ?_⟩
  · rw [hvalue, State.hv_writeHv_same, hframe.channelsValue_eq hne_pre, BitVec.zero_or]
  · rw [pseudoCommands_encodeChannels, runMoves_issueAll_cons he (i := .clear hd) rfl, hsplit, List.map_append]
    exact hrun _

/-- The expansion completes when every channel is ready (R162). -/
theorem runMoves_encodeChannels_of_ready (hready : ∀ c ∈ channels, channelReady s c) :
    ∃ t, runMoves s (issueAll (pseudoCommands (.encodeChannels hd channels))) = .next t ∧ t.err = false ∧
      t.hv hd = channelsValue s channels ∧ OnlyHvChanged hd s t := by
  obtain ⟨t, honly, hvalue, hrun⟩ := runMoves_encodeChannels_append hwf he (List.append_nil channels).symm hready
  exact ⟨t, hrun, honly.err.trans he, hvalue, honly⟩

/-- The expansion halts at the first channel that is not ready, which latches its word (R162, R206, R207). -/
theorem runMoves_encodeChannels_of_not_ready {pre post : List Channel} {c : Channel} (hsplit : channels = pre ++ c :: post)
    (hready : ∀ x ∈ pre, channelReady s x) (hc : ¬ channelReady s c) :
    ∃ t, runMoves s (issueAll (pseudoCommands (.encodeChannels hd channels))) = .next t ∧ t.err = true ∧
      t.hv hd = channelsValue s pre ∧ t.ecmd = encode (.encch hd c.sv c.sm c.hb) := by
  have hne := wf_encodeChannels_iff.mp hwf
  obtain ⟨t, honly, hvalue, hrun⟩ := runMoves_encodeChannels_append hwf he hsplit hready
  have hc_t : ¬ channelReady t c := (honly.channelReady_iff (hne c (by simp [hsplit]))).not.mpr hc
  obtain ⟨code, hcode⟩ := Option.ne_none_iff_exists'.mp ((firstFaultOf_encch_eq_none_iff honly.init c).not.mpr hc_t)
  exact ⟨faulted code _ t, hrun.trans (runMoves_issueAll_of_fault (honly.err.trans he) hcode _), rfl, hvalue, rfl⟩

end

/-- A list of channels that are not all ready has a first one that is not. -/
theorem exists_first_not_ready {s : State} {channels : List Channel} (h : ¬ ∀ c ∈ channels, channelReady s c) :
    ∃ pre c post, channels = pre ++ c :: post ∧ (∀ x ∈ pre, channelReady s x) ∧ ¬ channelReady s c := by
  classical
  push Not at h
  obtain ⟨c, hfind⟩ := Option.isSome_iff_exists.mp
    (List.find?_isSome (p := fun c => decide (¬ channelReady s c)).mpr (by simpa using h))
  obtain ⟨hc, pre, post, hsplit, hpre⟩ := List.find?_eq_some_iff_append.mp hfind
  exact ⟨pre, c, post, hsplit, by simpa using hpre, by simpa using hc⟩

/-- Settles O53: the expansion completes with the bundle when every channel is ready, and otherwise halts at the first one
that is not. -/
theorem encodeChannelsComputes : Obligations.EncodeChannelsComputes := by
  intro hd channels s hwf he
  refine ⟨fun t hrun hgood => ?_, runMoves_encodeChannels_of_ready hwf he, ?_,
    fun pre c post => runMoves_encodeChannels_of_not_ready hwf he⟩
  · by_cases hready : ∀ c ∈ channels, channelReady s c
    · obtain ⟨u, hu, -, hvalue, -⟩ := runMoves_encodeChannels_of_ready hwf he hready
      cases hrun.symm.trans hu
      exact hvalue
    · obtain ⟨pre, c, post, hsplit, hpre, hc⟩ := exists_first_not_ready hready
      obtain ⟨u, hu, herr, -⟩ := runMoves_encodeChannels_of_not_ready hwf he hsplit hpre hc
      cases hrun.symm.trans hu
      exact absurd (herr.symm.trans hgood) (by decide)
  · rintro rfl
    obtain ⟨t, ht, -, hvalue, -⟩ := runMoves_encodeChannels_of_ready hwf he (by simp)
    exact ⟨t, ht, hvalue⟩

/-- Settles O54: both expansions complete with the bundle of the same codes, and only the accumulator changes. -/
theorem channelOrderDoesNotMatter : Obligations.ChannelOrderDoesNotMatter := by
  intro hd channels channels' s hperm hwf he hready
  have hwf' : (Pseudo.encodeChannels hd channels').wf = true := hperm.all_eq.symm.trans hwf
  obtain ⟨t, ht, hgood, hvalue, honly⟩ := runMoves_encodeChannels_of_ready hwf he hready
  obtain ⟨t', ht', hgood', hvalue', honly'⟩ :=
    runMoves_encodeChannels_of_ready hwf' he fun c hc => hready c (hperm.mem_iff.mpr hc)
  refine ⟨t, t', ht, ht', hgood, hgood', ?_, fun k hk => ⟨(honly.others k hk).1, (honly'.others k hk).1⟩⟩
  rw [hvalue, hvalue', channelsValue_perm s hperm]

end Sys2Proof.Machine
end

section
/-!
SUPPORT. The host's access to scalars and bytes: spec/47_host_access.md rules R170, R171, R172.
-/

namespace Sys2Proof.Machine

/-! ### The words -/

/-- The word of `SETS` (R170). -/
theorem encode_sets (sd : SReg) (value : Scalar) :
    encode (.sets sd value) = 0x50000000#32 ||| regAt sd 20 ||| value.setWidth 32 := by
  simp [encode, wordOf16_eq_or, regAt_eq]

/-- The word of `SETB` (R171). -/
theorem encode_setb (hd : HReg) (idx : ByteIdx) (byte : Byte) :
    encode (.setb hd idx byte) = 0x51000000#32 ||| regAt hd 20 ||| regAt idx 16 ||| byte.setWidth 32 := by
  simp [encode, wordOf_eq_or, regAt_eq]

/-- The word of `GETB` (R172). -/
theorem encode_getb (ha : HReg) (idx : ByteIdx) :
    encode (.getb ha idx) = 0x52000000#32 ||| regAt ha 20 ||| regAt idx 16 := by
  simp [encode, wordOf_eq_or, regAt_eq]

/-! ### Writing a scalar -/

/-- `SETS` reads no register, so it completes in every state (R170). -/
theorem exec_sets (sd : SReg) (value : Scalar) (s : State) :
    exec (.sets sd value) s = .next (s.writeScalar sd value) := exec_of_ready rfl

/-- Settles O43: `SETS` writes its 16-bit pattern, and only a later reading of it takes a sign. -/
theorem setsWritesAScalar : Obligations.SetsWritesAScalar := by
  refine ⟨reservedBitsRejected_of_mem (row := ⟨_, _, fun w => .sets (regField w 20) (imm16Field w)⟩) (by simp [specRows]),
    fun sd value s => ?_, by decide, by decide, by decide, by decide⟩
  exact ⟨encode_sets sd value, _, exec_sets sd value s, s.writeScalar_frame sd value, s.scalar_writeScalar_same sd value⟩

/-! ### Writing a byte -/

/-- The bits of `0xA5` (R171). -/
theorem getLsbD_0xA5 {t : Nat} (h : t < 8) : (0xA5#8).getLsbD t = true ↔ t = 0 ∨ t = 2 ∨ t = 5 ∨ t = 7 := by
  interval_cases t <;> decide

/-- Byte 15 of the zero vector written with `0xA5` (R171). -/
theorem State.hv_memWrite_0xA5 {s : State} {k : HReg} (hzero : s.hv k = 0#128) {i : Nat} (hi : i < 128) :
    ((s.memWrite (byteAddr k 15) 0xA5#8).hv k).getLsbD i = true ↔ i = 120 ∨ i = 122 ∨ i = 125 ∨ i = 127 := by
  have hplace : (15 : ByteIdx).val = 15 := rfl
  rw [State.hv_memWrite_getLsbD _ _ _ _ hi, hzero, hplace, BitVec.getLsbD_zero]
  by_cases hbyte : i / 8 = 15
  · rw [if_pos hbyte, getLsbD_0xA5 (Nat.mod_lt _ (by decide))]
    omega
  · rw [if_neg hbyte]
    exact iff_of_false nofun (by omega)

/-- Settles O44: `SETB` writes one byte of the store, which is byte `idx` of `H[hd]` and of no other register. -/
theorem setbWritesOneByte : Obligations.SetbWritesOneByte := by
  refine ⟨reservedBitsRejected_of_mem (row := ⟨_, _, fun w => .setb (regField w 20) (regField w 16) (imm8Field w)⟩)
    (by simp [specRows]), fun hd idx byte s => ⟨encode_setb hd idx byte, exec_of_first_uninit rfl,
    fun hinit => ⟨_, exec_setb_of_init hinit idx byte, s.memWrite_frame _ byte, ?_⟩⟩, by decide⟩
  have honly := State.memWrite_onlyHv hinit idx byte
  have hbytes {j : Nat} (hj : j < 16) : hvByte ((s.memWrite (byteAddr hd idx) byte).hv hd) j =
      if j = idx.val then byte else hvByte (s.hv hd) j := s.hvByte_hv_memWrite hd idx.val byte j idx.isLt hj
  refine ⟨(s.memRead_memWrite _ _ _).trans (if_pos rfl), honly.init, (hbytes idx.isLt).trans (if_pos rfl),
    fun j hj hne => (hbytes hj).trans (if_neg hne), fun b hb => ?_, fun k hk => (honly.others k hk).1, ?_⟩
  · rw [← hvByte_getLsbD _ _ _ hb, hbytes idx.isLt, if_pos rfl]
  · rintro hzero rfl rfl i hi
    exact State.hv_memWrite_0xA5 hzero hi

/-! ### Reading a byte -/

/-- Byte `idx` of `H[k]` in the store (R41, R172). -/
theorem State.memRead_byteAddr (s : State) (k : HReg) (idx : ByteIdx) :
    s.memRead (byteAddr k idx) = hvByte (s.hv k) idx.val := (s.hvByte_hv k idx.val idx.isLt).symm

/-- A run that begins with a read of `RES`: the host has seen it, zero-extended (R26, R46). -/
theorem runMoves_read_res (s : State) (ms : List HostMove) :
    runMoves s (.read .res :: ms) = runMoves { s with seen := s.seen ++ [s.res.setWidth 32] } ms := by rfl

/-- A `GETB` of an initialised register and a read of `RES` deliver one byte; what the host reads is not part of the
vector, so the register stays as it is (R172). -/
theorem runMoves_getb_read {ha : HReg} (idx : ByteIdx) {s : State} (hinit : s.hvInit ha = true) (he : s.err = false) :
    ∃ u, u.hvInit ha = true ∧ u.err = false ∧ u.hv ha = s.hv ha ∧
      u.seen = s.seen ++ [(hvByte (s.hv ha) idx.val).setWidth 32] ∧
      ∀ ms, runMoves s (.write .cmd (encode (.getb ha idx)) :: .read .res :: ms) = runMoves u ms := by
  have hready : firstFaultOf (.getb ha idx) s = none :=
    firstFaultOf_eq_none (by simpa [readsOf, RegRead.ready] using hinit) rfl
  rw [← s.memRead_byteAddr]
  refine ⟨{ s with res := s.memRead (byteAddr ha idx), seen := s.seen ++ [(s.memRead (byteAddr ha idx)).setWidth 32] },
    hinit, he, by rfl, rfl, fun ms => ?_⟩
  rw [runMoves_cmd he (decode_encode _), nextOf_of_ready hready, resultOf, runMoves_read_res]
  rfl

/-- `GETB`s of an initialised register, each followed by a read of `RES`, deliver the bytes they name, in order
(R172). -/
theorem runMoves_getb_reads {ha : HReg} (js : List ByteIdx) {s : State} (hinit : s.hvInit ha = true)
    (he : s.err = false) :
    ∃ t, runMoves s (js.flatMap fun j => [.write .cmd (encode (.getb ha j)), .read .res]) = .next t ∧
      t.seen = s.seen ++ js.map fun j => (hvByte (s.hv ha) j.val).setWidth 32 := by
  induction js generalizing s with
  | nil => exact ⟨s, rfl, (List.append_nil _).symm⟩
  | cons j js ih =>
    obtain ⟨u, hinit_u, he_u, hvector, hseen_u, hpair⟩ := runMoves_getb_read j hinit he
    obtain ⟨t, hrun, hseen⟩ := ih hinit_u he_u
    refine ⟨t, (hpair _).trans hrun, ?_⟩
    rw [hseen, hseen_u, hvector, List.append_assoc, List.map_cons, List.singleton_append]

/-- Settles O45: `GETB` delivers one byte of the store; a `GETB` and a read of `RES` keep the vector, so sixteen deliver it
whole. -/
theorem getbReadsOneByte : Obligations.GetbReadsOneByte := by
  refine ⟨reservedBitsRejected_of_mem (row := ⟨_, _, fun w => .getb (regField w 20) (regField w 16)⟩) (by simp [specRows]),
    fun ha idx s => ⟨encode_getb ha idx, exec_of_first_uninit rfl, fun hinit => ?_⟩, fun ha s hinit he => ?_, by decide⟩
  · have hbyte := s.memRead_byteAddr ha idx
    refine ⟨_, exec_getb_of_init hinit idx, s.writeRes_frame _, rfl, hbyte, ?_⟩
    rintro rfl hexample
    exact hbyte.trans hexample
  · obtain ⟨t, hrun, hseen⟩ := runMoves_getb_reads (List.finRange 16) hinit he
    refine ⟨t, hrun, ?_⟩
    rw [hseen, ← List.map_coe_finRange_eq_range, List.map_map]
    rfl

end Sys2Proof.Machine
end

section
/-!
SUPPORT. The faulted state and the way out of it: fault entry changes the fault registers alone and has a listed cause, a faulted
block keeps its first fault until a reset (spec/60_exceptions.md rules R200 to R214), and every move has one successor
(spec/70_reset_and_hazards.md rules R220 to R222, R230).
-/

namespace Sys2Proof.Machine

/-! ### Reset -/

/-- Resetting the block of `State.reset` gives it again (R222). -/
theorem State.reset_blockReset : State.reset.blockReset = State.reset := by rfl

/-- The moves that reset are hard reset and a write of `CTRL` with bit 0 set (R220, R221). -/
theorem HostMove.resets_iff {m : HostMove} :
    m.resets = true ↔ m = .hardReset ∨ ∃ v : Word, m = .write .ctrl v ∧ v.getLsbD 0 = true := by
  constructor
  · intro hm
    cases m with
    | hardReset => exact .inl rfl
    | read r => cases hm
    | write r v =>
      cases r with
      | ctrl => exact .inr ⟨v, rfl, hm⟩
      | cmd | status | res | ecause | ecmd | config | init => cases hm
  · rintro (rfl | ⟨v, rfl, hv⟩)
    · rfl
    · exact hv

theorem AgreeOnReadable.refl (s : State) : AgreeOnReadable s s := by constructor <;> intros <;> rfl

/-- Settles O21: a reset leaves the invariant, and `State.reset` is a block after reset. -/
theorem invariantAtReset : Obligations.InvariantAtReset := by
  unfold Obligations.InvariantAtReset
  rw [← State.reset_blockReset]
  exact State.reset.blockReset_inv

/-- Settles O11: `State.reset` and the step of either reset are a `blockReset`. -/
theorem resetStateAsSpecified : Obligations.ResetStateAsSpecified := by
  refine ⟨?_, fun s m rest hm hh => ⟨_, step_of_resets hm hh, State.blockReset_isReset _⟩⟩
  rw [← State.reset_blockReset]
  exact State.reset.blockReset_isReset

/-! ### The faulted state -/

theorem SameBlock.refl (s : State) : SameBlock s s := by constructor <;> rfl

theorem SameBlock.trans {s t u : State} (h : SameBlock s t) (g : SameBlock t u) : SameBlock s u where
  hvmem := g.hvmem.trans h.hvmem
  hinit := g.hinit.trans h.hinit
  scalars := g.scalars.trans h.scalars
  sinit := g.sinit.trans h.sinit
  res := g.res.trans h.res
  err := g.err.trans h.err
  ecause := g.ecause.trans h.ecause
  ecmd := g.ecmd.trans h.ecmd

/-- A step of a faulted block resets it or leaves the block as it is: no command is decoded (R207, R210). -/
theorem step_of_err {s t : State} {m : HostMove} {rest : List HostMove} (he : s.err = true) (hh : s.host = m :: rest)
    (h : step s = .next t) : (m.resets = true ∧ t.IsReset) ∨ (m.resets = false ∧ SameBlock s t) := by
  obtain ⟨hnil, -⟩ | ⟨m', rest', hh', hmove⟩ := step_cases h
  · cases hh.symm.trans hnil
  cases hh.symm.trans hh'
  obtain ⟨hm, rfl⟩ | ⟨hm, hsame, -⟩ | ⟨w, -, hquiet, -⟩ := hmove
  · exact .inl ⟨hm, State.blockReset_isReset _⟩
  · exact .inr ⟨hm, hsame⟩
  · exact absurd (hquiet.symm.trans he) Bool.false_ne_true

/-- A move that does not reset leaves a faulted block as it is. -/
theorem performMove_of_err {s t : State} {m : HostMove} (he : s.err = true) (hm : m.resets = false)
    (h : performMove m s = .next t) : SameBlock s t := by
  obtain ⟨hr, -⟩ | ⟨-, hsame⟩ := step_of_err (s := s.issue m) he (s.issue_host m) ((step_issue s m).trans h)
  · exact absurd (hm.symm.trans hr) Bool.false_ne_true
  · exact (sameBlock_withHost s _).trans hsame

/-- A run without a reset leaves a faulted block as it is (R210). -/
theorem runMoves_of_err (ms : List HostMove) {s : State} (he : s.err = true) (hms : ∀ m ∈ ms, m.resets = false) :
    ∃ t, runMoves s ms = .next t ∧ SameBlock s t := by
  induction ms generalizing s with
  | nil => exact ⟨s, rfl, .refl s⟩
  | cons m ms ih =>
    obtain ⟨hm, hrest⟩ := List.forall_mem_cons.mp hms
    obtain ⟨u, hu⟩ := performMove_next m s
    have hsame := performMove_of_err he hm hu
    obtain ⟨t, ht, hsame'⟩ := ih (hsame.err.trans he) hrest
    exact ⟨t, by rw [runMoves, hu]; exact ht, hsame.trans hsame'⟩

/-- A run of writes of `CMD` to a faulted block discards them all (R207). -/
theorem runMoves_cmds_of_err {s : State} (he : s.err = true) (ws : List Word) :
    runMoves s (ws.map fun w => .write .cmd w) = .next s := by
  induction ws with
  | nil => rfl
  | cons w ws ih => exact (runMoves_cmd_of_err w he _).trans ih

/-- Settles O16: `step_of_err` for one move, `runMoves_of_err` for a list without a reset. -/
theorem onlyResetLeavesTheFaultedState : Obligations.OnlyResetLeavesTheFaultedState := by
  refine ⟨fun s t m rest he hh h => ?_, fun s ms he hms => runMoves_of_err ms he hms⟩
  obtain ⟨hm, hreset⟩ | ⟨hm, hsame⟩ := step_of_err he hh h
  · exact ⟨fun hm' => absurd (hm'.symm.trans hm) Bool.false_ne_true, fun _ => hreset⟩
  · exact ⟨fun _ => hsame, fun hm' => absurd (hm.symm.trans hm') Bool.false_ne_true⟩

/-- Settles O15: a write of `CMD` to a faulted block is discarded, and a read returns the usual value, `STATUS` being 1. -/
theorem faultedBlockDiscardsCommands : Obligations.FaultedBlockDiscardsCommands := by
  refine ⟨fun s w rest he hh => step_cmd_of_err hh he, fun s ws he => runMoves_cmds_of_err he ws,
    fun s r rest he hh => ⟨step_read hh, BitVec.eq_of_toNat_eq ?_⟩⟩
  exact s.statusWord_toNat.trans (if_pos he)

/-- Settles O12: either reset is the same `blockReset`, and by `step_of_err` only a reset takes a faulted block to `ERR = 0`. -/
theorem softResetEqualsHardReset : Obligations.SoftResetEqualsHardReset := by
  refine ⟨rfl, fun s v rest hv => ?_, fun s t m rest he hh h hgood => ?_⟩
  · have hreset := State.blockReset_isReset { s with host := rest }
    exact ⟨_, _, step_of_resets (HostMove.resets_iff.mpr (.inr ⟨v, rfl, hv⟩)) rfl, step_of_resets rfl rfl, .refl _,
      hreset, hreset, rfl, rfl⟩
  · obtain ⟨hm, -⟩ | ⟨-, hsame⟩ := step_of_err he hh h
    · exact HostMove.resets_iff.mp hm
    · exact absurd (hgood.symm.trans (hsame.err.trans he)) Bool.false_ne_true

/-! ### Fault entry -/

/-- Settles O17: of all that a step can do, only the entry of a fault raises `ERR`, and a command latches the word that was
written. -/
theorem faultsArePrecise : Obligations.FaultsArePrecise := by
  intro s t w rest hh he h ht
  obtain ⟨hnil, -⟩ | ⟨m, rest', hh', hmove⟩ := step_cases h
  · cases hh.symm.trans hnil
  cases hh.symm.trans hh'
  obtain ⟨hm, -⟩ | ⟨-, hsame, -⟩ | ⟨w', hw, -, hcmd⟩ := hmove
  · cases hm
  · exact absurd ((he.symm.trans hsame.err.symm).trans ht) Bool.false_ne_true
  cases hw
  obtain ⟨why, -, rfl⟩ | ⟨i, c, hd, hf, rfl⟩ | ⟨i, -, -, rfl⟩ := hcmd
  · exact ⟨1#8, by decide, by decide, rfl, rfl⟩
  · obtain ⟨hlow, hhigh⟩ := firstFaultOf_range hf
    rw [encode_of_decode hd]
    exact ⟨c, by omega, hhigh, rfl, rfl⟩
  · obtain ⟨herr, -⟩ := resultOf_quiet i { s with host := rest }
    exact absurd ((he.symm.trans herr.symm).trans ht) Bool.false_ne_true

/-- A command's first fault is that of a register it reads which is not ready, or that of its value check (R76). -/
theorem firstFaultOf_eq_some {i : Instr} {s : State} {c : Byte} (h : firstFaultOf i s = some c) :
    (∃ r ∈ readsOf i, r.ready s = false ∧ c = r.cause.code) ∨ valueFaultOf i s = some c := by
  unfold firstFaultOf at h
  cases hfind : (readsOf i).find? fun r => !r.ready s with
  | none =>
    rw [hfind] at h
    exact .inr h
  | some r =>
    rw [hfind] at h
    have hr : r.ready s = false := by simpa using List.find?_some hfind
    refine .inl ⟨r, List.mem_of_find?_eq_some hfind, hr, ?_⟩
    cases r <;> (cases h; rfl)

/-- The value checks: a zero bound of `THERM` or `ENCCH`, an empty range of `THERMS`, a reading below its range (R204,
R205, R214). -/
theorem valueFaultOf_eq_some {i : Instr} {s : State} {c : Byte} (h : valueFaultOf i s = some c) :
    (c = 4#8 ∧ ((∃ hd sv sm, i = .therm hd sv sm ∧ (s.scalar sm).toNat = 0) ∨
      ∃ hd sv sm hb, i = .encch hd sv sm hb ∧ (s.scalar sm).toNat = 0)) ∨
    (c = 5#8 ∧ ∃ hd sv lo hi, i = .therms hd sv lo hi ∧ sint16 (s.scalar hi) - sint16 (s.scalar lo) ≤ 0) ∨
    (c = 6#8 ∧ ∃ hd sv lo hi, i = .therms hd sv lo hi ∧ sint16 (s.scalar sv) < sint16 (s.scalar lo)) := by
  cases i with
  | therm hd sv sm =>
    obtain ⟨hm, hc⟩ := Option.ite_none_right_eq_some.mp h
    exact .inl ⟨(Option.some.inj hc).symm, .inl ⟨hd, sv, sm, rfl, hm⟩⟩
  | encch hd sv sm hb =>
    obtain ⟨hm, hc⟩ := Option.ite_none_right_eq_some.mp h
    exact .inl ⟨(Option.some.inj hc).symm, .inr ⟨hd, sv, sm, hb, rfl, hm⟩⟩
  | therms hd sv lo hi =>
    rw [valueFaultOf] at h
    split at h
    · rename_i hrange
      exact .inr (.inl ⟨(Option.some.inj h).symm, hd, sv, lo, hi, rfl, hrange⟩)
    · obtain ⟨hbelow, hc⟩ := Option.ite_none_right_eq_some.mp h
      exact .inr (.inr ⟨(Option.some.inj hc).symm, hd, sv, lo, hi, rfl, hbelow⟩)
  | _ => cases h

/-- Settles O18: a command raises `ERR` only by its first fault, which is an initialisation check's or the value check's. -/
theorem causesAsListed : Obligations.CausesAsListed := by
  refine ⟨fun i s t he h ht => ?_, ?_⟩
  · cases hf : firstFaultOf i s with
    | none =>
      rw [exec_of_ready hf] at h
      cases h
      obtain ⟨herr, -⟩ := resultOf_quiet i s
      exact absurd ((he.symm.trans herr.symm).trans ht) Bool.false_ne_true
    | some c =>
      rw [exec_of_fault hf] at h
      cases h
      refine ⟨rfl, ?_⟩
      obtain ⟨k | k, hmem, hready, hc⟩ | hvalue := firstFaultOf_eq_some hf
      · exact .inl ⟨hc, k, hmem, hready⟩
      · exact .inr (.inl ⟨hc, k, hmem, hready⟩)
      · exact .inr (.inr (valueFaultOf_eq_some hvalue))
  · rintro s i (⟨b, rfl⟩ | ⟨hd, rfl⟩ | ⟨hd, v, rfl⟩ | ⟨sd, v, rfl⟩)
    · exact ⟨_, exec_popc8 b s, s.writeRes_err _⟩
    · exact ⟨_, exec_clear hd s, s.writeHv_err hd _⟩
    · exact ⟨_, exec_fill hd v s, s.writeHv_err hd _⟩
    · exact ⟨_, exec_sets sd v s, s.writeScalar_err sd v⟩

/-! ### Every state has one successor -/

/-- A step always has a next state (R230). -/
theorem step_next (s : State) : ∃ t, step s = .next t := by
  cases hh : s.host with
  | nil => exact ⟨s, step_nil hh⟩
  | cons m rest =>
    rw [step_cons hh]
    exact performMove_next m _

/-- A run of the machine takes one step at a time. -/
theorem coreRun_succ {s t : State} (h : step s = .next t) (n : Nat) :
    Host.Core.run Sys2Proof.core (n + 1) s = Host.Core.run Sys2Proof.core n t := by
  have hstep : Sys2Proof.core.step s = .next t := h
  simp only [Host.Core.run, hstep]

/-- As many steps as there are pending moves perform them all. -/
theorem coreRun_pending (ms : List HostMove) {s : State} (hh : s.host = ms) :
    ∃ t, Host.Core.run Sys2Proof.core ms.length s = .next t ∧ t.host = [] ∧
      runMoves { s with host := [] } ms = .next t := by
  induction ms generalizing s with
  | nil => exact ⟨s, rfl, hh, by rw [runMoves, ← hh]⟩
  | cons m ms ih =>
    obtain ⟨u, hu⟩ := performMove_next m { s with host := ms }
    obtain ⟨t, ht, hnil, hrun⟩ := ih (performMove_host hu)
    have hmove : performMove m { s with host := [] } = .next { u with host := [] } := performMove_withHost hu []
    refine ⟨t, (coreRun_succ ((step_cons hh).trans hu) ms.length).trans ht, hnil, ?_⟩
    rw [runMoves, hmove]
    exact hrun

/-- Settles O10: `step` is a function that always answers a next state, and each step takes one pending move. -/
theorem everyStateHasOneSuccessor : Obligations.EveryStateHasOneSuccessor := by
  refine ⟨fun s => ?_, fun s => coreRun_pending s.host rfl⟩
  obtain ⟨t, ht⟩ := step_next s
  exact ⟨t, ht, fun u hu => Host.Outcome.next.inj (hu.symm.trans ht)⟩

end Sys2Proof.Machine
end

section
/-!
SUPPORT. Two blocks that differ only in the contents of registers whose flag is 0 make the same steps: a command checks its
registers' flags before it uses their contents, and the window shows no contents (spec/70_reset_and_hazards.md rules R222, R229;
spec/93_implementation_defined.md U6).
-/

namespace Sys2Proof.Machine

section
variable {s t : State} (h : AgreeOnReadable s t)
include h

/-! ### Flags, faults and window reads -/

theorem AgreeOnReadable.hvInit_eq (k : HReg) : t.hvInit k = s.hvInit k := by
  rw [State.hvInit, State.hvInit, h.hinit]

theorem AgreeOnReadable.scalarInit_eq (k : SReg) : t.scalarInit k = s.scalarInit k := by
  rw [State.scalarInit, State.scalarInit, h.sinit]

theorem AgreeOnReadable.ready_eq (r : RegRead) : r.ready t = r.ready s := by
  cases r with
  | hv k => exact h.hvInit_eq k
  | scalar k => exact h.scalarInit_eq k

/-- The window shows no register's contents (R33). -/
theorem AgreeOnReadable.readWindow_eq (r : WinReg) : t.readWindow r = s.readWindow r := by
  cases r <;> simp [State.readWindow, State.statusWord, State.initWord, h.err, h.res, h.ecause, h.ecmd, h.hinit, h.sinit]

/-- Value checks look at scalars the command reads, so at readable ones (R76 step 4). -/
theorem AgreeOnReadable.valueFaultOf_eq {i : Instr} (hready : ∀ r ∈ readsOf i, r.ready s = true) :
    valueFaultOf i t = valueFaultOf i s := by
  cases i with
  | therm | encch | therms =>
    simp only [readsOf, RegRead.ready, List.forall_mem_cons] at hready
    simp only [valueFaultOf, h.scalar, hready]
  | _ => rfl

/-- Both blocks meet the same first fault (R76, R208). -/
theorem AgreeOnReadable.firstFaultOf_eq (i : Instr) : firstFaultOf i t = firstFaultOf i s := by
  unfold firstFaultOf
  simp only [h.ready_eq]
  cases hfind : (readsOf i).find? fun r => !r.ready s with
  | some r => cases r <;> rfl
  | none => exact h.valueFaultOf_eq (by simpa using hfind)

/-! ### Updates -/

theorem AgreeOnReadable.withHost (ms : List HostMove) : AgreeOnReadable { s with host := ms } { t with host := ms } :=
  { h with host := rfl }

theorem AgreeOnReadable.withSeen (ws : List Word) : AgreeOnReadable { s with seen := ws } { t with seen := ws } :=
  { h with seen := rfl }

theorem AgreeOnReadable.faulted (c : Byte) (w : Word) : AgreeOnReadable (faulted c w s) (faulted c w t) :=
  { h with err := rfl, ecause := rfl, ecmd := rfl }

theorem AgreeOnReadable.writeRes (v : Byte) : AgreeOnReadable (s.writeRes v) (t.writeRes v) :=
  { h with res := rfl }

theorem AgreeOnReadable.blockReset : AgreeOnReadable s.blockReset t.blockReset :=
  { AgreeOnReadable.refl s.blockReset with host := h.host, seen := h.seen }

/-- A whole register written makes its contents equal (R8). -/
theorem AgreeOnReadable.writeHv (k : HReg) (v : Hv) : AgreeOnReadable (s.writeHv k v) (t.writeHv k v) where
  __ := h
  hv j hj := by
    rw [State.hv_writeHv, State.hv_writeHv]
    split
    · rfl
    · rename_i hne
      rw [State.hvInit_writeHv, decide_eq_false (Ne.symm hne), Bool.false_or] at hj
      exact h.hv j hj
  hinit := by rw [State.writeHv_hinit, State.writeHv_hinit, h.hinit]

theorem AgreeOnReadable.writeScalar (k : SReg) (v : Scalar) : AgreeOnReadable (s.writeScalar k v) (t.writeScalar k v) where
  __ := h
  scalar j hj := by
    rw [State.scalar_writeScalar, State.scalar_writeScalar]
    split
    · rfl
    · rename_i hne
      rw [State.scalarInit_writeScalar, decide_eq_false (Ne.symm hne), Bool.false_or] at hj
      exact h.scalar j hj
  sinit := by rw [State.writeScalar_sinit, State.writeScalar_sinit, h.sinit]

/-- A byte written into the store keeps the agreement: the other bytes of a readable register agree (R41). -/
theorem AgreeOnReadable.memWrite (k : HReg) (idx : ByteIdx) (v : Byte) :
    AgreeOnReadable (s.memWrite (byteAddr k idx) v) (t.memWrite (byteAddr k idx) v) where
  __ := h
  hv j hj := by
    rw [State.memWrite_hvInit] at hj
    by_cases hjk : j = k
    · subst hjk
      refine hv_ext_bytes fun b hb => ?_
      rw [byteAddr, State.hvByte_hv_memWrite _ _ _ _ _ idx.isLt hb, State.hvByte_hv_memWrite _ _ _ _ _ idx.isLt hb,
        h.hv j hj]
    · rw [byteAddr, State.hv_memWrite_of_ne _ hjk _ idx.isLt, State.hv_memWrite_of_ne _ hjk _ idx.isLt, h.hv j hj]

/-! ### Commands, moves and runs -/

/-- A command whose registers are ready computes the same result in both blocks (R76 step 5). -/
theorem AgreeOnReadable.resultOf {i : Instr} (hready : ∀ r ∈ readsOf i, r.ready s = true) :
    AgreeOnReadable (resultOf i s) (resultOf i t) := by
  cases i with
  | setb => exact h.memWrite _ _ _
  | sets => exact h.writeScalar _ _
  | popc8 => exact h.writeRes _
  | clear | fill => exact h.writeHv _ _
  | popc | hamm | sim | getb =>
    simp only [readsOf, RegRead.ready, List.forall_mem_cons] at hready
    simp only [Machine.resultOf, State.memRead_byteAddr, h.hv, hready]
    exact h.writeRes _
  | bind | or | and | bundle | perm | copy | therm | therms | encch =>
    simp only [readsOf, RegRead.ready, List.forall_mem_cons] at hready
    simp only [Machine.resultOf, h.hv, h.scalar, hready]
    exact h.writeHv _ _

/-- A command takes both blocks to blocks that agree: the same fault, or the same result. -/
theorem AgreeOnReadable.nextOf (i : Instr) : AgreeOnReadable (nextOf i s) (nextOf i t) := by
  cases hf : firstFaultOf i s with
  | some c =>
    rw [nextOf_of_fault hf, nextOf_of_fault ((h.firstFaultOf_eq i).trans hf)]
    exact h.faulted c _
  | none =>
    obtain ⟨hready, -⟩ := firstFaultOf_eq_none_iff.mp hf
    rw [nextOf_of_ready hf, nextOf_of_ready ((h.firstFaultOf_eq i).trans hf)]
    exact h.resultOf hready

/-- A write of `CMD` takes both blocks to blocks that agree (R76). -/
theorem AgreeOnReadable.issueCommand (w : Word) :
    ∃ s' t', issueCommand w s = .next s' ∧ issueCommand w t = .next t' ∧ AgreeOnReadable s' t' := by
  cases he : s.err with
  | true => exact ⟨_, _, issueCommand_of_err w he, issueCommand_of_err w (h.err.trans he), h⟩
  | false =>
    have he' := h.err.trans he
    cases hd : decode w with
    | illegal why => exact ⟨_, _, issueCommand_of_illegal he hd, issueCommand_of_illegal he' hd, h.faulted _ _⟩
    | command i => exact ⟨_, _, issueCommand_of_command he hd, issueCommand_of_command he' hd, h.nextOf i⟩

/-- Every move takes both blocks to blocks that agree (R232). -/
theorem AgreeOnReadable.performMove (m : HostMove) :
    ∃ s' t', performMove m s = .next s' ∧ performMove m t = .next t' ∧ AgreeOnReadable s' t' := by
  cases m with
  | hardReset => exact ⟨_, _, rfl, rfl, h.blockReset⟩
  | read r =>
    refine ⟨_, _, rfl, rfl, ?_⟩
    rw [h.readWindow_eq, h.seen]
    exact h.withSeen _
  | write r w =>
    cases r with
    | cmd => exact h.issueCommand w
    | ctrl =>
      refine ⟨_, _, rfl, rfl, ?_⟩
      split
      · exact h.blockReset
      · exact h
    | status | res | ecause | ecmd | config | init => exact ⟨_, _, rfl, rfl, h⟩

/-- One step takes both blocks to blocks that agree. -/
theorem AgreeOnReadable.step : ∃ s' t', step s = .next s' ∧ step t = .next t' ∧ AgreeOnReadable s' t' := by
  cases hh : s.host with
  | nil => exact ⟨s, t, step_nil hh, step_nil (h.host.trans hh), h⟩
  | cons m rest =>
    rw [step_cons hh, step_cons (h.host.trans hh)]
    exact (h.withHost rest).performMove m

end

/-- So does any number of steps. -/
theorem AgreeOnReadable.coreRun (n : Nat) {s t : State} (h : AgreeOnReadable s t) :
    ∃ s' t', Host.Core.run Sys2Proof.core n s = .next s' ∧ Host.Core.run Sys2Proof.core n t = .next t' ∧
      AgreeOnReadable s' t' := by
  induction n generalizing s t with
  | zero => exact ⟨s, t, rfl, rfl, h⟩
  | succ n ih =>
    obtain ⟨u, v, hu, hv, huv⟩ := h.step
    rw [coreRun_succ hu, coreRun_succ hv]
    exact ih huv

/-- Settles O19: the agreement is kept by every step, since each check and each result uses readable contents alone. -/
theorem unreadableContentsMatterNowhere : Obligations.UnreadableContentsMatterNowhere := by
  refine ⟨fun s t s' hst hs => ?_, fun n s t s' hst hs => ?_⟩
  · obtain ⟨u, t', hu, ht, hagree⟩ := hst.step
    cases hs.symm.trans hu
    exact ⟨t', ht, hagree⟩
  · obtain ⟨u, t', hu, ht, hagree⟩ := hst.coreRun n
    cases hs.symm.trans hu
    exact ⟨t', ht, hagree⟩

end Sys2Proof.Machine
end
